-- ==== Sys2Proof/Word.lean ====
section
/-! DEFINITION. The word of the AUC and the cell of its memories.

Every register, DMEM word and storage word is one 64-bit unit and no access touches part of one
(20_memory.md R63); a sample is an IEEE 754 binary64 bit pattern in such a word (00_scope.md R6). -/

namespace Sys2Proof

/-- A 64-bit register, DMEM word or storage word (20_memory.md R63). -/
abbrev Word := BitVec 64

/-- A word read as a binary64 value: sign in bit 63, exponent in bits 62:52, fraction in bits 51:0
(00_scope.md R6, 20_memory.md R63). -/
abbrev F64 := BitVec 64

/-- One listed word of a memory: its word index and its contents. -/
abbrev WordCell := Nat × Word

end Sys2Proof
end

