-- ==== Sys2Proof/Config.lean ====
section
/-! DEFINITION. What is fixed for the life of one AUC instance: the implementation parameters of
00_scope.md R7, the fixed constants of the same rule, and the one free value the spec leaves open
(the contents of DMEM after reset, 20_memory.md R72). -/

namespace Sys2Proof

/-- The implementation parameters (00_scope.md R7). MAXCAP is a power of two, so its base-two
logarithm is what is kept, the number CONFIG reports (10_state.md R30). -/
structure Params where
  /-- log2 of `MAXCAP`, the physical size in samples of each delay line. -/
  maxCapLog2 : Nat
  /-- `DMEM_WORDS`, the number of words of the sample memory. -/
  dmemWords : Nat
  /-- `NSM`, the number of parameter smoother channels. -/
  nsm : Nat
  deriving DecidableEq, Repr

/-- `MAXCAP` (00_scope.md R7). -/
def Params.maxCap (p : Params) : Nat := 2 ^ p.maxCapLog2

/-- The legal values of R7: MAXCAP from 128 to 2^32, DMEM_WORDS from 1 to 2^32 - 8192, NSM from 1
to 16. -/
abbrev Params.Legal (p : Params) : Prop :=
  (7 ≤ p.maxCapLog2 ∧ p.maxCapLog2 ≤ 32) ∧
  (1 ≤ p.dmemWords ∧ p.dmemWords ≤ 2 ^ 32 - 8192) ∧
  (1 ≤ p.nsm ∧ p.nsm ≤ 16)

/-- The defaults of R7: MAXCAP 65536, DMEM_WORDS 4096, NSM 2. -/
def Params.standard : Params := { maxCapLog2 := 16, dmemWords := 4096, nsm := 2 }

namespace Config

/-- `INIT_CAP`, the capacity of each delay line after reset (00_scope.md R7). -/
def initCap : Nat := 128

/-- +0.0. -/
def zero : F64 := 0x0000000000000000#64

/-- 1.0. -/
def one : F64 := 0x3FF0000000000000#64

/-- 1000.0, the divisor of the step count (43_smooth.md R204). -/
def thousand : F64 := 0x408F400000000000#64

/-- `FS_RESET` = 48000.0, the sample rate held after reset (00_scope.md R7, 10_state.md R43). -/
def fsReset : F64 := 0x40E7700000000000#64

/-- `K_MAX`, the binary64 nearest to 0.99999999 (00_scope.md R7). -/
def kMax : F64 := 0x3FEFFFFFFAA19C47#64

/-- The canonical quiet NaN (00_scope.md R12). -/
def canonicalNaN : F64 := 0x7FF8000000000000#64

/-- The command set revision CONFIG reports (10_state.md R30). -/
def revision : BitVec 8 := 0x07#8

/-- The free value a read of a DMEM word gives that no write has reached since reset: the `k`-th such
read of a run draws `dmemDraw k`. It has no body, so nothing is known of any of its values
(20_memory.md R72, 93_implementation_defined.md U5: "a free draw of any 64-bit value that each read
of that word returns anew until it is written"). Log entry 3. -/
opaque dmemDraw : Nat → Word

end Config

end Sys2Proof
end

