-- ==== Sys2Proof/Syntax.lean ====
section
/-! DEFINITION. The commands of the AUC: one constructor per row of spec/opcode_table.json
(30_encoding.md R89). A command's own fields are CH, a smoother channel of four bits (R82), and LEN, a
block length of twenty bits (R83); its operands are in OPA and OPB (R84, R85), which are state. -/

namespace Sys2Proof

inductive Instr where
  /-- CB.RESIZE, 40_cbuf.md R103. -/
  | cbResize
  /-- CB.PUSH, 40_cbuf.md R104. -/
  | cbPush
  /-- CB.PUSHBLK, 40_cbuf.md R105. -/
  | cbPushBlk (n : BitVec 20)
  /-- CB.PULL, 40_cbuf.md R106. -/
  | cbPull
  /-- CB.PULLBLK, 40_cbuf.md R107. -/
  | cbPullBlk (n : BitVec 20)
  /-- CB.PULLBLKADD, 40_cbuf.md R108. -/
  | cbPullBlkAdd (n : BitVec 20)
  /-- CB.PULLDLY, 40_cbuf.md R109. -/
  | cbPullDly
  /-- CB.PULLDLYBLK, 40_cbuf.md R110. -/
  | cbPullDlyBlk (n : BitVec 20)
  /-- CB.PULLDLYBLKI, 41_interp.md R145. -/
  | cbPullDlyBlkI (n : BitVec 20)
  /-- CB.MODDLYBLK, 40_cbuf.md R111. -/
  | cbModDlyBlk (n : BitVec 20)
  /-- CB.MODDLYBLKD, 40_cbuf.md R112. -/
  | cbModDlyBlkD (n : BitVec 20)
  /-- CB.WRDIST, 40_cbuf.md R113. -/
  | cbWrDist
  /-- CB.RSTRD, 40_cbuf.md R114. -/
  | cbRstRd
  /-- CF.PROC, 42_comb.md R164. -/
  | cfProc
  /-- CF.PROCBLK, 42_comb.md R165. -/
  | cfProcBlk (n : BitVec 20)
  /-- CF.SETFREQ, 42_comb.md R166. -/
  | cfSetFreq
  /-- CF.SETDLY, 42_comb.md R167. -/
  | cfSetDly
  /-- CF.SETFBK, 42_comb.md R169. -/
  | cfSetFbk
  /-- CF.INITFS, 42_comb.md R168. -/
  | cfInitFs
  /-- CF.SETTOPO, 42_comb.md R170. -/
  | cfSetTopo
  /-- SM.INIT, 43_smooth.md R203. -/
  | smInit (c : BitVec 4)
  /-- SM.SETTIME, 43_smooth.md R204. -/
  | smSetTime (c : BitVec 4)
  /-- SM.SETTGT, 43_smooth.md R205. -/
  | smSetTgt (c : BitVec 4)
  /-- SM.NEXT, 43_smooth.md R206. -/
  | smNext (c : BitVec 4)
  /-- SM.CUR, 43_smooth.md R207. -/
  | smCur (c : BitVec 4)
  /-- SM.NEXTBLK, 43_smooth.md R208. -/
  | smNextBlk (c : BitVec 4) (n : BitVec 20)
  deriving DecidableEq, Repr

end Sys2Proof
end

