-- ==== Sys2Proof/WellFormed.lean ====
section
/-! DEFINITION. When a command may be given to an instance with `nsm` smoother channels. The widths of
CH and LEN are the types' (an instruction cannot hold a longer field); what is left to check is R82's
`CH < NSM`. -/

namespace Sys2Proof

/-- The smoother channel a command names, if it is a smoother command (30_encoding.md R82). -/
def Instr.channel? : Instr → Option (BitVec 4)
  | .cbResize | .cbPush | .cbPushBlk _ | .cbPull | .cbPullBlk _ | .cbPullBlkAdd _ | .cbPullDly => none
  | .cbPullDlyBlk _ | .cbPullDlyBlkI _ | .cbModDlyBlk _ | .cbModDlyBlkD _ | .cbWrDist | .cbRstRd => none
  | .cfProc | .cfProcBlk _ | .cfSetFreq | .cfSetDly | .cfSetFbk | .cfInitFs | .cfSetTopo => none
  | .smInit c | .smSetTime c | .smSetTgt c | .smNext c | .smCur c | .smNextBlk c _ => some c

/-- A smoother command is well-formed on an instance with `nsm` channels when its channel is one of
them; every other command always is (30_encoding.md R82). -/
def Instr.wellFormed (nsm : Nat) (i : Instr) : Bool :=
  match i.channel? with
  | none => true
  | some c => decide (c.toNat < nsm)

end Sys2Proof
end

