-- ==== Sys2Proof/Decode.lean ====
section
/-! DEFINITION. The command word: decoder and encoder (30_encoding.md R80 to R90). The decoder is total on
64-bit words and rejects by name (R88); the encoder is written from the same opcode map (R89, R92). -/

namespace Sys2Proof

/-- Why a command word selects no command (30_encoding.md R87). -/
inductive Reject where
  /-- OP is outside the opcode map (R81). -/
  | illegalOp
  /-- RSV is not 0, or CH or LEN is not allowed for the OP (R80, R82, R83). -/
  | reservedField
  deriving DecidableEq, Repr

/-- A row of the opcode map (R89): the OP value, whether CH is a channel and whether LEN is a block
length (a field that is neither must be 0), and the command the row stands for. -/
structure OpRow where
  op : BitVec 8
  usesCh : Bool
  usesLen : Bool
  build : BitVec 4 → BitVec 20 → Instr

/-- The circular buffer rows of R89. -/
def cbRows : List OpRow :=
  [ { op := 0x01#8, usesCh := false, usesLen := false, build := fun _ _ => .cbResize },
    { op := 0x02#8, usesCh := false, usesLen := false, build := fun _ _ => .cbPush },
    { op := 0x03#8, usesCh := false, usesLen := true,  build := fun _ n => .cbPushBlk n },
    { op := 0x04#8, usesCh := false, usesLen := false, build := fun _ _ => .cbPull },
    { op := 0x05#8, usesCh := false, usesLen := true,  build := fun _ n => .cbPullBlk n },
    { op := 0x06#8, usesCh := false, usesLen := true,  build := fun _ n => .cbPullBlkAdd n },
    { op := 0x07#8, usesCh := false, usesLen := false, build := fun _ _ => .cbPullDly },
    { op := 0x08#8, usesCh := false, usesLen := true,  build := fun _ n => .cbPullDlyBlk n },
    { op := 0x09#8, usesCh := false, usesLen := true,  build := fun _ n => .cbPullDlyBlkI n },
    { op := 0x0A#8, usesCh := false, usesLen := true,  build := fun _ n => .cbModDlyBlk n },
    { op := 0x0B#8, usesCh := false, usesLen := true,  build := fun _ n => .cbModDlyBlkD n },
    { op := 0x0C#8, usesCh := false, usesLen := false, build := fun _ _ => .cbWrDist },
    { op := 0x0D#8, usesCh := false, usesLen := false, build := fun _ _ => .cbRstRd } ]

/-- The comb filter rows of R89. -/
def cfRows : List OpRow :=
  [ { op := 0x20#8, usesCh := false, usesLen := false, build := fun _ _ => .cfProc },
    { op := 0x21#8, usesCh := false, usesLen := true,  build := fun _ n => .cfProcBlk n },
    { op := 0x22#8, usesCh := false, usesLen := false, build := fun _ _ => .cfSetFreq },
    { op := 0x23#8, usesCh := false, usesLen := false, build := fun _ _ => .cfSetDly },
    { op := 0x24#8, usesCh := false, usesLen := false, build := fun _ _ => .cfSetFbk },
    { op := 0x25#8, usesCh := false, usesLen := false, build := fun _ _ => .cfInitFs },
    { op := 0x26#8, usesCh := false, usesLen := false, build := fun _ _ => .cfSetTopo } ]

/-- The parameter smoother rows of R89. -/
def smRows : List OpRow :=
  [ { op := 0x30#8, usesCh := true, usesLen := false, build := fun c _ => .smInit c },
    { op := 0x31#8, usesCh := true, usesLen := false, build := fun c _ => .smSetTime c },
    { op := 0x32#8, usesCh := true, usesLen := false, build := fun c _ => .smSetTgt c },
    { op := 0x33#8, usesCh := true, usesLen := false, build := fun c _ => .smNext c },
    { op := 0x34#8, usesCh := true, usesLen := false, build := fun c _ => .smCur c },
    { op := 0x35#8, usesCh := true, usesLen := true,  build := fun c n => .smNextBlk c n } ]

/-- The opcode map (R89). Every OP value that heads no row is illegal (R81, R90). -/
def opRows : List OpRow := cbRows ++ cfRows ++ smRows

/-- The row of an OP value, if it is defined (R81). -/
def rowOf (op : BitVec 8) : Option OpRow := opRows.find? fun r => r.op == op

/-- OP, bits 7:0 (R80). -/
def fieldOp (w : Word) : BitVec 8 := w.extractLsb' 0 8

/-- CH, bits 11:8 (R80). -/
def fieldCh (w : Word) : BitVec 4 := w.extractLsb' 8 4

/-- LEN, bits 31:12 (R80). -/
def fieldLen (w : Word) : BitVec 20 := w.extractLsb' 12 20

/-- RSV, bits 63:32 (R80). -/
def fieldRsv (w : Word) : BitVec 32 := w.extractLsb' 32 32

/-- R82: a smoother row takes `CH < NSM`, every other row CH 0. -/
def chAllowed (r : OpRow) (nsm : Nat) (ch : BitVec 4) : Bool :=
  if r.usesCh then decide (ch.toNat < nsm) else ch == 0#4

/-- R83: a block row takes any LEN, every other row LEN 0. -/
def lenAllowed (r : OpRow) (len : BitVec 20) : Bool := r.usesLen || len == 0#20

/-- The decoder, in the check order of 60_exceptions.md R233: OP, then RSV, CH and LEN. `nsm` is the
instance's number of smoother channels. -/
def decode (nsm : Nat) (w : Word) : Except Reject Instr :=
  match rowOf (fieldOp w) with
  | none => .error .illegalOp
  | some r =>
    if fieldRsv w == 0#32 && chAllowed r nsm (fieldCh w) && lenAllowed r (fieldLen w) then
      .ok (r.build (fieldCh w) (fieldLen w))
    else .error .reservedField

/-- The OP value of a command (R89). -/
def Instr.op : Instr → BitVec 8
  | .cbResize => 0x01#8
  | .cbPush => 0x02#8
  | .cbPushBlk _ => 0x03#8
  | .cbPull => 0x04#8
  | .cbPullBlk _ => 0x05#8
  | .cbPullBlkAdd _ => 0x06#8
  | .cbPullDly => 0x07#8
  | .cbPullDlyBlk _ => 0x08#8
  | .cbPullDlyBlkI _ => 0x09#8
  | .cbModDlyBlk _ => 0x0A#8
  | .cbModDlyBlkD _ => 0x0B#8
  | .cbWrDist => 0x0C#8
  | .cbRstRd => 0x0D#8
  | .cfProc => 0x20#8
  | .cfProcBlk _ => 0x21#8
  | .cfSetFreq => 0x22#8
  | .cfSetDly => 0x23#8
  | .cfSetFbk => 0x24#8
  | .cfInitFs => 0x25#8
  | .cfSetTopo => 0x26#8
  | .smInit _ => 0x30#8
  | .smSetTime _ => 0x31#8
  | .smSetTgt _ => 0x32#8
  | .smNext _ => 0x33#8
  | .smCur _ => 0x34#8
  | .smNextBlk _ _ => 0x35#8

/-- The block length of a block command (R83). -/
def Instr.len? : Instr → Option (BitVec 20)
  | .cbPushBlk n | .cbPullBlk n | .cbPullBlkAdd n | .cbPullDlyBlk n | .cbPullDlyBlkI n => some n
  | .cbModDlyBlk n | .cbModDlyBlkD n | .cfProcBlk n | .smNextBlk _ n => some n
  | .cbResize | .cbPush | .cbPull | .cbPullDly | .cbWrDist | .cbRstRd => none
  | .cfProc | .cfSetFreq | .cfSetDly | .cfSetFbk | .cfInitFs | .cfSetTopo => none
  | .smInit _ | .smSetTime _ | .smSetTgt _ | .smNext _ | .smCur _ => none

/-- `enc(OP, c, n) = (n << 12) | (c << 8) | OP`, with RSV 0 (R92). -/
def enc (op : BitVec 8) (c : BitVec 4) (n : BitVec 20) : Word :=
  (n.setWidth 64 <<< 12) ||| (c.setWidth 64 <<< 8) ||| op.setWidth 64

/-- The command word of a command: a field the command does not use is 0 (R82, R83, R92). -/
def encode (i : Instr) : Word := enc i.op (i.channel?.getD 0#4) (i.len?.getD 0#20)

/-- The word of `nbits` bits (numbered from bit 0 of the first word) that the host writes to CMD, the
bits above `nbits` being 0. Every command is one 64-bit word (R88). -/
def tableWord (nbits w : Nat) : Word := BitVec.ofNat 64 (w % 2 ^ nbits)

/-- What the decoder reads from an opcode-table word, on an instance with the most channels R7 allows
(sixteen): the table's CH field is four bits, and `CH < NSM` is the instance's own check (log
entry 14). -/
def decodeTableWord (nbits w : Nat) : Option Instr := (decode 16 (tableWord nbits w)).toOption

end Sys2Proof
end

