-- ==== Sys2Proof/Machine/Binary64.lean ====
section
/-! DEFINITION. The arithmetic of binary64 (00_scope.md R11, R12).

A finite binary64 is a whole number of units of 2^-1074, the least positive binary64, with a sign. So
the exact sum, product and quotient of two finite values are a natural number of units or a quotient
of two such numbers, and each operation is: compute exactly, then round once, to nearest, ties to even.
A result that is NaN is the canonical quiet NaN (R12). The meaning of the bits is that of IEEE 754,
which the spec names and does not write out (93_implementation_defined.md G2 to G6; log entry 13). -/

namespace Sys2Proof.Machine

/-- One, in units of 2^-1074. -/
def unitsPerOne : Nat := 2 ^ 1074

/-- The 63 bits below the sign, as a number; it grows with the absolute value. -/
def magBits (x : F64) : Nat := x.toNat % 2 ^ 63

/-- `magBits` of an infinity. -/
def infMag : Nat := 0x7FF0000000000000

/-- The sign bit, bit 63 (20_memory.md R63). -/
def signBit (x : F64) : Bool := x.msb

def isNaN (x : F64) : Bool := decide (infMag < magBits x)

def isInf (x : F64) : Bool := decide (magBits x = infMag)

def isFinite (x : F64) : Bool := decide (magBits x < infMag)

/-- A value from its sign and the 63 bits below it. -/
def packBits (neg : Bool) (mag : Nat) : F64 := BitVec.ofNat 64 ((if neg then 2 ^ 63 else 0) + mag)

/-- The absolute value of a finite value, in units of 2^-1074, from its exponent and fraction fields. -/
def magUnits (x : F64) : Nat :=
  let e := magBits x / 2 ^ 52
  let f := magBits x % 2 ^ 52
  if e = 0 then f else (2 ^ 52 + f) * 2 ^ (e - 1)

/-- A finite value in units of 2^-1074, with its sign. -/
def units (x : F64) : Int := if signBit x then -(magUnits x : Int) else (magUnits x : Int)

/-- `num / den` rounded to the nearest whole number, ties to even. -/
def roundNearestEven (num den : Nat) : Nat :=
  let q := num / den
  let r := num % den
  if 2 * r < den then q
  else if den < 2 * r then q + 1
  else if q % 2 = 0 then q else q + 1

/-- `magBits` of the binary64 nearest to `num / den` units of 2^-1074, ties to even: keep 53 significant
bits (fewer below 2^52 units, where every whole number of units is a binary64), round the rest away, and
answer infinity from there up. A carry out of the 53 bits moves into the exponent field by itself. -/
def roundMag (num den : Nat) : Nat :=
  let k := Nat.log2 (num / den) - 52
  min infMag (k * 2 ^ 52 + roundNearestEven num (den * 2 ^ k))

/-- The value with its sign changed. -/
def fneg (x : F64) : F64 := packBits (!signBit x) (magBits x)

/-- `fadd`: an exact zero sum is -0 only when both operands are negative (IEEE 754). -/
def fadd (a b : F64) : F64 :=
  if isNaN a || isNaN b then Config.canonicalNaN
  else if isInf a then
    if isInf b && signBit a != signBit b then Config.canonicalNaN else a
  else if isInf b then b
  else if units a + units b = 0 then packBits (signBit a && signBit b) 0
  else packBits (decide (units a + units b < 0)) (roundMag (units a + units b).natAbs 1)

/-- `fsub a b` is `a + (-b)`. -/
def fsub (a b : F64) : F64 := fadd a (fneg b)

/-- `fmul`: zero times infinity is NaN. -/
def fmul (a b : F64) : F64 :=
  let neg := signBit a != signBit b
  if isNaN a || isNaN b then Config.canonicalNaN
  else if isInf a || isInf b then
    if magBits a = 0 || magBits b = 0 then Config.canonicalNaN else packBits neg infMag
  else packBits neg (roundMag (magUnits a * magUnits b) unitsPerOne)

/-- `fdiv`: a nonzero value over zero is infinite; zero over zero and infinity over infinity are NaN. -/
def fdiv (a b : F64) : F64 :=
  let neg := signBit a != signBit b
  if isNaN a || isNaN b then Config.canonicalNaN
  else if isInf a then
    if isInf b then Config.canonicalNaN else packBits neg infMag
  else if isInf b then packBits neg 0
  else if magBits b = 0 then
    if magBits a = 0 then Config.canonicalNaN else packBits neg infMag
  else packBits neg (roundMag (magUnits a * unitsPerOne) (magUnits b))

/-- A number that orders the values that are not NaN, -0 and +0 alike. -/
def orderKey (x : F64) : Int := if signBit x then -(magBits x : Int) else (magBits x : Int)

/-- IEEE `a < b`: false when either side is NaN (00_scope.md R11). -/
def flt (a b : F64) : Bool := !isNaN a && !isNaN b && decide (orderKey a < orderKey b)

/-- IEEE `a <= b`. -/
def fle (a b : F64) : Bool := !isNaN a && !isNaN b && decide (orderKey a ≤ orderKey b)

/-- IEEE `a == b`; -0 equals +0. -/
def feq (a b : F64) : Bool := !isNaN a && !isNaN b && decide (orderKey a = orderKey b)

/-- `floor(d)` of a finite value, an exact integer (00_scope.md R11). -/
def ffloor (d : F64) : Int := units d / (unitsPerOne : Int)

/-- `ceil(d)` of a finite value, an exact integer (00_scope.md R11). -/
def fceil (d : F64) : Int := -(-units d / (unitsPerOne : Int))

/-- `rnd(t)`, nearest integer, halfway cases away from zero, computed exactly: sign(t) * floor(|t| + 1/2)
(43_smooth.md R201). -/
def rnd (t : F64) : Int :=
  let m : Nat := (2 * magUnits t + unitsPerOne) / (2 * unitsPerOne)
  if signBit t then -(m : Int) else (m : Int)

/-- `f64(n)`, exact for `n < 2^53` (00_scope.md R11). -/
def f64OfNat (n : Nat) : F64 := packBits false (roundMag (n * unitsPerOne) 1)

end Sys2Proof.Machine
end

