-- ==== Sys2Proof/Machine/State.lean ====
section
/-! DEFINITION. The state of the AUC (10_state.md R20 to R43), the reasons a step can stop, and the
state after reset. A value the spec computes from other state (CONFIG, the mirrors, `irq`) is stored
once and read through an accessor (Machine/HostPort.lean, Machine/Flags.lean). -/

namespace Sys2Proof.Machine

/-- The fault causes STATUS.CAUSE records (60_exceptions.md R230); the codes 8 to 15 are never recorded
and so have no name (93_implementation_defined.md U8). These are the AUC's own faults, after which it
goes on (R239): a command that raises one answers a next state. -/
inductive Cause where
  /-- Code 0, no fault recorded. -/
  | none
  /-- Code 1, the OP field is not in the opcode map. -/
  | illegalOp
  /-- Code 2, a reserved field is not 0, or CH or LEN is not allowed. -/
  | reservedField
  /-- Code 3, a block outside DMEM. -/
  | dmemRange
  /-- Code 4, an operand outside the domain its rule states. -/
  | operand
  /-- Code 5, a delay outside the circular buffer's capacity. -/
  | delayRange
  /-- Code 6, a size above MAXCAP or a comb delay above MAXCAP - 1. -/
  | capacity
  /-- Code 7, a host access the window refuses. -/
  | bus
  deriving DecidableEq, Repr

/-- STATUS (10_state.md R35). Its reserved bits read 0 and hold nothing. -/
structure Status where
  /-- Bit 0, the sticky fault flag. -/
  err : Bool
  /-- Bits 7:4, the cause of the first fault since ERR was last clear. -/
  cause : Cause
  /-- Bits 15:8, the OP field of the command that raised it, 0 for a BUS fault. -/
  fop : BitVec 8
  deriving DecidableEq, Repr

/-- The circular buffer unit (10_state.md R21). `store` lists the nonzero words of `CB_S[0..CB_CAP-1]`,
indices rising; an index not listed holds +0.0, as every resize leaves it (40_cbuf.md R103). -/
structure CbUnit where
  cap : Nat
  wc : Nat
  rc : Nat
  store : List WordCell
  deriving DecidableEq, Repr

/-- The comb filter unit (10_state.md R25); `store` is `CF_S[0..CF_CAP-1]`, held as `CbUnit.store` is. -/
structure CfUnit where
  cap : Nat
  wc : Nat
  rc : Nat
  store : List WordCell
  fs : F64
  delay : F64
  freq : F64
  k : F64
  fb : Bool
  deriving DecidableEq, Repr

/-- One parameter smoother channel (10_state.md R27). -/
structure SmChannel where
  fs : F64
  cur : F64
  tgt : F64
  steps : BitVec 32
  inc : F64
  rem : BitVec 32
  deriving DecidableEq, Repr

/-- What a host access does. -/
inductive AccessKind where
  | read
  | write (v : Word)
  deriving DecidableEq, Repr

/-- One host access to the host window: its width in bits, its byte offset (10_state.md R44 (a)) and
what it does. Only 64-bit accesses are ever served (20_memory.md R64), so a write carries one word. -/
structure Access where
  width : Nat
  offset : Word
  kind : AccessKind
  deriving DecidableEq, Repr

/-- What the outside world does to the AUC: a host transaction (30_encoding.md R91) or a pulse of the
reset input (70_reset_and_hazards.md R260). -/
inductive HostEvent where
  | access (a : Access)
  | reset
  deriving DecidableEq, Repr

/-- A fault of the run: its cause and the opcode STATUS.FOP would record (00_scope.md R15). -/
structure FaultRecord where
  cause : Cause
  fop : BitVec 8
  deriving DecidableEq, Repr

/-- The state of the AUC, with the model's own four fields last. -/
structure State where
  /-- The instance's parameters, reported by CONFIG; no step changes them (00_scope.md R7, 10_state.md
  R20, R30). -/
  params : Params
  /-- The circular buffer unit (10_state.md R21). -/
  cb : CbUnit
  /-- The comb filter unit (10_state.md R25). -/
  cf : CfUnit
  /-- The smoother channels 0 to NSM - 1 (10_state.md R27). -/
  sm : List SmChannel
  /-- OPA (10_state.md R32). -/
  opa : Word
  /-- OPB (10_state.md R33). -/
  opb : Word
  /-- RES (10_state.md R34). -/
  res : Word
  /-- STATUS (10_state.md R35). -/
  status : Status
  /-- CTRL.IE, the one bit CTRL holds (10_state.md R36). -/
  ie : Bool
  /-- DMEM: the words written since reset, indices rising (20_memory.md R60, R72). -/
  dmem : List WordCell
  /-- The model's own: how many free values have been drawn for unwritten DMEM words (log entry 3). -/
  draws : Nat
  /-- The model's own: what the outside world does next, first one first (log entry 1). -/
  pending : List HostEvent
  /-- The model's own: the values the host has read, latest first (00_scope.md R15, log entry 8). -/
  hostReads : List Word
  /-- The model's own: the faults of the run, latest first, kept when STATUS is cleared (00_scope.md
  R15, 92_eei_decisions.md D26, log entry 9). -/
  faultLog : List FaultRecord
  deriving DecidableEq, Repr

/-- The ways a step stops the machine with a fault. There is none: every fault of the AUC is recorded in
STATUS and the machine goes on (60_exceptions.md R231, R239), so a faulting command or access answers a
next state; and a read of an unwritten DMEM word draws a free value (20_memory.md R72). Nobody raises
one; that no step does is safe, since the spec knows no fatal fault (R239). -/
inductive Fault where
  deriving DecidableEq, Repr

/-- The ways a step has no meaning. -/
inductive Refusal where
  /-- Raised by an arm of `exec` whose instruction has no meaning yet, under the instruction's mnemonic;
  safe, since nothing is claimed of its effect. No arm raises it now. -/
  | notModelled (mnemonic : String)
  deriving DecidableEq, Repr

/-- STATUS with no fault recorded (10_state.md R43). -/
def Status.clear : Status := { err := false, cause := .none, fop := 0#8 }

/-- The circular buffer unit after reset (10_state.md R43). -/
def CbUnit.reset : CbUnit := { cap := Config.initCap, wc := 0, rc := 0, store := [] }

/-- The comb filter unit after reset (10_state.md R43). -/
def CfUnit.reset : CfUnit :=
  { cap := Config.initCap, wc := 0, rc := 0, store := [], fs := Config.fsReset, delay := Config.one,
    freq := Config.fsReset, k := Config.zero, fb := false }

/-- A smoother channel after reset (10_state.md R43). -/
def SmChannel.reset : SmChannel :=
  { fs := Config.fsReset, cur := Config.zero, tgt := Config.zero, steps := 1#32, inc := Config.zero,
    rem := 0#32 }

/-- An instance with the parameters `p` right after reset (10_state.md R43, 70_reset_and_hazards.md R260,
R261): DMEM has no written word (20_memory.md R72), and nothing is pending. -/
def State.resetWith (p : Params) : State :=
  { params := p
    cb := CbUnit.reset
    cf := CfUnit.reset
    sm := List.replicate p.nsm SmChannel.reset
    opa := 0#64
    opb := 0#64
    res := 0#64
    status := Status.clear
    ie := false
    dmem := []
    draws := 0
    pending := []
    hostReads := []
    faultLog := [] }

/-- The AUC with the default parameters of 00_scope.md R7 right after reset (10_state.md R43). -/
def State.reset : State := State.resetWith Params.standard

end Sys2Proof.Machine
end

