-- ==== Sys2Proof/Machine/Flags.lean ====
section
/-! DEFINITION. The AUC's only flag, STATUS.ERR, with the record beside it, and the interrupt output
(10_state.md R35, R40, R42). No command sets a flag by its arithmetic (R40). -/

namespace Sys2Proof.Machine

/-- The code of a cause (60_exceptions.md R230). -/
def Cause.code : Cause → BitVec 4
  | .none => 0#4
  | .illegalOp => 1#4
  | .reservedField => 2#4
  | .dmemRange => 3#4
  | .operand => 4#4
  | .delayRange => 5#4
  | .capacity => 6#4
  | .bus => 7#4

/-- The 64 bits a read of STATUS gives: FOP in 15:8, CAUSE in 7:4, ERR in 0, the rest 0 (10_state.md
R35). -/
def Status.toWord (st : Status) : Word :=
  (st.fop.setWidth 64 <<< 8) ||| (st.cause.code.setWidth 64 <<< 4) ||| (BitVec.ofBool st.err).setWidth 64

/-- The fault record after a fault: the first fault since ERR was clear is kept (60_exceptions.md R231). -/
def Status.record (c : Cause) (fop : BitVec 8) (st : Status) : Status :=
  if st.err then st else { err := true, cause := c, fop := fop }

/-- STATUS after a host write of `v`: bit 0 set clears ERR, CAUSE and FOP, bit 0 clear changes nothing,
and the other bits are ignored (60_exceptions.md R232, 10_state.md R35). -/
def Status.hostWrite (v : Word) (st : Status) : Status := if v.getLsbD 0 then Status.clear else st

/-- The 64 bits a read of CTRL gives (10_state.md R36). -/
def ctrlWord (ie : Bool) : Word := (BitVec.ofBool ie).setWidth 64

/-- The level output `irq`: STATUS.ERR AND CTRL.IE (10_state.md R42, 60_exceptions.md R236). -/
def State.irq (s : State) : Bool := s.status.err && s.ie

end Sys2Proof.Machine
end

