-- ==== Sys2Proof/Machine/Ops.lean ====
section
/-! DEFINITION. The operations the meanings share: word memories, DMEM access, the delay lines' index
arithmetic, the block loop, and raising and clearing a fault. -/

namespace Sys2Proof.Machine

/-- What a command answers. -/
abbrev Result := Host.Outcome State Fault Refusal

/-! ## Word memories: lists of cells, indices strictly rising -/

/-- The indices of a memory's cells rise strictly, so that equal memories are equal lists. -/
abbrev Rising (m : List WordCell) : Prop := m.Pairwise fun x y => x.1 < y.1

/-- The contents of a listed word. -/
def cellGet : List WordCell → Nat → Option Word
  | [], _ => none
  | (j, v) :: m, i => if j = i then some v else cellGet m i

/-- List a word, replacing what was listed at its index. -/
def cellPut : List WordCell → Nat → Word → List WordCell
  | [], i, v => [(i, v)]
  | (j, w) :: m, i, v =>
    if i < j then (i, v) :: (j, w) :: m
    else if i = j then (i, v) :: m
    else (j, w) :: cellPut m i v

/-- List a word no more. -/
def cellDel : List WordCell → Nat → List WordCell
  | [], _ => []
  | (j, w) :: m, i => if j = i then m else (j, w) :: cellDel m i

/-- DMEM in its canonical form: indices rise and lie below DMEM_WORDS (20_memory.md R60). A word not
listed has no value (R72), so no listed value is redundant. -/
abbrev Memory.wf (words : Nat) (m : List WordCell) : Prop := Rising m ∧ ∀ c ∈ m, c.1 < words

/-- A delay line's storage in its canonical form: indices rise and lie below the capacity, and no
listed word is +0.0, which is what a word not listed holds (10_state.md R22). -/
abbrev Store.wf (cap : Nat) (m : List WordCell) : Prop :=
  Rising m ∧ ∀ c ∈ m, c.1 < cap ∧ c.2 ≠ Config.zero

/-- `S[i]` of a delay line (00_scope.md R13): a word not listed holds +0.0. -/
def storeRead (m : List WordCell) (i : Nat) : Word := (cellGet m i).getD Config.zero

/-- `S[i] <- v` of a delay line (00_scope.md R13); +0.0 is written by listing the word no more. -/
def storeWrite (m : List WordCell) (i : Nat) (v : Word) : List WordCell :=
  if v = Config.zero then cellDel m i else cellPut m i v

/-! ## DMEM -/

/-- `MemRead(a)` (00_scope.md R13, 20_memory.md R60): the last value written, or, when no write has
reached the word since reset, the next free value, drawn anew by each read (R72). -/
def State.memRead (s : State) (a : Nat) : Word × State :=
  match cellGet s.dmem a with
  | some v => (v, s)
  | none => (Config.dmemDraw s.draws, { s with draws := s.draws + 1 })

/-- `MemWrite(a, v)` (00_scope.md R13, 20_memory.md R60). -/
def State.memWrite (s : State) (a : Nat) (v : Word) : State := { s with dmem := cellPut s.dmem a v }

/-! ## The fault rule -/

/-- `raise Fault(c)` by the command with OP field `op`, or a BUS fault (60_exceptions.md R231): record it
in STATUS and change nothing else. The model also keeps it in the run's own record (00_scope.md R15).
This is the AUC's only exception entry: there is no trap (R237). -/
def State.raise (c : Cause) (op : BitVec 8) (s : State) : State :=
  let fop := if c = .bus then 0#8 else op
  { s with status := s.status.record c fop, faultLog := { cause := c, fop := fop } :: s.faultLog }

/-- The host's write of `v` to STATUS, the counterpart of a return from the fault (60_exceptions.md
R232, R238). -/
def State.writeStatus (v : Word) (s : State) : State := { s with status := s.status.hostWrite v }

/-- A check of a command (60_exceptions.md R233): go on to `t` when it passes, else raise `c`. -/
def State.check (s : State) (ok : Bool) (c : Cause) (op : BitVec 8) (t : State) : State :=
  if ok then t else s.raise c op

/-- The cause a rejected command word raises (30_encoding.md R87). -/
def rejectCause : Reject → Cause
  | .illegalOp => .illegalOp
  | .reservedField => .reservedField

/-! ## Index arithmetic -/

/-- `NP2(n)`, the least power of two at or above `n` (00_scope.md R10). -/
def np2 (n : Nat) : Nat := if n ≤ 1 then 1 else 2 ^ (Nat.log2 (n - 1) + 1)

/-- `adv(c) = (c + 1) & (cap - 1)` (40_cbuf.md R102). -/
def adv (cap c : Nat) : Nat := (c + 1) &&& (cap - 1)

/-- `didx(wc, off, cap)`, the delay-relative index with its single wraparound correction (00_scope.md
R14). -/
def didx (wc off cap : Nat) : Nat :=
  let t : Int := (wc : Int) - (off : Int)
  (if t < 0 then t + (cap : Int) else t).toNat

/-! ## Blocks -/

/-- The loop of a block command: the elements `i, i + 1, …` one at a time in ascending order, each
finished before the next starts (20_memory.md R62). -/
def blockLoop {σ : Type} (body : Nat → σ → σ) : Nat → Nat → σ → σ
  | 0, _, x => x
  | n + 1, i, x => blockLoop body n (i + 1) (body i x)

/-! ## Smoother channels -/

/-- Run `f` on the channel CH selects. A channel the instance does not have raises RESERVED_FIELD
(30_encoding.md R82); the decoder has already refused such a word (R88), so no step comes here with
one (log entry 14). -/
def State.withChannel (s : State) (c : BitVec 4) (op : BitVec 8) (f : SmChannel → State) : State :=
  match s.sm[c.toNat]? with
  | none => s.raise .reservedField op
  | some ch => f ch

/-- Replace the state of one channel. -/
def State.setChannel (s : State) (c : BitVec 4) (ch : SmChannel) : State :=
  { s with sm := s.sm.set c.toNat ch }

end Sys2Proof.Machine
end

