-- ==== Sys2Proof/Machine/Operands.lean ====
section
/-! DEFINITION. How a command reads its operands (30_encoding.md R83 to R86) and the checks several
commands share: the block check, the two delay checks and the comb's delay limit. -/

namespace Sys2Proof.Machine

/-- OPA of class `f64`: the 64 bits as they stand (30_encoding.md R84). -/
def State.opaF64 (s : State) : F64 := s.opa

/-- OPA of class `int`: `int64(OPA)`, two's complement (30_encoding.md R84, 00_scope.md R9). -/
def State.opaInt (s : State) : Int := s.opa.toInt

/-- OPB as the DMEM word address of a block, unsigned (30_encoding.md R85). -/
def State.blockBase (s : State) : Nat := s.opb.toNat

/-- The block check: `OPB + LEN <= DMEM_WORDS`, computed without wrap-around (20_memory.md R61). -/
def State.blockFits (s : State) (n : BitVec 20) : Bool :=
  decide (s.blockBase + n.toNat ≤ s.params.dmemWords)

/-- The integer delay check: `0 <= dl < cap` (40_cbuf.md R101). -/
def delayInRange (dl : Int) (cap : Nat) : Bool := decide (0 ≤ dl) && decide (dl < (cap : Int))

/-- The fractional delay check: `0 <= d < cap` (41_interp.md R143). -/
def fracDelayInRange (d : F64) (cap : Nat) : Bool := fle Config.zero d && flt d (f64OfNat cap)

/-- The comb's delay limit: `d <= MAXCAP - 1`, which a NaN and +infinity fail (42_comb.md R162). -/
def delayStorable (p : Params) (d : F64) : Bool := fle d (f64OfNat (p.maxCap - 1))

/-- A sample rate must be finite and above zero (42_comb.md R168, 43_smooth.md R203). -/
def rateValid (fs : F64) : Bool := isFinite fs && flt Config.zero fs

end Sys2Proof.Machine
end

