-- ==== Sys2Proof/Machine/CircularBuffer.lean ====
section
/-! DEFINITION. The circular buffer commands (40_cbuf.md R100 to R114), but for the interpolating read
(Machine/Interp.lean). -/

namespace Sys2Proof.Machine

/-- A resize to the requested size `n`: the capacity is NP2(n), every word is +0.0 and both cursors are 0
(40_cbuf.md R103). -/
def CbUnit.resize (n : Nat) : CbUnit := { cap := np2 n, wc := 0, rc := 0, store := [] }

/-- One push: advance the write cursor, then store at it (40_cbuf.md R102, R104). -/
def CbUnit.push (u : CbUnit) (v : Word) : CbUnit :=
  let wc := adv u.cap u.wc
  { u with wc := wc, store := storeWrite u.store wc v }

/-- One pull: advance the read cursor (40_cbuf.md R102, R106). -/
def CbUnit.advanceRead (u : CbUnit) : CbUnit := { u with rc := adv u.cap u.rc }

/-- The sample at the read cursor (40_cbuf.md R106). -/
def CbUnit.atRead (u : CbUnit) : Word := storeRead u.store u.rc

/-- The sample at integer delay `dl` (40_cbuf.md R109). -/
def CbUnit.atDelay (u : CbUnit) (dl : Nat) : Word := storeRead u.store (didx u.wc dl u.cap)

/-- CB.RESIZE (40_cbuf.md R103). -/
def execCbResize (s : State) : Result :=
  let op := Instr.cbResize.op
  let n := s.opaInt
  .next <|
    s.check (decide (0 ≤ n)) .operand op <|
    s.check (decide (n ≤ (s.params.maxCap : Int))) .capacity op <|
    { s with cb := CbUnit.resize n.toNat }

/-- CB.PUSH (40_cbuf.md R104). -/
def execCbPush (s : State) : Result := .next { s with cb := s.cb.push s.opaF64 }

/-- One element of CB.PUSHBLK (40_cbuf.md R105). -/
def pushElem (a i : Nat) (s : State) : State :=
  let r := s.memRead (a + i)
  { r.2 with cb := r.2.cb.push r.1 }

/-- CB.PUSHBLK (40_cbuf.md R105). -/
def execCbPushBlk (n : BitVec 20) (s : State) : Result :=
  .next <|
    s.check (s.blockFits n) .dmemRange (Instr.cbPushBlk n).op <|
    blockLoop (pushElem s.blockBase) n.toNat 0 s

/-- CB.PULL (40_cbuf.md R106). -/
def execCbPull (s : State) : Result :=
  let u := s.cb.advanceRead
  .next { s with cb := u, res := u.atRead }

/-- One element of CB.PULLBLK (40_cbuf.md R107). -/
def pullElem (a i : Nat) (s : State) : State :=
  let u := s.cb.advanceRead
  State.memWrite { s with cb := u } (a + i) u.atRead

/-- CB.PULLBLK (40_cbuf.md R107). -/
def execCbPullBlk (n : BitVec 20) (s : State) : Result :=
  .next <|
    s.check (s.blockFits n) .dmemRange (Instr.cbPullBlk n).op <|
    blockLoop (pullElem s.blockBase) n.toNat 0 s

/-- One element of CB.PULLBLKADD (40_cbuf.md R108). -/
def pullAddElem (a i : Nat) (s : State) : State :=
  let u := s.cb.advanceRead
  let r := State.memRead { s with cb := u } (a + i)
  r.2.memWrite (a + i) (fadd r.1 u.atRead)

/-- CB.PULLBLKADD (40_cbuf.md R108). -/
def execCbPullBlkAdd (n : BitVec 20) (s : State) : Result :=
  .next <|
    s.check (s.blockFits n) .dmemRange (Instr.cbPullBlkAdd n).op <|
    blockLoop (pullAddElem s.blockBase) n.toNat 0 s

/-- CB.PULLDLY (40_cbuf.md R109). -/
def execCbPullDly (s : State) : Result :=
  .next <|
    s.check (delayInRange s.opaInt s.cb.cap) .delayRange Instr.cbPullDly.op <|
    { s with res := s.cb.atDelay s.opaInt.toNat }

/-- One element of CB.PULLDLYBLK, with the temporary pointer (40_cbuf.md R110). -/
def pullDelayElem (a cap i : Nat) (x : State × Nat) : State × Nat :=
  (x.1.memWrite (a + i) (storeRead x.1.cb.store x.2), adv cap x.2)

/-- CB.PULLDLYBLK (40_cbuf.md R110). -/
def execCbPullDlyBlk (n : BitVec 20) (s : State) : Result :=
  let op := (Instr.cbPullDlyBlk n).op
  let start := didx s.cb.wc s.opaInt.toNat s.cb.cap
  .next <|
    s.check (s.blockFits n) .dmemRange op <|
    s.check (delayInRange s.opaInt s.cb.cap) .delayRange op <|
    (blockLoop (pullDelayElem s.blockBase s.cb.cap) n.toNat 0 (s, start)).1

/-- One element of the modulation: multiply the storage word at the pointer by the next control word
(40_cbuf.md R111). -/
def modulateElem (a cap i : Nat) (x : State × Nat) : State × Nat :=
  let r := x.1.memRead (a + i)
  let v := fmul (storeRead r.2.cb.store x.2) r.1
  ({ r.2 with cb := { r.2.cb with store := storeWrite r.2.cb.store x.2 v } }, adv cap x.2)

/-- The modulation of `n` samples from the delay position on (40_cbuf.md R111), with its checks; `op` is
the command's OP. -/
def modulate (op : BitVec 8) (n : BitVec 20) (s : State) : State :=
  let start := didx s.cb.wc s.opaInt.toNat s.cb.cap
  s.check (s.blockFits n) .dmemRange op <|
  s.check (delayInRange s.opaInt s.cb.cap) .delayRange op <|
  (blockLoop (modulateElem s.blockBase s.cb.cap) n.toNat 0 (s, start)).1

/-- CB.MODDLYBLK (40_cbuf.md R111). -/
def execCbModDlyBlk (n : BitVec 20) (s : State) : Result :=
  .next (modulate (Instr.cbModDlyBlk n).op n s)

/-- CB.MODDLYBLKD, which behaves as CB.MODDLYBLK (40_cbuf.md R112). -/
def execCbModDlyBlkD (n : BitVec 20) (s : State) : Result :=
  .next (modulate (Instr.cbModDlyBlkD n).op n s)

/-- `(CB_WC - CB_RC) mod cap` (40_cbuf.md R113). -/
def CbUnit.distance (u : CbUnit) : Nat := (((u.wc : Int) - (u.rc : Int)) % (u.cap : Int)).toNat

/-- CB.WRDIST; the integer is zero-extended into RES (40_cbuf.md R113, 30_encoding.md R86). -/
def execCbWrDist (s : State) : Result := .next { s with res := BitVec.ofNat 64 s.cb.distance }

/-- CB.RSTRD (40_cbuf.md R114). -/
def execCbRstRd (s : State) : Result := .next { s with cb := { s.cb with rc := s.cb.wc } }

end Sys2Proof.Machine
end

