-- ==== Sys2Proof/Machine/Interp.lean ====
section
/-! DEFINITION. The fractional-delay interpolation unit (41_interp.md R140 to R146): the helper the comb's
tap shares, and its one command CB.PULLDLYBLKI. -/

namespace Sys2Proof.Machine

/-- The integer part of `split(d)` (41_interp.md R140). -/
def splitLo (d : F64) : Nat := (ffloor d).toNat

/-- The fraction `d - floor(d)` of `split(d)`, which is always a binary64 (41_interp.md R140). -/
def splitFrac (d : F64) : F64 :=
  packBits false (roundMag (units d - ffloor d * (unitsPerOne : Int)).toNat 1)

/-- `blend(lower, higher, frac)`: four operations each rounded once, and the bits of `lower` when `frac` is
zero (41_interp.md R141). Where R141's remark on `frac` below 2^-53 and the rounding of R11 disagree, the
pseudocode and R11 are followed (log entry 22). -/
def blend (lower higher frac : F64) : F64 :=
  if feq frac Config.zero then lower
  else fadd (fmul lower (fsub Config.one frac)) (fmul higher frac)

/-- `tap(S, wc, cap, d)`, the interpolated read of one sample (41_interp.md R142). -/
def tap (store : List WordCell) (wc cap : Nat) (d : F64) : F64 :=
  let lower := storeRead store (didx wc (splitLo d) cap)
  if feq (splitFrac d) Config.zero then lower
  else blend lower (storeRead store (didx wc (splitLo d + 1) cap)) (splitFrac d)

/-- What a block read carries from element to element beside the state: the two stream pointers. -/
structure Streams where
  lower : Nat
  higher : Nat
  deriving DecidableEq, Repr

/-- One element of the interpolating block read (41_interp.md R145). -/
def interpElem (a cap : Nat) (frac : F64) (i : Nat) (x : State × Streams) : State × Streams :=
  let s := x.1
  let p := x.2
  let lower := storeRead s.cb.store p.lower
  let out :=
    if feq frac Config.zero then lower else blend lower (storeRead s.cb.store p.higher) frac
  (s.memWrite (a + i) out, { lower := adv cap p.lower, higher := adv cap p.higher })

/-- The interpolating block read of `n` samples at the fractional delay `d` (41_interp.md R145). -/
def interpBlock (s : State) (d : F64) (n : Nat) : State :=
  let cap := s.cb.cap
  let start : Streams :=
    { lower := didx s.cb.wc (splitLo d) cap, higher := didx s.cb.wc (splitLo d + 1) cap }
  (blockLoop (interpElem s.blockBase cap (splitFrac d)) n 0 (s, start)).1

/-- CB.PULLDLYBLKI (41_interp.md R145). -/
def execCbPullDlyBlkI (n : BitVec 20) (s : State) : Result :=
  let op := (Instr.cbPullDlyBlkI n).op
  .next <|
    s.check (s.blockFits n) .dmemRange op <|
    s.check (fracDelayInRange s.opaF64 s.cb.cap) .delayRange op <|
    interpBlock s s.opaF64 n.toNat

end Sys2Proof.Machine
end

