-- ==== Sys2Proof/Machine/CombFilter.lean ====
section
/-! DEFINITION. The comb filter commands (42_comb.md R160 to R171). -/

namespace Sys2Proof.Machine

/-- `grow(d)`, the capacity check: a delay line too short for `d` is resized to NP2(ceil(d) + 1), cleared,
with both cursors 0; one long enough is left alone (42_comb.md R161). -/
def CfUnit.grow (u : CfUnit) (d : F64) : CfUnit :=
  let need := (fceil d).toNat + 1
  if u.cap < need then { u with cap := np2 need, store := [], wc := 0, rc := 0 } else u

/-- The delay line with the input stored at the advanced write cursor (42_comb.md R163). -/
def CfUnit.feed (u : CfUnit) (x : F64) : CfUnit :=
  let wc := adv u.cap u.wc
  { u with wc := wc, store := storeWrite u.store wc x }

/-- The output `y = x + k * tap` for the input `x`, from the line that already holds `x` (42_comb.md
R163). Where R164's remark on an input of -0.0 and this formula disagree, the formula is followed (log entry
23). -/
def CfUnit.output (u : CfUnit) (x : F64) : F64 := fadd x (fmul u.k (tap u.store u.wc u.cap u.delay))

/-- `cf_step(x)`: store the input, read the tap, compute the output, and in feedback mode overwrite the
stored input with the output (42_comb.md R160, R163). -/
def CfUnit.step (u : CfUnit) (x : F64) : F64 × CfUnit :=
  let v := u.feed x
  let y := v.output x
  (y, if v.fb then { v with store := storeWrite v.store v.wc y } else v)

/-- `clampK(x)` for an `x` that is not NaN (42_comb.md R171). -/
def clampK (x : F64) : F64 :=
  if flt x Config.zero then Config.zero
  else if flt Config.kMax x then Config.kMax
  else x

/-- CF.PROC (42_comb.md R164). -/
def execCfProc (s : State) : Result :=
  let r := s.cf.step s.opaF64
  .next { s with cf := r.2, res := r.1 }

/-- One element of CF.PROCBLK (42_comb.md R165). -/
def procElem (a i : Nat) (s : State) : State :=
  let m := s.memRead (a + i)
  let r := m.2.cf.step m.1
  State.memWrite { m.2 with cf := r.2 } (a + i) r.1

/-- CF.PROCBLK (42_comb.md R165). -/
def execCfProcBlk (n : BitVec 20) (s : State) : Result :=
  .next <|
    s.check (s.blockFits n) .dmemRange (Instr.cfProcBlk n).op <|
    blockLoop (procElem s.blockBase) n.toNat 0 s

/-- CF.SETFREQ (42_comb.md R166). -/
def execCfSetFreq (s : State) : Result :=
  let op := Instr.cfSetFreq.op
  let f := s.opaF64
  let d := fdiv s.cf.fs f
  .next <|
    s.check (flt Config.zero f) .operand op <|
    s.check (delayStorable s.params d) .capacity op <|
    { s with cf := CfUnit.grow { s.cf with freq := f, delay := d } d }

/-- CF.SETDLY (42_comb.md R167). -/
def execCfSetDly (s : State) : Result :=
  let op := Instr.cfSetDly.op
  let d := if feq s.opaF64 Config.zero then Config.zero else s.opaF64
  .next <|
    s.check (fle Config.zero s.opaF64 && isFinite s.opaF64) .operand op <|
    s.check (delayStorable s.params d) .capacity op <|
    { s with cf := CfUnit.grow { s.cf with delay := d, freq := fdiv s.cf.fs d } d }

/-- CF.SETFBK (42_comb.md R169). -/
def execCfSetFbk (s : State) : Result :=
  .next <|
    s.check (!isNaN s.opaF64) .operand Instr.cfSetFbk.op <|
    { s with cf := { s.cf with k := clampK s.opaF64 } }

/-- CF.INITFS (42_comb.md R168). -/
def execCfInitFs (s : State) : Result :=
  let op := Instr.cfInitFs.op
  let fs := s.opaF64
  let d := fdiv fs s.cf.freq
  .next <|
    s.check (rateValid fs) .operand op <|
    s.check (delayStorable s.params d) .capacity op <|
    { s with cf := CfUnit.grow { s.cf with fs := fs, delay := d } d }

/-- CF.SETTOPO (42_comb.md R170). -/
def execCfSetTopo (s : State) : Result :=
  let b := s.opaInt
  .next <|
    s.check (decide (b = 0) || decide (b = 1)) .operand Instr.cfSetTopo.op <|
    { s with cf := { s.cf with fb := decide (b = 1) } }

end Sys2Proof.Machine
end

