-- ==== Sys2Proof/Machine/Smoother.lean ====
section
/-! DEFINITION. The parameter smoother commands (43_smooth.md R200 to R208). -/

namespace Sys2Proof.Machine

/-- `sm_step()`, one advance of a channel; the value it returns is the new SM_CUR (43_smooth.md R202). Where R202's
remark that a zero increment leaves SM_CUR unchanged and its pseudocode disagree on the sign of a zero, the
pseudocode is followed (log entry 24). -/
def SmChannel.step (ch : SmChannel) : SmChannel :=
  if ch.rem = 0#32 then ch
  else if ch.rem = 1#32 then { ch with cur := ch.tgt, rem := 0#32 }
  else
    let t := fadd ch.cur ch.inc
    let t := if flt Config.zero ch.inc && flt ch.tgt t then ch.tgt else t
    let t := if flt ch.inc Config.zero && flt t ch.tgt then ch.tgt else t
    { ch with cur := t, rem := ch.rem - 1#32 }

/-- Start a ramp of `n` steps from SM_CUR to `v`: the increment covers the gap in `n` steps, and the count
restarts (43_smooth.md R204, R205). -/
def SmChannel.startRamp (ch : SmChannel) (v : F64) (n : BitVec 32) : SmChannel :=
  { ch with tgt := v, steps := n, inc := fdiv (fsub v ch.cur) (f64OfNat n.toNat), rem := n }

/-- `fdiv(fmul(ms, SM_FS), 1000.0)`, the step count before rounding (43_smooth.md R204). -/
def SmChannel.rawSteps (ch : SmChannel) (ms : F64) : F64 := fdiv (fmul ms ch.fs) Config.thousand

/-- A smoothing time is refused when it, or the step count it gives, is not finite, or when the rounded
count is above 2^32 - 1 (43_smooth.md R204). -/
def SmChannel.timeValid (ch : SmChannel) (ms : F64) : Bool :=
  isFinite ms && isFinite (ch.rawSteps ms) && decide (rnd (ch.rawSteps ms) ≤ 2 ^ 32 - 1)

/-- `max(1, rnd(t))` (43_smooth.md R204). -/
def SmChannel.stepCount (ch : SmChannel) (ms : F64) : BitVec 32 :=
  BitVec.ofNat 32 (max 1 (rnd (ch.rawSteps ms))).toNat

/-- SM.INIT (43_smooth.md R203). -/
def execSmInit (c : BitVec 4) (s : State) : Result :=
  let op := (Instr.smInit c).op
  .next <|
    s.withChannel c op fun ch =>
      s.check (rateValid s.opaF64) .operand op <|
      s.setChannel c { ch with fs := s.opaF64 }

/-- SM.SETTIME (43_smooth.md R204). -/
def execSmSetTime (c : BitVec 4) (s : State) : Result :=
  let op := (Instr.smSetTime c).op
  .next <|
    s.withChannel c op fun ch =>
      s.check (ch.timeValid s.opaF64) .operand op <|
      s.setChannel c (ch.startRamp ch.tgt (ch.stepCount s.opaF64))

/-- SM.SETTGT (43_smooth.md R205). -/
def execSmSetTgt (c : BitVec 4) (s : State) : Result :=
  let op := (Instr.smSetTgt c).op
  .next <|
    s.withChannel c op fun ch =>
      s.check (isFinite s.opaF64) .operand op <|
      s.setChannel c (ch.startRamp s.opaF64 ch.steps)

/-- SM.NEXT (43_smooth.md R206). -/
def execSmNext (c : BitVec 4) (s : State) : Result :=
  .next <|
    s.withChannel c (Instr.smNext c).op fun ch =>
      { s.setChannel c ch.step with res := ch.step.cur }

/-- SM.CUR (43_smooth.md R207). -/
def execSmCur (c : BitVec 4) (s : State) : Result :=
  .next <| s.withChannel c (Instr.smCur c).op fun ch => { s with res := ch.cur }

/-- One element of SM.NEXTBLK, carrying the channel (43_smooth.md R208). -/
def smoothElem (a i : Nat) (x : State × SmChannel) : State × SmChannel :=
  (x.1.memWrite (a + i) x.2.step.cur, x.2.step)

/-- SM.NEXTBLK (43_smooth.md R208). -/
def execSmNextBlk (c : BitVec 4) (n : BitVec 20) (s : State) : Result :=
  let op := (Instr.smNextBlk c n).op
  .next <|
    s.withChannel c op fun ch =>
      s.check (s.blockFits n) .dmemRange op <|
      let r := blockLoop (smoothElem s.blockBase) n.toNat 0 (s, ch)
      r.1.setChannel c r.2

end Sys2Proof.Machine
end

