-- ==== Sys2Proof/Machine/Dispatch.lean ====
section
/-! DEFINITION. The dispatch: one arm per command, each one call of its meaning. -/

namespace Sys2Proof.Machine

def exec (i : Instr) (s : State) : Host.Outcome State Fault Refusal :=
  match i with
  | .cbResize => Sys2Proof.Machine.execCbResize s
  | .cbPush => Sys2Proof.Machine.execCbPush s
  | .cbPushBlk n => Sys2Proof.Machine.execCbPushBlk n s
  | .cbPull => Sys2Proof.Machine.execCbPull s
  | .cbPullBlk n => Sys2Proof.Machine.execCbPullBlk n s
  | .cbPullBlkAdd n => Sys2Proof.Machine.execCbPullBlkAdd n s
  | .cbPullDly => Sys2Proof.Machine.execCbPullDly s
  | .cbPullDlyBlk n => Sys2Proof.Machine.execCbPullDlyBlk n s
  | .cbPullDlyBlkI n => Sys2Proof.Machine.execCbPullDlyBlkI n s
  | .cbModDlyBlk n => Sys2Proof.Machine.execCbModDlyBlk n s
  | .cbModDlyBlkD n => Sys2Proof.Machine.execCbModDlyBlkD n s
  | .cbWrDist => Sys2Proof.Machine.execCbWrDist s
  | .cbRstRd => Sys2Proof.Machine.execCbRstRd s
  | .cfProc => Sys2Proof.Machine.execCfProc s
  | .cfProcBlk n => Sys2Proof.Machine.execCfProcBlk n s
  | .cfSetFreq => Sys2Proof.Machine.execCfSetFreq s
  | .cfSetDly => Sys2Proof.Machine.execCfSetDly s
  | .cfSetFbk => Sys2Proof.Machine.execCfSetFbk s
  | .cfInitFs => Sys2Proof.Machine.execCfInitFs s
  | .cfSetTopo => Sys2Proof.Machine.execCfSetTopo s
  | .smInit c => Sys2Proof.Machine.execSmInit c s
  | .smSetTime c => Sys2Proof.Machine.execSmSetTime c s
  | .smSetTgt c => Sys2Proof.Machine.execSmSetTgt c s
  | .smNext c => Sys2Proof.Machine.execSmNext c s
  | .smCur c => Sys2Proof.Machine.execSmCur c s
  | .smNextBlk c n => Sys2Proof.Machine.execSmNextBlk c n s

end Sys2Proof.Machine
end

