-- ==== Sys2Proof/Machine/HostPort.lean ====
section
/-! DEFINITION. The host window: the register map (10_state.md R29 to R38, R44), host reads and writes, BUS
faults (60_exceptions.md R235), and the reset input (70_reset_and_hazards.md R260). A write to CMD runs
a command and is in Machine/Command.lean. -/

namespace Sys2Proof.Machine

/-- The six mirrored fields of a smoother channel (10_state.md R38). -/
inductive SmField where
  | fs | cur | tgt | steps | inc | rem
  deriving DecidableEq, Repr

/-- What the host window holds at a mapped offset (10_state.md R29, R37, R38, R44). -/
inductive HostReg where
  | config | cmd | opa | opb | res | status | ctrl
  | cbCap | cbWc | cbRc
  | cfCap | cfWc | cfRc | cfFs | cfDelay | cfFreq | cfK | cfFb
  | sm (c : Nat) (f : SmField)
  | dmem (i : Nat)
  deriving DecidableEq, Repr

/-- The place of a field within its channel's mirrors (10_state.md R38). -/
def SmField.offset : SmField → Nat
  | .fs => 0x00
  | .cur => 0x08
  | .tgt => 0x10
  | .steps => 0x18
  | .inc => 0x20
  | .rem => 0x28

/-- The byte offset of a register or DMEM word in the host window (10_state.md R29, R37, R38, R44). -/
def HostReg.offset : HostReg → Nat
  | .config => 0x000
  | .cmd => 0x008
  | .opa => 0x010
  | .opb => 0x018
  | .res => 0x020
  | .status => 0x028
  | .ctrl => 0x030
  | .cbCap => 0x040
  | .cbWc => 0x048
  | .cbRc => 0x050
  | .cfCap => 0x060
  | .cfWc => 0x068
  | .cfRc => 0x070
  | .cfFs => 0x078
  | .cfDelay => 0x080
  | .cfFreq => 0x088
  | .cfK => 0x090
  | .cfFb => 0x098
  | .sm c f => 0x100 + 0x40 * c + f.offset
  | .dmem i => 0x10000 + 8 * i

/-- Whether an instance with the parameters `p` has the register or word (10_state.md R38, R44). -/
def HostReg.present (p : Params) : HostReg → Bool
  | .sm c _ => decide (c < p.nsm)
  | .dmem i => decide (i < p.dmemWords)
  | .config | .cmd | .opa | .opb | .res | .status | .ctrl => true
  | .cbCap | .cbWc | .cbRc => true
  | .cfCap | .cfWc | .cfRc | .cfFs | .cfDelay | .cfFreq | .cfK | .cfFb => true

/-- The registers at fixed offsets (10_state.md R29, R37). -/
def fixedRegs : List HostReg :=
  [.config, .cmd, .opa, .opb, .res, .status, .ctrl, .cbCap, .cbWc, .cbRc,
   .cfCap, .cfWc, .cfRc, .cfFs, .cfDelay, .cfFreq, .cfK, .cfFb]

/-- The fields of a channel's mirrors (10_state.md R38). -/
def smFields : List SmField := [.fs, .cur, .tgt, .steps, .inc, .rem]

/-- The smoother mirror at an offset at or above 0x100 (10_state.md R38). -/
def smRegAt (off : Nat) : Option HostReg :=
  (smFields.find? fun f => f.offset == (off - 0x100) % 0x40).map (HostReg.sm ((off - 0x100) / 0x40))

/-- What is mapped at a byte offset; every other offset is unmapped (10_state.md R44). -/
def regAt (p : Params) (off : Nat) : Option HostReg :=
  let r :=
    if off < 0x100 then fixedRegs.find? fun r => r.offset == off
    else if off < 0x10000 then smRegAt off
    else if off % 8 = 0 then some (HostReg.dmem ((off - 0x10000) / 8))
    else none
  r.filter (HostReg.present p)

/-- What a host access reaches: nothing when it is not 64 bits wide, its offset is not a multiple of 8 or
its offset is unmapped (20_memory.md R64, 60_exceptions.md R235). -/
def accessTarget (p : Params) (a : Access) : Option HostReg :=
  if a.width = 64 ∧ a.offset.toNat % 8 = 0 then regAt p a.offset.toNat else none

/-- CONFIG: log2(MAXCAP) in 7:0, DMEM_WORDS in 39:8, NSM in 47:40, 0 in 55:48, the revision in 63:56
(10_state.md R30). -/
def configWord (p : Params) : Word :=
  Config.revision ++ (0#8 ++ (BitVec.ofNat 8 p.nsm ++ (BitVec.ofNat 32 p.dmemWords ++ BitVec.ofNat 8 p.maxCapLog2)))

/-- A mirrored field of a channel (10_state.md R38). -/
def SmChannel.mirror (ch : SmChannel) : SmField → Word
  | .fs => ch.fs
  | .cur => ch.cur
  | .tgt => ch.tgt
  | .steps => ch.steps.setWidth 64
  | .inc => ch.inc
  | .rem => ch.rem.setWidth 64

/-- The value a read gives, and the state after it, which differs only by the free value drawn for an
unwritten DMEM word (20_memory.md R65, R72). CMD reads 0 (10_state.md R31). -/
def State.readReg (s : State) : HostReg → Word × State
  | .config => (configWord s.params, s)
  | .cmd => (0#64, s)
  | .opa => (s.opa, s)
  | .opb => (s.opb, s)
  | .res => (s.res, s)
  | .status => (s.status.toWord, s)
  | .ctrl => (ctrlWord s.ie, s)
  | .cbCap => (BitVec.ofNat 64 s.cb.cap, s)
  | .cbWc => (BitVec.ofNat 64 s.cb.wc, s)
  | .cbRc => (BitVec.ofNat 64 s.cb.rc, s)
  | .cfCap => (BitVec.ofNat 64 s.cf.cap, s)
  | .cfWc => (BitVec.ofNat 64 s.cf.wc, s)
  | .cfRc => (BitVec.ofNat 64 s.cf.rc, s)
  | .cfFs => (s.cf.fs, s)
  | .cfDelay => (s.cf.delay, s)
  | .cfFreq => (s.cf.freq, s)
  | .cfK => (s.cf.k, s)
  | .cfFb => ((BitVec.ofBool s.cf.fb).setWidth 64, s)
  | .sm c f => (((s.sm[c]?).map fun ch => ch.mirror f).getD 0#64, s)
  | .dmem i => s.memRead i

/-- The registers a host write reaches; the others are read-only (10_state.md R29, R37, R38). -/
def HostReg.writable : HostReg → Bool
  | .cmd | .opa | .opb | .status | .ctrl | .dmem _ => true
  | .config | .res | .cbCap | .cbWc | .cbRc => false
  | .cfCap | .cfWc | .cfRc | .cfFs | .cfDelay | .cfFreq | .cfK | .cfFb => false
  | .sm _ _ => false

/-- A host write to a register other than CMD; a read-only one is a BUS fault that changes nothing
(20_memory.md R65, 60_exceptions.md R232, R235). -/
def State.writeReg (s : State) (r : HostReg) (v : Word) : State :=
  match r with
  | .opa => { s with opa := v }
  | .opb => { s with opb := v }
  | .status => s.writeStatus v
  | .ctrl => { s with ie := v.getLsbD 0 }
  | .dmem i => s.memWrite i v
  | .cmd => s
  | .config | .res | .cbCap | .cbWc | .cbRc => s.raise .bus 0#8
  | .cfCap | .cfWc | .cfRc | .cfFs | .cfDelay | .cfFreq | .cfK | .cfFb => s.raise .bus 0#8
  | .sm _ _ => s.raise .bus 0#8

/-- Keep a value the host has read (00_scope.md R15). -/
def State.recordRead (s : State) (v : Word) : State := { s with hostReads := v :: s.hostReads }

/-- A host read: a BUS read returns 0 and records the fault (60_exceptions.md R235). -/
def State.hostRead (s : State) (a : Access) : State :=
  match accessTarget s.params a with
  | none => (s.raise .bus 0#8).recordRead 0#64
  | some r => (s.readReg r).2.recordRead (s.readReg r).1

/-- The reset input: every piece of state takes its value of 10_state.md R43 and DMEM has no written word
(70_reset_and_hazards.md R260); what the model records of the run, and what is still to come, stays. -/
def State.hardReset (s : State) : State :=
  { State.resetWith s.params with
    draws := s.draws, pending := s.pending, hostReads := s.hostReads, faultLog := s.faultLog }

/-- Byte lane `j` of a word on a narrower bus: bits 8j+7:8j (20_memory.md R63). -/
def byteLane (w : Word) (j : Nat) : BitVec 8 := w.extractLsb' (8 * j) 8

/-- The word a bridge presents for eight bytes, the one at the lowest address first (20_memory.md R63). -/
def wordOfLanes : List (BitVec 8) → Word
  | [] => 0#64
  | b :: bs => (wordOfLanes bs <<< 8) ||| b.setWidth 64

end Sys2Proof.Machine
end

