-- ==== Sys2Proof/Machine/Command.lean ====
section
/-! DEFINITION. A host write to CMD decodes and runs one command (10_state.md R31); every host
transaction is one step (20_memory.md R66). -/

namespace Sys2Proof.Machine

/-- A host write of `w` to CMD: the command it selects runs whole, or the word raises the one fault of its
decoding, with its OP field as FOP (10_state.md R31, 60_exceptions.md R231, R233). -/
def runCommand (w : Word) (s : State) : Result :=
  match decode s.params.nsm w with
  | .error e => .next (s.raise (rejectCause e) (fieldOp w))
  | .ok i => exec i s

/-- A host write: CMD runs a command, any other writable register or word takes the value, and the rest
are BUS faults (10_state.md R31, 20_memory.md R65, 60_exceptions.md R235). -/
def hostWrite (a : Access) (v : Word) (s : State) : Result :=
  match accessTarget s.params a with
  | none => .next (s.raise .bus 0#8)
  | some .cmd => runCommand v s
  | some r => .next (s.writeReg r v)

/-- One host transaction (30_encoding.md R91). -/
def runAccess (a : Access) (s : State) : Result :=
  match a.kind with
  | .read => .next (s.hostRead a)
  | .write v => hostWrite a v s

/-- One thing the outside world does to the AUC. -/
def runEvent (e : HostEvent) (s : State) : Result :=
  match e with
  | .access a => runAccess a s
  | .reset => .next s.hardReset

/-- Take the next pending event and carry it out; with none pending the AUC idles and holds all its state
(60_exceptions.md R246, 70_reset_and_hazards.md R261; log entry 2). -/
def advance (s : State) : Result :=
  match s.pending with
  | [] => .next s
  | e :: rest => runEvent e { s with pending := rest }

/-- The host's 64-bit write of `v` to the register or word `r`. -/
def writeTo (r : HostReg) (v : Word) : HostEvent :=
  .access { width := 64, offset := BitVec.ofNat 64 r.offset, kind := .write v }

/-- The host's 64-bit read of the register or word `r`. -/
def readFrom (r : HostReg) : HostEvent :=
  .access { width := 64, offset := BitVec.ofNat 64 r.offset, kind := .read }

end Sys2Proof.Machine
end

