-- ==== Sys2Proof/Machine/Step.lean ====
section
/-! DEFINITION. The step, and how the host's instruction word comes to be the next command. -/

namespace Sys2Proof.Machine

/-- One step of the AUC: the next host transaction or reset pulse (00_scope.md R18). -/
def step (s : State) : Host.Outcome State Fault Refusal := advance s

/-- The state in which the host's next transaction is the CMD write of the word `w` of `nbits` bits. The AUC
fetches nothing (20_memory.md R70): a command comes only from a host write to CMD (log entry 1). -/
def State.withFetchWord (s : State) (nbits w : Nat) : State :=
  { s with pending := writeTo .cmd (tableWord nbits w) :: s.pending }

end Sys2Proof.Machine
end

