-- ==== Sys2Proof/Machine/Assembler.lean ====
section
/-! DEFINITION. The assembler of 30_encoding.md R91 to R93: a line stands for a list of host transactions.
Lines are syntax trees, not text; a floating literal is the exact decimal it writes, as a fraction. -/

namespace Sys2Proof.Machine

/-- A value of R91. -/
inductive Literal where
  /-- An integer literal: its 64-bit two's complement pattern. -/
  | int (z : Int)
  /-- A floating literal of absolute value `num / den`: the binary64 nearest to it, ties to even. -/
  | float (neg : Bool) (num den : Nat)
  /-- `inf` or `-inf`. -/
  | inf (neg : Bool)
  /-- `f64:0x…`: those bits. -/
  | bits (w : Word)
  deriving DecidableEq, Repr

/-- The word a literal denotes (R91). R91 gives an integer literal outside -2^63 to 2^64 - 1 no value: the model
takes it modulo 2^64 (DESIGN CHOICE, log entry 21). -/
def Literal.value : Literal → Word
  | .int z => BitVec.ofInt 64 z
  | .float neg num den => packBits neg (roundMag (num * unitsPerOne) den)
  | .inf neg => packBits neg infMag
  | .bits w => w

/-- How a command reads OPA (30_encoding.md R84, the OPA column of R89). -/
inductive OpaClass where
  | float | int | unused
  deriving DecidableEq, Repr

/-- The OPA column of R89. -/
def opaClass : Instr → OpaClass
  | .cbResize | .cbPullDly | .cbPullDlyBlk _ | .cbModDlyBlk _ | .cbModDlyBlkD _ | .cfSetTopo => .int
  | .cbPush | .cbPullDlyBlkI _ | .cfProc | .cfSetFreq | .cfSetDly | .cfSetFbk | .cfInitFs => .float
  | .smInit _ | .smSetTime _ | .smSetTgt _ => .float
  | .cbPushBlk _ | .cbPull | .cbPullBlk _ | .cbPullBlkAdd _ | .cbWrDist | .cbRstRd => .unused
  | .cfProcBlk _ | .smNext _ | .smCur _ | .smNextBlk _ _ => .unused

/-- A line of a program (R91 to R93). -/
inductive AsmLine where
  /-- `wr REG, value`. -/
  | wr (r : HostReg) (v : Literal)
  /-- `rd REG`. -/
  | rd (r : HostReg)
  /-- A command mnemonic with its operands: `opa` for OPA, `a` for the block address. -/
  | cmd (i : Instr) (opa a : Literal)
  /-- `CLRERR`. -/
  | clrErr
  /-- `IRQON`. -/
  | irqOn
  /-- `IRQOFF`. -/
  | irqOff
  deriving DecidableEq, Repr

/-- The expansion of a command mnemonic: the operand writes it needs, OPA before OPB, then the one CMD
write (R92). -/
def expandCommand (i : Instr) (opa a : Literal) : List HostEvent :=
  (if opaClass i = .unused then [] else [writeTo .opa opa.value]) ++
  (if i.len?.isSome then [writeTo .opb a.value] else []) ++
  [writeTo .cmd (encode i)]

/-- The transactions a line stands for (R91 to R93). -/
def AsmLine.expand : AsmLine → List HostEvent
  | .wr r v => [writeTo r v.value]
  | .rd r => [readFrom r]
  | .cmd i opa a => expandCommand i opa a
  | .clrErr => [writeTo .status 1#64]
  | .irqOn => [writeTo .ctrl 1#64]
  | .irqOff => [writeTo .ctrl 0#64]

/-- The transactions of a program (R91). -/
def assemble (lines : List AsmLine) : List HostEvent := lines.flatMap AsmLine.expand

/-- A block length that does not fit LEN is refused, not truncated (R92). -/
def lenOperand (n : Nat) : Option (BitVec 20) := if n ≤ 1048575 then some (BitVec.ofNat 20 n) else none

/-- A channel that does not fit CH is refused, not truncated (R92). -/
def chOperand (c : Nat) : Option (BitVec 4) := if c ≤ 15 then some (BitVec.ofNat 4 c) else none

end Sys2Proof.Machine
end

