-- ==== Sys2Proof/Safety.lean ====
section
/-! DEFINITION. What the spec says holds of every reachable state (10_state.md R23 to R28, R35, R62), unit by
unit, and what a clean run is (00_scope.md R15). Claims use these as premises and conclusions. -/

namespace Sys2Proof.Machine

/-- A power of two (10_state.md R23). -/
abbrev IsPow2 (n : Nat) : Prop := n = 2 ^ Nat.log2 n

/-- What R23 and R24 of 10_state.md say of a delay line of capacity `cap`, with its storage in canonical
form. -/
abbrev LineInv (p : Params) (cap wc rc : Nat) (store : List WordCell) : Prop :=
  IsPow2 cap ∧ cap ≤ p.maxCap ∧ wc < cap ∧ rc < cap ∧ Store.wf cap store

/-- The circular buffer's invariant (10_state.md R21, R23, R24). -/
abbrev CbUnit.Inv (p : Params) (u : CbUnit) : Prop := LineInv p u.cap u.wc u.rc u.store

/-- CF_DELAY is at least +0.0, is not -0, is at most MAXCAP - 1, and fits the delay line (10_state.md R25,
R26 a). -/
abbrev CfUnit.DelayInv (p : Params) (u : CfUnit) : Prop :=
  isFinite u.delay = true ∧ signBit u.delay = false ∧ delayStorable p u.delay = true ∧
  (fceil u.delay).toNat + 1 ≤ u.cap

/-- R25's CF_FREQ > 0, with the one exception R167 of 42_comb.md forces: the frequency CF.SETDLY derives is the
quotient of rate and delay, and +0.0 where that quotient underflows (log entry 11). -/
abbrev CfUnit.FreqInv (u : CfUnit) : Prop :=
  flt Config.zero u.freq = true ∨ (u.freq = Config.zero ∧ fdiv u.fs u.delay = Config.zero)

/-- The comb filter's invariant (10_state.md R25, R26). -/
abbrev CfUnit.Inv (p : Params) (u : CfUnit) : Prop :=
  LineInv p u.cap u.wc u.rc u.store ∧
  rateValid u.fs = true ∧
  u.DelayInv p ∧
  u.FreqInv ∧
  (fle Config.zero u.k = true ∧ fle u.k Config.kMax = true) ∧
  (u.delay = fdiv u.fs u.freq ∨ u.freq = fdiv u.fs u.delay)

/-- SM_INC points from SM_CUR towards SM_TGT, or is a zero, or the ramp has already reached its target
(43_smooth.md R210). -/
abbrev SmChannel.Heading (ch : SmChannel) : Prop :=
  (flt Config.zero ch.inc = true → fle ch.cur ch.tgt = true) ∧
  (flt ch.inc Config.zero = true → fle ch.tgt ch.cur = true)

/-- A smoother channel's invariant (10_state.md R27, R28; 43_smooth.md R210). -/
abbrev SmChannel.Inv (ch : SmChannel) : Prop :=
  rateValid ch.fs = true ∧ isFinite ch.cur = true ∧ isFinite ch.tgt = true ∧ isNaN ch.inc = false ∧
  1 ≤ ch.steps.toNat ∧ ch.rem.toNat ≤ ch.steps.toNat ∧
  (ch.rem = 0#32 → ch.cur = ch.tgt) ∧
  ch.Heading

/-- The fault record: empty while ERR is clear, a cause while it is set, and FOP 0 for a BUS fault
(10_state.md R35, 60_exceptions.md R231, R232). -/
abbrev Status.Inv (st : Status) : Prop :=
  (st.err = false → st = Status.clear) ∧
  (st.err = true → st.cause ≠ .none) ∧
  (st.cause = .bus → st.fop = 0#8)

/-- Every invariant of 10_state.md together, with DMEM in canonical form. -/
abbrev State.Inv (s : State) : Prop :=
  s.params.Legal ∧ s.cb.Inv s.params ∧ s.cf.Inv s.params ∧
  (s.sm.length = s.params.nsm ∧ ∀ ch ∈ s.sm, ch.Inv) ∧
  Memory.wf s.params.dmemWords s.dmem ∧ s.status.Inv

/-- A run without a fault: a fault stays in the run's record when STATUS is cleared (00_scope.md R15). -/
abbrev State.Clean (s : State) : Prop := s.faultLog = []

/-! ## Words claims use -/

/-- The state after the command word with OP `op` faults with cause `c`: STATUS has the record unless it
already had one, the run has the fault, and nothing else has changed (60_exceptions.md R231). -/
def State.faulted (s : State) (c : Cause) (op : BitVec 8) : State :=
  { s with
    status := if s.status.err = true then s.status else { err := true, cause := c, fop := op }
    faultLog := { cause := c, fop := op } :: s.faultLog }

/-- The faults a command can raise beyond those of its decoding, in check order (60_exceptions.md R234). -/
def faultsOf : Instr → List Cause
  | .cbResize => [.operand, .capacity]
  | .cbPush | .cbPull | .cbWrDist | .cbRstRd => []
  | .cbPushBlk _ | .cbPullBlk _ | .cbPullBlkAdd _ => [.dmemRange]
  | .cbPullDly => [.delayRange]
  | .cbPullDlyBlk _ | .cbPullDlyBlkI _ | .cbModDlyBlk _ | .cbModDlyBlkD _ => [.dmemRange, .delayRange]
  | .cfProc => []
  | .cfProcBlk _ => [.dmemRange]
  | .cfSetFreq | .cfSetDly | .cfInitFs => [.operand, .capacity]
  | .cfSetFbk | .cfSetTopo => [.operand]
  | .smInit _ | .smSetTime _ | .smSetTgt _ => [.operand]
  | .smNext _ | .smCur _ => []
  | .smNextBlk _ _ => [.dmemRange]

/-- The block a command may write in DMEM, if it writes DMEM at all (the block commands whose rules hold a
MemWrite: 40_cbuf.md R107, R108, R110, 41_interp.md R145, 42_comb.md R165, 43_smooth.md R208). -/
def dmemBlock : Instr → Option (BitVec 20)
  | .cbPullBlk n | .cbPullBlkAdd n | .cbPullDlyBlk n | .cbPullDlyBlkI n | .cfProcBlk n | .smNextBlk _ n => some n
  | .cbPushBlk _ | .cbModDlyBlk _ | .cbModDlyBlkD _ => none
  | .cbResize | .cbPush | .cbPull | .cbPullDly | .cbWrDist | .cbRstRd => none
  | .cfProc | .cfSetFreq | .cfSetDly | .cfSetFbk | .cfInitFs | .cfSetTopo => none
  | .smInit _ | .smSetTime _ | .smSetTgt _ | .smNext _ | .smCur _ => none

/-- The six result-producing commands (10_state.md R34). -/
def writesRes : Instr → Bool
  | .cbPull | .cbPullDly | .cbWrDist | .cfProc | .smNext _ | .smCur _ => true
  | .cbResize | .cbPush | .cbPushBlk _ | .cbPullBlk _ | .cbPullBlkAdd _ | .cbPullDlyBlk _ => false
  | .cbPullDlyBlkI _ | .cbModDlyBlk _ | .cbModDlyBlkD _ | .cbRstRd => false
  | .cfProcBlk _ | .cfSetFreq | .cfSetDly | .cfSetFbk | .cfInitFs | .cfSetTopo => false
  | .smInit _ | .smSetTime _ | .smSetTgt _ | .smNextBlk _ _ => false

/-- Which unit a command is of, by its OP (30_encoding.md R90). -/
inductive Unit3 where
  | cb | cf | sm
  deriving DecidableEq, Repr

/-- The unit of a command (30_encoding.md R90). -/
def unitOf : Instr → Unit3
  | .cbResize | .cbPush | .cbPushBlk _ | .cbPull | .cbPullBlk _ | .cbPullBlkAdd _ | .cbPullDly => .cb
  | .cbPullDlyBlk _ | .cbPullDlyBlkI _ | .cbModDlyBlk _ | .cbModDlyBlkD _ | .cbWrDist | .cbRstRd => .cb
  | .cfProc | .cfProcBlk _ | .cfSetFreq | .cfSetDly | .cfSetFbk | .cfInitFs | .cfSetTopo => .cf
  | .smInit _ | .smSetTime _ | .smSetTgt _ | .smNext _ | .smCur _ | .smNextBlk _ _ => .sm

/-- `v` is the comb filter `u` whose delay line has been checked for the delay `d`: untouched when it is long
enough, else of the least power of two at or above `ceil(d) + 1`, all +0.0, with both cursors 0
(42_comb.md R161). -/
def CfUnit.GrownFor (u v : CfUnit) (d : F64) : Prop :=
  ((fceil d).toNat + 1 ≤ u.cap → v.cap = u.cap ∧ v.wc = u.wc ∧ v.rc = u.rc ∧ v.store = u.store) ∧
  (u.cap < (fceil d).toNat + 1 →
    IsPow2 v.cap ∧ (fceil d).toNat + 1 ≤ v.cap ∧ (∀ j, (fceil d).toNat + 1 ≤ 2 ^ j → v.cap ≤ 2 ^ j) ∧
    v.wc = 0 ∧ v.rc = 0 ∧ ∀ i, storeRead v.store i = Config.zero)

/-- Run commands one after another, each with its own OPA, and collect what RES holds after each. -/
def runAll : List (Word × Instr) → State → List Word × State
  | [], s => ([], s)
  | (x, i) :: rest, s =>
    match exec i { s with opa := x } with
    | .next t => (t.res :: (runAll rest t).1, (runAll rest t).2)
    | .fault _ => ([], s)
    | .refused _ => ([], s)

/-- The word a host read of a register gives, DMEM words apart (10_state.md R29 to R38). -/
def hostView (s : State) : List (HostReg × Word) :=
  [ (.config, configWord s.params), (.cmd, 0#64), (.opa, s.opa), (.opb, s.opb), (.res, s.res),
    (.status, s.status.toWord), (.ctrl, if s.ie then 1#64 else 0#64),
    (.cbCap, BitVec.ofNat 64 s.cb.cap), (.cbWc, BitVec.ofNat 64 s.cb.wc), (.cbRc, BitVec.ofNat 64 s.cb.rc),
    (.cfCap, BitVec.ofNat 64 s.cf.cap), (.cfWc, BitVec.ofNat 64 s.cf.wc), (.cfRc, BitVec.ofNat 64 s.cf.rc),
    (.cfFs, s.cf.fs), (.cfDelay, s.cf.delay), (.cfFreq, s.cf.freq), (.cfK, s.cf.k),
    (.cfFb, if s.cf.fb then 1#64 else 0#64) ]

end Sys2Proof.Machine
end

