-- ==== Sys2Proof/Certificates/Slice0/Obligations.lean ====
section
/-! DEFINITION. The statements of this row, each a Prop about the model. A statement's docstring names the rule
of spec/ it formalises, or says what it derives from. Premises about states are the invariants of
Safety.lean, which are themselves stated to hold at reset and to be kept by every step. -/

open Sys2Proof Sys2Proof.Machine

/-! ## The command word -/

/-- Decoding an encoded well-formed command gives it back, with CH and LEN at every value (R88, R89, R92). -/
def Obligations.DecodeOfEncode : Prop :=
  ∀ (nsm : Nat) (i : Instr), i.wellFormed nsm = true → decode nsm (encode i) = .ok i

/-- A word that decodes is the encoding of what it decodes to, which is well-formed: no two words select
one command (R88, R89). -/
def Obligations.DecodedWordIsItsEncoding : Prop :=
  ∀ (nsm : Nat) (w : Word) (i : Instr), decode nsm w = .ok i → i.wellFormed nsm = true ∧ encode i = w

/-- Every 64-bit word written to CMD either selects one command, with its channel and block length, or raises
exactly one fault, told from the word's numbers alone: OP = w mod 2^8, CH = w / 2^8 mod 2^4, LEN = w / 2^12 mod 2^20, RSV = w / 2^32
(R80, R81, R82, R83, R88). -/
def Obligations.CommandWordSelectsOrFaults : Prop :=
  ∀ (s : State) (w : Word) (rest : List HostEvent), s.pending = writeTo .cmd w :: rest →
    let op := w.toNat % 2 ^ 8
    let ch := w.toNat / 2 ^ 8 % 2 ^ 4
    let len := w.toNat / 2 ^ 12 % 2 ^ 20
    let rsv := w.toNat / 2 ^ 32
    let smoother := 0x30 ≤ op ∧ op ≤ 0x35
    let defined := (0x01 ≤ op ∧ op ≤ 0x0D) ∨ (0x20 ≤ op ∧ op ≤ 0x26) ∨ smoother
    let block := op ∈ [0x03, 0x05, 0x06, 0x08, 0x09, 0x0A, 0x0B, 0x21, 0x35]
    let legal := rsv = 0 ∧ (smoother → ch < s.params.nsm) ∧ (¬ smoother → ch = 0) ∧ (¬ block → len = 0)
    let taken : State := { s with pending := rest }
    (¬ defined → step s = .next (taken.faulted .illegalOp (BitVec.ofNat 8 op))) ∧
    (defined → ¬ legal → step s = .next (taken.faulted .reservedField (BitVec.ofNat 8 op))) ∧
    (defined → legal → ∃ i, decode s.params.nsm w = .ok i ∧ i.op = BitVec.ofNat 8 op ∧
      (smoother → i.channel? = some (BitVec.ofNat 4 ch)) ∧ (¬ smoother → i.channel? = none) ∧
      (block → i.len? = some (BitVec.ofNat 20 len)) ∧ (¬ block → i.len? = none))

/-- A step whose next event is the CMD write of a word that decodes to `i` is `exec i`, after that event is
taken from the queue; a word placed by `State.withFetchWord`, the model's own (log entry 1), runs the same way
(R31, R66). -/
def Obligations.StepRunsDecodedCommand : Prop :=
  (∀ (s : State) (w : Word) (rest : List HostEvent) (i : Instr), s.pending = writeTo .cmd w :: rest →
    decode s.params.nsm w = .ok i → step s = exec i { s with pending := rest }) ∧
  (∀ (s : State) (w : Nat) (i : Instr), decode s.params.nsm (BitVec.ofNat 64 w) = .ok i → w < 2 ^ 64 →
    step (s.withFetchWord 64 w) = exec i s)

/-- Words written out from the field table of R80 decode to the commands they stand for; the first is the
worked encoding of R94. -/
def Obligations.SpecWordsDecode : Prop :=
  decode 2 0x001E1135#64 = .ok (.smNextBlk 1#4 481#20) ∧
  decode 2 0x0000A003#64 = .ok (.cbPushBlk 10#20) ∧
  decode 2 0x00002009#64 = .ok (.cbPullDlyBlkI 2#20) ∧
  decode 2 0x00000024#64 = .ok .cfSetFbk ∧
  decode 2 0x00000131#64 = .ok (.smSetTime 1#4) ∧
  decode 2 0x0000000E#64 = .error .illegalOp ∧
  decode 2 0x00000233#64 = .error .reservedField

/-! ## Whole-machine rules -/

/-- No fault is fatal and nothing blocks: every step answers a next state (R239, R246). It rests on
three log entries of the model's own: a step with nothing pending idles (entry 2), a read of an unwritten DMEM
word draws a free value, where R72 equally allows a model fault (entry 3), and Fault has no constructor (entry
12). -/
def Obligations.EveryStepAnswersNext : Prop := ∀ s : State, ∃ t, step s = .next t

/-- The fault rule R231: a step that raises a fault changes nothing but STATUS, where a fault is kept only
while ERR is clear; a command's FOP is its OP field and a BUS fault's is 0. (The event leaves the queue,
the run's record gains the fault, and a BUS read's zero is recorded: the model's own fields, log entries 1, 8
and 9.) Whether ERR is set, and what STATUS and CTRL hold, never influences a command. -/
def Obligations.FaultChangesOnlyStatus : Prop :=
  (∀ (s t : State) (e : HostEvent) (rest : List HostEvent), s.pending = e :: rest → step s = .next t →
    t.faultLog = s.faultLog ∨
    ∃ (c : Cause) (fop : BitVec 8),
      ((c = .bus ∧ fop = 0#8) ∨
        (c ≠ .none ∧ c ≠ .bus ∧ ∃ w : Word, e = writeTo .cmd w ∧ fop = BitVec.ofNat 8 (w.toNat % 2 ^ 8))) ∧
      { t with hostReads := s.hostReads } = State.faulted { s with pending := rest } c fop) ∧
  (∀ (i : Instr) (s t : State) (st : Status) (ie : Bool), exec i s = .next t →
    ∃ u, exec i { s with status := st, ie := ie } = .next u ∧ u = { t with status := u.status, ie := ie })

/-- STATUS changes only by the fault rule while ERR is clear, by a host write with bit 0 set, which clears
it, or by reset; a host write with bit 0 clear changes nothing, and neither write is a fault (R232, R238). -/
def Obligations.StatusLifecycle : Prop :=
  (∀ (s t : State) (e : HostEvent) (rest : List HostEvent), s.pending = e :: rest → step s = .next t →
    t.status = s.status ∨
    (s.status.err = false ∧ ∃ r : FaultRecord, t.faultLog = r :: s.faultLog ∧
      t.status = { err := true, cause := r.cause, fop := r.fop }) ∨
    (∃ v : Word, e = writeTo .status v ∧ v.getLsbD 0 = true) ∨
    e = .reset) ∧
  (∀ (s : State) (v : Word) (rest : List HostEvent), s.pending = writeTo .status v :: rest →
    step s = .next { s with
      pending := rest
      status := if v.getLsbD 0 then { err := false, cause := .none, fop := 0#8 } else s.status })

/-- `irq` is high exactly while ERR and IE are both 1; a CTRL write sets IE from bit 0 and ignores the other
bits; clearing ERR or IE lowers `irq`, and a fault with IE set raises it (R36, R42, R236). -/
def Obligations.IrqFollowsErrAndIe : Prop :=
  (∀ s : State, s.irq = true ↔ s.status.err = true ∧ s.ie = true) ∧
  (∀ (s : State) (v : Word) (rest : List HostEvent), s.pending = writeTo .ctrl v :: rest →
    step s = .next { s with pending := rest, ie := v.getLsbD 0 }) ∧
  (∀ (s t : State) (v : Word) (rest : List HostEvent), s.pending = writeTo .status v :: rest →
    v.getLsbD 0 = true → step s = .next t → t.irq = false) ∧
  (∀ (s t : State) (e : HostEvent) (rest : List HostEvent), s.pending = e :: rest → s.ie = true →
    step s = .next t → t.faultLog ≠ s.faultLog → t.irq = true)

/-- No command writes OPA or OPB, and none touches CTRL, the parameters, the queue or the record of host reads
(R32, R33, R269). -/
def Obligations.CommandsKeepOperandRegisters : Prop :=
  ∀ (i : Instr) (s t : State), exec i s = .next t →
    t.opa = s.opa ∧ t.opb = s.opb ∧ t.ie = s.ie ∧ t.params = s.params ∧ t.pending = s.pending ∧
    t.hostReads = s.hostReads

/-- RES is written only by the six result-producing commands; every other command and every faulting
command leaves it, and a host write to RES is a BUS fault that does not change it (R34). -/
def Obligations.ResWrittenOnlyByResultCommands : Prop :=
  (∀ (i : Instr) (s t : State), exec i s = .next t → writesRes i = false → t.res = s.res) ∧
  (∀ (i : Instr) (s t : State), exec i s = .next t → t.faultLog ≠ s.faultLog → t.res = s.res) ∧
  (∀ (s : State) (v : Word) (rest : List HostEvent), s.pending = writeTo .res v :: rest →
    step s = .next (State.faulted { s with pending := rest } .bus 0#8))

/-- A command leaves the units that are not its own, and a smoother command leaves every channel but its own
(R2; 43_smooth.md: no SM command touches another channel). -/
def Obligations.UnitsAreIsolated : Prop :=
  ∀ (i : Instr) (s t : State), exec i s = .next t →
    (unitOf i ≠ .cb → t.cb = s.cb) ∧ (unitOf i ≠ .cf → t.cf = s.cf) ∧ (unitOf i ≠ .sm → t.sm = s.sm) ∧
    t.sm.length = s.sm.length ∧
    (∀ c, i.channel? = some c → ∀ j, j ≠ c.toNat → t.sm[j]? = s.sm[j]?)

/-- Every DMEM word outside the block of a command that writes DMEM reads as before, and a command that
writes none leaves DMEM as it is. The block is the words from OPB on, LEN of them (R60, R61). -/
def Obligations.DmemOutsideBlockUnchanged : Prop :=
  ∀ (i : Instr) (s t : State), exec i s = .next t →
    (dmemBlock i = none → t.dmem = s.dmem) ∧
    (∀ n, dmemBlock i = some n → ∀ x, (x < s.opb.toNat ∨ s.opb.toNat + n.toNat ≤ x) →
      cellGet t.dmem x = cellGet s.dmem x)

/-- A command given to an instance that has its channel raises only the faults R234 lists for it, at most
one, and each listed fault is raised in some state. -/
def Obligations.CommandFaultsAreThoseListed : Prop :=
  (∀ (i : Instr) (s t : State), i.wellFormed s.sm.length = true → exec i s = .next t →
    t.faultLog = s.faultLog ∨ ∃ c ∈ faultsOf i, t = s.faulted c i.op) ∧
  (∀ (i : Instr) (c : Cause), c ∈ faultsOf i →
    ∃ s : State, i.wellFormed s.sm.length = true ∧ exec i s = .next (s.faulted c i.op))

/-- The comb's capacity never decreases except at reset (R26 b). -/
def Obligations.CombCapacityNeverDecreases : Prop :=
  ∀ (s t : State) (e : HostEvent) (rest : List HostEvent), s.pending = e :: rest → e ≠ .reset →
    step s = .next t → s.cf.cap ≤ t.cf.cap

/-! ## Reset -/

/-- A reset pulse gives every piece of state its value of R43, whatever it held, and leaves no DMEM word with a value
(R72); an instance right after reset holds the same values, and State.reset is the instance with the default parameters of
R7. That the queue of events and the record of the run, the model's own fields, outlive the pulse is the model's
choice (log entry 7). -/
def Obligations.ResetValues : Prop :=
  let holds (p : Params) (t : State) : Prop :=
    t.params = p ∧
    (t.cb.cap = 128 ∧ t.cb.wc = 0 ∧ t.cb.rc = 0 ∧ ∀ i, storeRead t.cb.store i = 0x0000000000000000#64) ∧
    (t.cf.cap = 128 ∧ t.cf.wc = 0 ∧ t.cf.rc = 0 ∧ ∀ i, storeRead t.cf.store i = 0x0000000000000000#64) ∧
    (t.cf.fs = 0x40E7700000000000#64 ∧ t.cf.delay = 0x3FF0000000000000#64 ∧
      t.cf.freq = 0x40E7700000000000#64 ∧ t.cf.k = 0x0000000000000000#64 ∧ t.cf.fb = false) ∧
    (t.sm.length = p.nsm ∧ ∀ ch ∈ t.sm,
      ch.fs = 0x40E7700000000000#64 ∧ ch.cur = 0x0000000000000000#64 ∧ ch.tgt = 0x0000000000000000#64 ∧
      ch.steps = 1#32 ∧ ch.inc = 0x0000000000000000#64 ∧ ch.rem = 0#32) ∧
    (t.opa = 0#64 ∧ t.opb = 0#64 ∧ t.res = 0#64 ∧ t.status = { err := false, cause := .none, fop := 0#8 } ∧
      t.ie = false ∧ t.irq = false) ∧
    ∀ a, cellGet t.dmem a = none
  (∀ (s : State) (rest : List HostEvent), s.pending = .reset :: rest →
    ∃ t, step s = .next t ∧ holds s.params t ∧
      t.pending = rest ∧ t.hostReads = s.hostReads ∧ t.faultLog = s.faultLog) ∧
  (∀ p : Params, holds p (State.resetWith p)) ∧
  holds { maxCapLog2 := 16, dmemWords := 4096, nsm := 2 } State.reset

/-- The reset state of every legal instance satisfies every invariant (R262). -/
def Obligations.ResetMeetsInvariants : Prop := ∀ p : Params, p.Legal → (State.resetWith p).Inv

/-! ## Invariants every step keeps -/

/-- Every step keeps the circular buffer's capacity a power of two at most MAXCAP, its cursors below it and
its storage canonical, and leaves the parameters alone (R23, R24). -/
def Obligations.StepKeepsCircularBufferInvariant : Prop :=
  ∀ s t : State, s.params.Legal → s.cb.Inv s.params → step s = .next t →
    t.params = s.params ∧ t.cb.Inv t.params

/-- Every step keeps the comb filter's invariant: the delay line, the delay that fits it, the rate, the
intensity in [0, K_MAX], the relation of delay and frequency, and a frequency above 0, or +0.0 where R167's
quotient underflows (R25, R26; log entry 11). -/
def Obligations.StepKeepsCombInvariant : Prop :=
  ∀ s t : State, s.params.Legal → s.cf.Inv s.params → step s = .next t → t.cf.Inv t.params

/-- With a sample rate of at least 2^-1042 (2^32 units of 2^-1074), R25's CF_FREQ > 0 holds in every state that
meets the comb's invariant: no quotient of such a rate and a delay below 2^32 underflows, so the exception of
log entry 11 needs a smaller rate. -/
def Obligations.CombFrequencyIsPositive : Prop :=
  ∀ s : State, s.params.Legal → s.cf.Inv s.params → 2 ^ 32 ≤ units s.cf.fs → flt Config.zero s.cf.freq = true

/-- Every step keeps the smoother channels' invariant (R27, R28, R210). -/
def Obligations.StepKeepsSmootherInvariant : Prop :=
  ∀ s t : State, (s.sm.length = s.params.nsm ∧ ∀ ch ∈ s.sm, ch.Inv) → step s = .next t →
    t.sm.length = t.params.nsm ∧ ∀ ch ∈ t.sm, ch.Inv

/-- Every step keeps DMEM in the model's canonical form (log entry 4): indices rising and below DMEM_WORDS (R60). -/
def Obligations.StepKeepsDmemCanonical : Prop :=
  ∀ s t : State, Memory.wf s.params.dmemWords s.dmem → step s = .next t →
    Memory.wf t.params.dmemWords t.dmem

/-- Every step keeps the fault record legal: empty while ERR is clear, a cause while it is set, FOP 0 for a
BUS fault (R35, R230, R231). -/
def Obligations.StepKeepsStatusInvariant : Prop :=
  ∀ s t : State, s.status.Inv → step s = .next t → t.status.Inv

/-! ## Circular buffer commands -/

/-- CB.RESIZE (R103): the capacity becomes the least power of two at or above `n`, every word +0.0, both
cursors 0, nothing else changes; a negative size raises OPERAND, one above MAXCAP raises CAPACITY. -/
def Obligations.CbResizeResult : Prop :=
  ∀ s : State,
    (s.opa.toInt < 0 → exec .cbResize s = .next (s.faulted .operand 0x01#8)) ∧
    (0 ≤ s.opa.toInt → (s.params.maxCap : Int) < s.opa.toInt →
      exec .cbResize s = .next (s.faulted .capacity 0x01#8)) ∧
    (0 ≤ s.opa.toInt → s.opa.toInt ≤ (s.params.maxCap : Int) →
      ∃ t, exec .cbResize s = .next t ∧ t = { s with cb := t.cb } ∧
        (∃ k, t.cb.cap = 2 ^ k) ∧ s.opa.toInt ≤ (t.cb.cap : Int) ∧
        (∀ j, s.opa.toInt ≤ ((2 ^ j : Nat) : Int) → t.cb.cap ≤ 2 ^ j) ∧
        t.cb.wc = 0 ∧ t.cb.rc = 0 ∧ ∀ i, storeRead t.cb.store i = Config.zero)

/-- CB.PUSH (R104): the write cursor advances, the 64 bits of OPA are stored there, and nothing else
changes. -/
def Obligations.CbPushResult : Prop :=
  ∀ s : State, s.cb.Inv s.params →
    ∃ t, exec .cbPush s = .next t ∧
      t = { s with cb := { s.cb with wc := (s.cb.wc + 1) % s.cb.cap, store := t.cb.store } } ∧
      ∀ i, storeRead t.cb.store i =
        if i = (s.cb.wc + 1) % s.cb.cap then s.opa else storeRead s.cb.store i

/-- CB.PUSHBLK (R105): the write cursor advances LEN times; the last CB_CAP words of the block end in the
buffer in order; words the cursor did not pass stay; DMEM is not written; a block outside DMEM raises
DMEM_RANGE. A word of the block that no write has reached stores a free value, of which nothing is said;
that the block then completes is the model's choice, since R72 also allows a model fault (log entry 3). -/
def Obligations.CbPushBlkResult : Prop :=
  ∀ (n : BitVec 20) (s : State),
    (s.params.dmemWords < s.opb.toNat + n.toNat →
      exec (.cbPushBlk n) s = .next (s.faulted .dmemRange 0x03#8)) ∧
    (s.opb.toNat + n.toNat ≤ s.params.dmemWords → s.cb.Inv s.params →
      ∃ t, exec (.cbPushBlk n) s = .next t ∧
        t = { s with
              cb := { s.cb with wc := (s.cb.wc + n.toNat) % s.cb.cap, store := t.cb.store }
              draws := t.draws } ∧
        (∀ i v, i < n.toNat → n.toNat ≤ i + s.cb.cap → cellGet s.dmem (s.opb.toNat + i) = some v →
          storeRead t.cb.store ((s.cb.wc + 1 + i) % s.cb.cap) = v) ∧
        (∀ j, (∀ i, i < n.toNat → j ≠ (s.cb.wc + 1 + i) % s.cb.cap) →
          storeRead t.cb.store j = storeRead s.cb.store j))

/-- CB.PULL, CB.PULLDLY, CB.WRDIST and CB.RSTRD (R106, R109, R113, R114): what each reads, where it leaves the
cursors, and that it changes nothing else; CB.PULLDLY raises DELAY_RANGE outside [0, CB_CAP). -/
def Obligations.CbSampleReadResults : Prop :=
  ∀ s : State, s.cb.Inv s.params →
    exec .cbPull s = .next { s with
      cb := { s.cb with rc := (s.cb.rc + 1) % s.cb.cap }
      res := storeRead s.cb.store ((s.cb.rc + 1) % s.cb.cap) } ∧
    (∀ dl : Nat, dl < s.cb.cap → s.opa.toInt = (dl : Int) →
      exec .cbPullDly s = .next { s with res := storeRead s.cb.store ((s.cb.wc + s.cb.cap - dl) % s.cb.cap) }) ∧
    (s.opa.toInt < 0 ∨ (s.cb.cap : Int) ≤ s.opa.toInt →
      exec .cbPullDly s = .next (s.faulted .delayRange 0x07#8)) ∧
    exec .cbWrDist s = .next { s with
      res := BitVec.ofNat 64 ((s.cb.wc + s.cb.cap - s.cb.rc) % s.cb.cap) } ∧
    exec .cbRstRd s = .next { s with cb := { s.cb with rc := s.cb.wc } }

/-- CB.PULLBLK (R107): element `i` of the block is the sample at the read cursor advanced `i + 1` times; the
read cursor advances LEN times; every other DMEM word and all else stay; a block outside DMEM raises
DMEM_RANGE. -/
def Obligations.CbPullBlkResult : Prop :=
  ∀ (n : BitVec 20) (s : State),
    (s.params.dmemWords < s.opb.toNat + n.toNat →
      exec (.cbPullBlk n) s = .next (s.faulted .dmemRange 0x05#8)) ∧
    (s.opb.toNat + n.toNat ≤ s.params.dmemWords → s.cb.Inv s.params →
      ∃ t, exec (.cbPullBlk n) s = .next t ∧
        t = { s with cb := { s.cb with rc := (s.cb.rc + n.toNat) % s.cb.cap }, dmem := t.dmem } ∧
        (∀ i, i < n.toNat → cellGet t.dmem (s.opb.toNat + i) =
          some (storeRead s.cb.store ((s.cb.rc + 1 + i) % s.cb.cap))) ∧
        (∀ x, (x < s.opb.toNat ∨ s.opb.toNat + n.toNat ≤ x) → cellGet t.dmem x = cellGet s.dmem x))

/-- CB.PULLBLKADD (R108): element `i` becomes the rounded sum of what it held and the sample read; a word no
write has reached contributes a free value, of which nothing is said, and that the block then completes is the
model's choice, since R72 also allows a model fault (log entry 3); a block outside DMEM raises DMEM_RANGE. -/
def Obligations.CbPullBlkAddResult : Prop :=
  ∀ (n : BitVec 20) (s : State),
    (s.params.dmemWords < s.opb.toNat + n.toNat →
      exec (.cbPullBlkAdd n) s = .next (s.faulted .dmemRange 0x06#8)) ∧
    (s.opb.toNat + n.toNat ≤ s.params.dmemWords → s.cb.Inv s.params →
      ∃ t, exec (.cbPullBlkAdd n) s = .next t ∧
        t = { s with
              cb := { s.cb with rc := (s.cb.rc + n.toNat) % s.cb.cap }
              dmem := t.dmem
              draws := t.draws } ∧
        (∀ i, i < n.toNat → ∃ x,
          (∀ v, cellGet s.dmem (s.opb.toNat + i) = some v → x = v) ∧
          cellGet t.dmem (s.opb.toNat + i) =
            some (fadd x (storeRead s.cb.store ((s.cb.rc + 1 + i) % s.cb.cap)))) ∧
        (∀ x, (x < s.opb.toNat ∨ s.opb.toNat + n.toNat ≤ x) → cellGet t.dmem x = cellGet s.dmem x))

/-- CB.PULLDLYBLK (R110): element `i` is the sample at (CB_WC - dl + i) mod CB_CAP; no cursor moves; every other
DMEM word and all else stay; a block outside DMEM raises DMEM_RANGE, whatever the delay, and a delay outside
[0, CB_CAP) then raises DELAY_RANGE. -/
def Obligations.CbPullDlyBlkResult : Prop :=
  ∀ (n : BitVec 20) (s : State),
    (s.params.dmemWords < s.opb.toNat + n.toNat →
      exec (.cbPullDlyBlk n) s = .next (s.faulted .dmemRange 0x08#8)) ∧
    (s.opb.toNat + n.toNat ≤ s.params.dmemWords →
      (s.opa.toInt < 0 ∨ (s.cb.cap : Int) ≤ s.opa.toInt →
        exec (.cbPullDlyBlk n) s = .next (s.faulted .delayRange 0x08#8)) ∧
      (∀ dl : Nat, s.cb.Inv s.params → dl < s.cb.cap → s.opa.toInt = (dl : Int) →
        ∃ t, exec (.cbPullDlyBlk n) s = .next t ∧ t = { s with dmem := t.dmem } ∧
          (∀ i, i < n.toNat → cellGet t.dmem (s.opb.toNat + i) =
            some (storeRead s.cb.store ((s.cb.wc + s.cb.cap - dl + i) % s.cb.cap))) ∧
          (∀ x, (x < s.opb.toNat ∨ s.opb.toNat + n.toNat ≤ x) → cellGet t.dmem x = cellGet s.dmem x)))

/-- CB.MODDLYBLK and CB.MODDLYBLKD (R111, R112): element `i` of the block multiplies the word at
(CB_WC - dl + i) mod CB_CAP, in order and with one rounding a visit, so a word is multiplied once a visit when
the block is longer than the buffer; other words, the cursors, DMEM and all else stay; the two commands leave
the same state; the faults are those of R110. The products are stated for blocks of written words; that a block
with an unwritten word completes too is the model's choice, since R72 also allows a model fault (log entry
3). -/
def Obligations.CbModulateResult : Prop :=
  ∀ (n : BitVec 20) (s : State),
    (s.params.dmemWords < s.opb.toNat + n.toNat →
      exec (.cbModDlyBlk n) s = .next (s.faulted .dmemRange 0x0A#8) ∧
      exec (.cbModDlyBlkD n) s = .next (s.faulted .dmemRange 0x0B#8)) ∧
    (s.opb.toNat + n.toNat ≤ s.params.dmemWords →
      (s.opa.toInt < 0 ∨ (s.cb.cap : Int) ≤ s.opa.toInt →
        exec (.cbModDlyBlk n) s = .next (s.faulted .delayRange 0x0A#8) ∧
        exec (.cbModDlyBlkD n) s = .next (s.faulted .delayRange 0x0B#8)) ∧
      (∀ dl : Nat, s.cb.Inv s.params → dl < s.cb.cap → s.opa.toInt = (dl : Int) →
        ∃ t, exec (.cbModDlyBlk n) s = .next t ∧ exec (.cbModDlyBlkD n) s = .next t ∧
          t = { s with cb := { s.cb with store := t.cb.store }, draws := t.draws } ∧
          (∀ xs : List Word, xs.length = n.toNat →
            (∀ (i : Nat) (v : Word), xs[i]? = some v → cellGet s.dmem (s.opb.toNat + i) = some v) →
            ∀ j, storeRead t.cb.store j =
              xs.zipIdx.foldl
                (fun acc p => if j = (s.cb.wc + s.cb.cap - dl + p.2) % s.cb.cap then fmul acc p.1 else acc)
                (storeRead s.cb.store j)) ∧
          (∀ j, (∀ i, i < n.toNat → j ≠ (s.cb.wc + s.cb.cap - dl + i) % s.cb.cap) →
            storeRead t.cb.store j = storeRead s.cb.store j)))

/-! ## Fractional-delay interpolation -/

/-- `split(d)` is exact: floor and fraction add up to `d` with no rounding, and the fraction is in [0, 1)
(R140). -/
def Obligations.SplitIsExact : Prop :=
  ∀ d : F64, isFinite d = true → 0 ≤ units d →
    units d = (splitLo d : Int) * (unitsPerOne : Int) + units (splitFrac d) ∧
    isFinite (splitFrac d) = true ∧ signBit (splitFrac d) = false ∧
    0 ≤ units (splitFrac d) ∧ units (splitFrac d) < (unitsPerOne : Int)

/-- CB.PULLDLYBLKI (R145): element `i` blends the samples at offsets `lo` and `lo + 1`, moved `i` words on; when
the fraction is zero it is the lower sample; no cursor moves; all else stays; a block outside DMEM raises
DMEM_RANGE, and a delay outside [0, CB_CAP), or a NaN, then raises DELAY_RANGE. -/
def Obligations.CbInterpolatedBlockResult : Prop :=
  ∀ (n : BitVec 20) (s : State),
    (s.params.dmemWords < s.opb.toNat + n.toNat →
      exec (.cbPullDlyBlkI n) s = .next (s.faulted .dmemRange 0x09#8)) ∧
    (s.opb.toNat + n.toNat ≤ s.params.dmemWords →
      (fle Config.zero s.opa = false ∨ flt s.opa (f64OfNat s.cb.cap) = false →
        exec (.cbPullDlyBlkI n) s = .next (s.faulted .delayRange 0x09#8)) ∧
      (s.cb.Inv s.params → s.params.Legal →
        fle Config.zero s.opa = true → flt s.opa (f64OfNat s.cb.cap) = true →
        ∃ t, exec (.cbPullDlyBlkI n) s = .next t ∧ t = { s with dmem := t.dmem } ∧
          splitLo s.opa < s.cb.cap ∧
          (∀ i, i < n.toNat → cellGet t.dmem (s.opb.toNat + i) = some (
            if feq (splitFrac s.opa) Config.zero = true then
              storeRead s.cb.store ((s.cb.wc + s.cb.cap - splitLo s.opa + i) % s.cb.cap)
            else
              fadd
                (fmul (storeRead s.cb.store ((s.cb.wc + s.cb.cap - splitLo s.opa + i) % s.cb.cap))
                  (fsub Config.one (splitFrac s.opa)))
                (fmul (storeRead s.cb.store ((s.cb.wc + s.cb.cap - (splitLo s.opa + 1) + i) % s.cb.cap))
                  (splitFrac s.opa)))) ∧
          (∀ x, (x < s.opb.toNat ∨ s.opb.toNat + n.toNat ≤ x) → cellGet t.dmem x = cellGet s.dmem x)))

/-- With an integral delay the interpolating block read writes exactly what the integer block read writes, bit
for bit, whatever the storage holds (R146). -/
def Obligations.IntegralDelayReducesToIntegerRead : Prop :=
  ∀ (n : BitVec 20) (s : State) (d : F64), s.cb.Inv s.params → s.params.Legal →
    s.opb.toNat + n.toNat ≤ s.params.dmemWords →
    fle Config.zero d = true → flt d (f64OfNat s.cb.cap) = true → feq (splitFrac d) Config.zero = true →
    ∃ t u, exec (.cbPullDlyBlkI n) { s with opa := d } = .next t ∧
      exec (.cbPullDlyBlk n) { s with opa := BitVec.ofNat 64 (splitLo d) } = .next u ∧ t.dmem = u.dmem

/-! ## Comb filter commands -/

/-- CF.PROC (R163, R164): with lo and f the floor and fraction of CF_DELAY, the output is x + k * tap, where the
tap blends the samples lo and lo + 1 back, the input itself counting as the sample 0 back; the line keeps
the input in feed-forward mode and the output in feedback mode; nothing else changes. -/
def Obligations.CfProcResult : Prop :=
  ∀ s : State, s.params.Legal → s.cf.Inv s.params →
    let wc := (s.cf.wc + 1) % s.cf.cap
    let back (k : Nat) : Word := if k = 0 then s.opa else storeRead s.cf.store ((wc + s.cf.cap - k) % s.cf.cap)
    let lo := splitLo s.cf.delay
    let y := fadd s.opa (fmul s.cf.k (blend (back lo) (back (lo + 1)) (splitFrac s.cf.delay)))
    ∃ t, exec .cfProc s = .next t ∧
      t = { s with cf := { s.cf with wc := wc, store := t.cf.store }, res := y } ∧
      ∀ i, storeRead t.cf.store i =
        if i = wc then (if s.cf.fb then y else s.opa) else storeRead s.cf.store i

/-- CF.PROCBLK over written words leaves the unit state and the outputs of as many CF.PROC commands on the same
inputs, with RES unchanged; other DMEM words stay; a block outside DMEM raises DMEM_RANGE (R165). -/
def Obligations.CfProcBlkIsRepeatedProc : Prop :=
  ∀ (n : BitVec 20) (s : State),
    (s.params.dmemWords < s.opb.toNat + n.toNat →
      exec (.cfProcBlk n) s = .next (s.faulted .dmemRange 0x21#8)) ∧
    (∀ xs : List Word, s.opb.toNat + n.toNat ≤ s.params.dmemWords → xs.length = n.toNat →
      (∀ (i : Nat) (v : Word), xs[i]? = some v → cellGet s.dmem (s.opb.toNat + i) = some v) →
      let r := runAll (xs.map fun x => (x, Instr.cfProc)) s
      ∃ t, exec (.cfProcBlk n) s = .next t ∧ t = { s with cf := r.2.cf, dmem := t.dmem } ∧
        r.1.length = n.toNat ∧
        (∀ i, i < n.toNat → cellGet t.dmem (s.opb.toNat + i) = r.1[i]?) ∧
        (∀ x, (x < s.opb.toNat ∨ s.opb.toNat + n.toNat ≤ x) → cellGet t.dmem x = cellGet s.dmem x))

/-- CF.PROCBLK completes for every block inside DMEM, whatever words of it have been written: it moves the comb's
write cursor by LEN and writes nothing outside the comb's line and the block (R165). That it completes over an
unwritten word, drawing a free value, is the model's choice, since R72 also allows a model fault (log entry
3). -/
def Obligations.CfProcBlkCompletes : Prop :=
  ∀ (n : BitVec 20) (s : State), s.cf.Inv s.params → s.opb.toNat + n.toNat ≤ s.params.dmemWords →
    ∃ t, exec (.cfProcBlk n) s = .next t ∧
      t = { s with
            cf := { s.cf with wc := (s.cf.wc + n.toNat) % s.cf.cap, store := t.cf.store }
            dmem := t.dmem
            draws := t.draws } ∧
      (∀ i, i < n.toNat → ∃ v, cellGet t.dmem (s.opb.toNat + i) = some v) ∧
      (∀ x, (x < s.opb.toNat ∨ s.opb.toNat + n.toNat ≤ x) → cellGet t.dmem x = cellGet s.dmem x)

/-- CF.SETFREQ (R166, R161, R162): for f > 0 the delay becomes CF_FS / f and the line grows if it must; a
frequency not above 0 raises OPERAND, a delay above MAXCAP - 1 raises CAPACITY, and a fault changes
nothing else. -/
def Obligations.CfSetFreqResult : Prop :=
  ∀ s : State, let d := fdiv s.cf.fs s.opa
    (flt Config.zero s.opa = false → exec .cfSetFreq s = .next (s.faulted .operand 0x22#8)) ∧
    (flt Config.zero s.opa = true → fle d (f64OfNat (s.params.maxCap - 1)) = false →
      exec .cfSetFreq s = .next (s.faulted .capacity 0x22#8)) ∧
    (flt Config.zero s.opa = true → fle d (f64OfNat (s.params.maxCap - 1)) = true →
      ∃ u : CfUnit, exec .cfSetFreq s = .next { s with cf := u } ∧
        u = { s.cf with freq := s.opa, delay := d, cap := u.cap, wc := u.wc, rc := u.rc, store := u.store } ∧
        s.cf.GrownFor u d)

/-- CF.SETDLY (R167, R161, R162): the delay becomes `d` (-0.0 as +0.0), the frequency CF_FS / d, and the line grows
if it must; a NaN, a negative or an infinity raises OPERAND, a delay above MAXCAP - 1 raises CAPACITY. -/
def Obligations.CfSetDlyResult : Prop :=
  ∀ s : State, let d := if feq s.opa Config.zero = true then Config.zero else s.opa
    (fle Config.zero s.opa = false ∨ isInf s.opa = true →
      exec .cfSetDly s = .next (s.faulted .operand 0x23#8)) ∧
    (fle Config.zero s.opa = true → isInf s.opa = false → fle d (f64OfNat (s.params.maxCap - 1)) = false →
      exec .cfSetDly s = .next (s.faulted .capacity 0x23#8)) ∧
    (fle Config.zero s.opa = true → isInf s.opa = false → fle d (f64OfNat (s.params.maxCap - 1)) = true →
      ∃ u : CfUnit, exec .cfSetDly s = .next { s with cf := u } ∧
        u = { s.cf with
              delay := d, freq := fdiv s.cf.fs d, cap := u.cap, wc := u.wc, rc := u.rc, store := u.store } ∧
        s.cf.GrownFor u d)

/-- CF.INITFS (R168, R161, R162): the rate becomes `fs`, the delay fs / CF_FREQ, and the line grows if it must; a rate
that is not finite or not above 0 raises OPERAND, a delay above MAXCAP - 1 raises CAPACITY. -/
def Obligations.CfInitFsResult : Prop :=
  ∀ s : State, let d := fdiv s.opa s.cf.freq
    (isFinite s.opa = false ∨ flt Config.zero s.opa = false →
      exec .cfInitFs s = .next (s.faulted .operand 0x25#8)) ∧
    (isFinite s.opa = true → flt Config.zero s.opa = true → fle d (f64OfNat (s.params.maxCap - 1)) = false →
      exec .cfInitFs s = .next (s.faulted .capacity 0x25#8)) ∧
    (isFinite s.opa = true → flt Config.zero s.opa = true → fle d (f64OfNat (s.params.maxCap - 1)) = true →
      ∃ u : CfUnit, exec .cfInitFs s = .next { s with cf := u } ∧
        u = { s.cf with fs := s.opa, delay := d, cap := u.cap, wc := u.wc, rc := u.rc, store := u.store } ∧
        s.cf.GrownFor u d)

/-- CF.SETFBK and CF.SETTOPO (R169, R170, R171): the intensity is clamped into [0, K_MAX], a NaN raises OPERAND; the
topology is 0 or 1, any other operand raises OPERAND; nothing else changes. -/
def Obligations.CfSetFbkAndTopoResults : Prop :=
  ∀ s : State,
    (isNaN s.opa = true → exec .cfSetFbk s = .next (s.faulted .operand 0x24#8)) ∧
    (isNaN s.opa = false → ∃ k : F64, exec .cfSetFbk s = .next { s with cf := { s.cf with k := k } } ∧
      fle Config.zero k = true ∧ fle k 0x3FEFFFFFFAA19C47#64 = true ∧
      (flt s.opa Config.zero = true → k = Config.zero) ∧
      (flt 0x3FEFFFFFFAA19C47#64 s.opa = true → k = 0x3FEFFFFFFAA19C47#64) ∧
      (fle Config.zero s.opa = true → fle s.opa 0x3FEFFFFFFAA19C47#64 = true → k = s.opa)) ∧
    (s.opa.toInt = 0 → exec .cfSetTopo s = .next { s with cf := { s.cf with fb := false } }) ∧
    (s.opa.toInt = 1 → exec .cfSetTopo s = .next { s with cf := { s.cf with fb := true } }) ∧
    (s.opa.toInt ≠ 0 → s.opa.toInt ≠ 1 → exec .cfSetTopo s = .next (s.faulted .operand 0x26#8))

/-- The impulse response of the comb (R172): from a line of zeros and an integer delay D below CF_CAP, the inputs
1.0, 0, 0, … give (a) feed-forward, D ≥ 1: 1.0 at 0, k at D and +0.0 elsewhere; (b) feedback, D ≥ 1: k^m at
m*D, by m successive multiplications, and +0.0 elsewhere; (c) feed-forward, D = 0: 1.0 + k at 0 and +0.0
elsewhere. An intensity of -0.0, which R25 allows, gives +0.0 where k is added to the zero input. -/
def Obligations.ImpulseResponse : Prop :=
  ∀ (s : State) (D m : Nat), s.params.Legal → s.cf.Inv s.params → s.cf.store = [] →
    D < s.cf.cap → s.cf.delay = f64OfNat D →
    let k := s.cf.k
    let ys := (runAll ((Config.one :: List.replicate m Config.zero).map fun x => (x, Instr.cfProc)) s).1
    (∀ j, j ≤ m →
      (s.cf.fb = false → 1 ≤ D →
        ys[j]? = some (if j = 0 then Config.one else if j = D then fadd Config.zero k else Config.zero)) ∧
      (s.cf.fb = true → 1 ≤ D →
        ys[j]? = some (if j % D = 0 then (fun v => fadd Config.zero (fmul k v))^[j / D] Config.one
          else Config.zero)) ∧
      (s.cf.fb = false → D = 0 → ys[j]? = some (if j = 0 then fadd Config.one k else Config.zero))) ∧
    (signBit k = false → fadd Config.zero k = k ∧
      ∀ n, (fun v => fadd Config.zero (fmul k v))^[n] Config.one = (fmul k)^[n] Config.one)

/-! ## Parameter smoother commands -/

/-- SM.INIT and SM.CUR (R203, R207): SM.INIT stores the rate and recomputes nothing, and raises OPERAND for a rate that
is not finite or not above 0; SM.CUR answers SM_CUR and changes nothing but RES. -/
def Obligations.SmInitAndCurResults : Prop :=
  ∀ (c : BitVec 4) (s : State) (ch : SmChannel), s.sm[c.toNat]? = some ch →
    (isFinite s.opa = false ∨ flt Config.zero s.opa = false →
      exec (.smInit c) s = .next (s.faulted .operand 0x30#8)) ∧
    (isFinite s.opa = true → flt Config.zero s.opa = true →
      exec (.smInit c) s = .next { s with sm := s.sm.set c.toNat { ch with fs := s.opa } }) ∧
    exec (.smCur c) s = .next { s with res := ch.cur }

/-- SM.SETTIME (R204): with t = (ms * SM_FS) / 1000, the step count is max(1, rnd(t)), the increment the gap over it,
and the ramp restarts; a time or count that is not finite, or a count above 2^32 - 1, raises OPERAND. -/
def Obligations.SmSetTimeResult : Prop :=
  ∀ (c : BitVec 4) (s : State) (ch : SmChannel), s.sm[c.toNat]? = some ch →
    let t := fdiv (fmul s.opa ch.fs) 0x408F400000000000#64
    (isFinite s.opa = false ∨ isFinite t = false ∨ 2 ^ 32 - 1 < rnd t →
      exec (.smSetTime c) s = .next (s.faulted .operand 0x31#8)) ∧
    (isFinite s.opa = true → isFinite t = true → rnd t ≤ 2 ^ 32 - 1 →
      ∃ S : BitVec 32, (S.toNat : Int) = max 1 (rnd t) ∧
        exec (.smSetTime c) s = .next { s with sm := s.sm.set c.toNat { ch with
          steps := S, inc := fdiv (fsub ch.tgt ch.cur) (f64OfNat S.toNat), rem := S } })

/-- SM.SETTGT (R205): the target is set, the increment is the gap over SM_S and the ramp restarts; a target that is
not finite raises OPERAND. -/
def Obligations.SmSetTgtResult : Prop :=
  ∀ (c : BitVec 4) (s : State) (ch : SmChannel), s.sm[c.toNat]? = some ch →
    (isFinite s.opa = false → exec (.smSetTgt c) s = .next (s.faulted .operand 0x32#8)) ∧
    (isFinite s.opa = true → exec (.smSetTgt c) s = .next { s with sm := s.sm.set c.toNat { ch with
      tgt := s.opa, inc := fdiv (fsub s.opa ch.cur) (f64OfNat ch.steps.toNat), rem := ch.steps } })

/-- SM.NEXT (R200, R202, R206): at rest it answers SM_CUR; at the last step it lands on the bits of SM_TGT; before it,
it adds SM_INC and never passes SM_TGT; the counter goes down by one; nothing else changes. -/
def Obligations.SmNextResult : Prop :=
  ∀ (c : BitVec 4) (s : State) (ch : SmChannel), s.sm[c.toNat]? = some ch →
    let sum := fadd ch.cur ch.inc
    (ch.rem.toNat = 0 → exec (.smNext c) s = .next { s with res := ch.cur }) ∧
    (ch.rem.toNat = 1 → exec (.smNext c) s = .next { s with
      sm := s.sm.set c.toNat { ch with cur := ch.tgt, rem := 0#32 }, res := ch.tgt }) ∧
    (2 ≤ ch.rem.toNat → ∃ v : F64,
      exec (.smNext c) s = .next { s with
        sm := s.sm.set c.toNat { ch with cur := v, rem := BitVec.ofNat 32 (ch.rem.toNat - 1) }, res := v } ∧
      (flt Config.zero ch.inc = true → flt ch.tgt sum = true → v = ch.tgt) ∧
      (flt ch.inc Config.zero = true → flt sum ch.tgt = true → v = ch.tgt) ∧
      ((flt Config.zero ch.inc = false ∨ flt ch.tgt sum = false) →
        (flt ch.inc Config.zero = false ∨ flt sum ch.tgt = false) → v = sum))

/-- SM.NEXTBLK writes the values and leaves the channel of as many SM.NEXT commands, with RES unchanged; other
DMEM words stay; a block outside DMEM raises DMEM_RANGE (R208). -/
def Obligations.SmNextBlkIsRepeatedNext : Prop :=
  ∀ (c : BitVec 4) (n : BitVec 20) (s : State) (ch : SmChannel), s.sm[c.toNat]? = some ch →
    (s.params.dmemWords < s.opb.toNat + n.toNat →
      exec (.smNextBlk c n) s = .next (s.faulted .dmemRange 0x35#8)) ∧
    (s.opb.toNat + n.toNat ≤ s.params.dmemWords →
      let r := runAll (List.replicate n.toNat (s.opa, Instr.smNext c)) s
      ∃ t, exec (.smNextBlk c n) s = .next t ∧ t = { s with sm := r.2.sm, dmem := t.dmem } ∧
        r.1.length = n.toNat ∧
        (∀ i, i < n.toNat → cellGet t.dmem (s.opb.toNat + i) = r.1[i]?) ∧
        (∀ x, (x < s.opb.toNat ∨ s.opb.toNat + n.toNat ≤ x) → cellGet t.dmem x = cellGet s.dmem x))

/-- A ramp lands on its target exactly and stays (R209): with SM_REM = S >= 1, the S-th SM.NEXT and every later one
answer the bits of SM_TGT. -/
def Obligations.RampLandsOnTarget : Prop :=
  ∀ (c : BitVec 4) (s : State) (ch : SmChannel) (m : Nat), s.sm[c.toNat]? = some ch → 1 ≤ ch.rem.toNat →
    ∀ j, ch.rem.toNat ≤ j + 1 → j < m →
      (runAll (List.replicate m (s.opa, Instr.smNext c)) s).1[j]? = some ch.tgt

/-- A step of a ramp moves SM_CUR towards SM_TGT, or leaves it, and never passes SM_TGT, upwards and downwards
(R210). -/
def Obligations.RampIsMonotone : Prop :=
  ∀ (c : BitVec 4) (s t : State) (ch : SmChannel), s.sm[c.toNat]? = some ch → ch.Inv →
    exec (.smNext c) s = .next t →
    ∃ ch', t.sm[c.toNat]? = some ch' ∧ ch'.tgt = ch.tgt ∧ t.res = ch'.cur ∧
      (flt Config.zero ch.inc = true → fle ch.cur ch'.cur = true ∧ fle ch'.cur ch.tgt = true) ∧
      (flt ch.inc Config.zero = true → fle ch'.cur ch.cur = true ∧ fle ch.tgt ch'.cur = true)

/-! ## Arithmetic -/

/-- A finite sum, product or quotient of finite values is a binary64 nearest to the exact result, in units of 2^-1074
(products and quotients cleared of their denominators), and of two equally near it is the one with an even
last bit (R11; the arithmetic is the model's reading of IEEE 754, log entry 13). -/
def Obligations.ArithmeticRoundsToNearestEven : Prop :=
  ∀ a b y : F64, isFinite a = true → isFinite b = true → isFinite y = true →
    (isFinite (fadd a b) = true →
      |units a + units b - units (fadd a b)| ≤ |units a + units b - units y| ∧
      (|units a + units b - units (fadd a b)| = |units a + units b - units y| →
        units y = units (fadd a b) ∨ magBits (fadd a b) % 2 = 0)) ∧
    (isFinite (fmul a b) = true →
      |units a * units b - unitsPerOne * units (fmul a b)| ≤ |units a * units b - unitsPerOne * units y| ∧
      (|units a * units b - unitsPerOne * units (fmul a b)| = |units a * units b - unitsPerOne * units y| →
        units y = units (fmul a b) ∨ magBits (fmul a b) % 2 = 0)) ∧
    (units b ≠ 0 → isFinite (fdiv a b) = true →
      |units a * unitsPerOne - units b * units (fdiv a b)| ≤ |units a * unitsPerOne - units b * units y| ∧
      (|units a * unitsPerOne - units b * units (fdiv a b)| = |units a * unitsPerOne - units b * units y| →
        units y = units (fdiv a b) ∨ magBits (fdiv a b) % 2 = 0))

/-- An arithmetic result that is NaN is the canonical quiet NaN, whatever the operands' payloads
(R12; log entry 13). -/
def Obligations.NaNResultsAreCanonical : Prop :=
  ∀ a b : F64, ∀ r ∈ [fadd a b, fsub a b, fmul a b, fdiv a b], isNaN r = true → r = 0x7FF8000000000000#64

/-- `rnd(t)` is an integer nearest to `t`, and of two equally near the one farther from zero (R201). -/
def Obligations.RndIsNearestHalfAway : Prop :=
  ∀ t : F64, isFinite t = true → ∀ z : Int,
    |units t - rnd t * unitsPerOne| ≤ |units t - z * unitsPerOne| ∧
    (|units t - rnd t * unitsPerOne| = |units t - z * unitsPerOne| → |z| ≤ |rnd t|)

/-! ## Laws of the delay line -/

/-- What is pushed comes back (R115 a, b, c): a sample at delay 0; a block of at most CB_CAP written words at delay
LEN - 1, and through the sequential read cursor when it stood at the write cursor. -/
def Obligations.PushedSamplesComeBack : Prop :=
  (∀ (s : State) (v : Word), s.cb.Inv s.params →
    (runAll [(v, Instr.cbPush), (0#64, Instr.cbPullDly)] s).1[1]? = some v) ∧
  (∀ (s t : State) (n : BitVec 20) (b : Word), s.cb.Inv s.params → 1 ≤ n.toNat → n.toNat ≤ s.cb.cap →
    s.opb.toNat + n.toNat ≤ s.params.dmemWords → b.toNat + n.toNat ≤ s.params.dmemWords →
    (∀ i, i < n.toNat → ∃ v, cellGet s.dmem (s.opb.toNat + i) = some v) →
    exec (.cbPushBlk n) s = .next t →
    (∃ u, exec (.cbPullDlyBlk n) { t with opa := BitVec.ofNat 64 (n.toNat - 1), opb := b } = .next u ∧
      ∀ i, i < n.toNat → cellGet u.dmem (b.toNat + i) = cellGet s.dmem (s.opb.toNat + i)) ∧
    (s.cb.rc = s.cb.wc → ∃ u, exec (.cbPullBlk n) { t with opb := b } = .next u ∧
      ∀ i, i < n.toNat → cellGet u.dmem (b.toNat + i) = cellGet s.dmem (s.opb.toNat + i)))

/-- From equal cursors, CB.WRDIST after fewer than CB_CAP pushes and no pull answers how many there were, whatever
was pushed (R115 d). -/
def Obligations.DistanceCountsPushes : Prop :=
  ∀ (s : State) (xs : List Word), s.cb.Inv s.params → s.cb.rc = s.cb.wc → xs.length < s.cb.cap →
    (runAll (xs.map (fun x => (x, Instr.cbPush)) ++ [(0#64, Instr.cbWrDist)]) s).1[xs.length]? =
      some (BitVec.ofNat 64 xs.length)

/-! ## Host window -/

/-- The register map: the registers, the mirrors, each channel's six mirrors and the DMEM words are at their offsets,
and every other offset is unmapped (R29, R37, R38, R44). -/
def Obligations.HostWindowMap : Prop :=
  ∀ p : Params, p.nsm ≤ 16 →
    let fixed : List (HostReg × Nat) :=
      [(.config, 0x000), (.cmd, 0x008), (.opa, 0x010), (.opb, 0x018), (.res, 0x020), (.status, 0x028),
       (.ctrl, 0x030), (.cbCap, 0x040), (.cbWc, 0x048), (.cbRc, 0x050), (.cfCap, 0x060), (.cfWc, 0x068),
       (.cfRc, 0x070), (.cfFs, 0x078), (.cfDelay, 0x080), (.cfFreq, 0x088), (.cfK, 0x090), (.cfFb, 0x098)]
    let fields : List (SmField × Nat) :=
      [(.fs, 0x00), (.cur, 0x08), (.tgt, 0x10), (.steps, 0x18), (.inc, 0x20), (.rem, 0x28)]
    (∀ x ∈ fixed, regAt p x.2 = some x.1) ∧
    (∀ c, c < p.nsm → ∀ x ∈ fields, regAt p (0x100 + 0x40 * c + x.2) = some (.sm c x.1)) ∧
    (∀ i, i < p.dmemWords → regAt p (0x10000 + 8 * i) = some (.dmem i)) ∧
    (∀ off, (∀ x ∈ fixed, off ≠ x.2) → (∀ c, c < p.nsm → ∀ x ∈ fields, off ≠ 0x100 + 0x40 * c + x.2) →
      (∀ i, i < p.dmemWords → off ≠ 0x10000 + 8 * i) → regAt p off = none)

/-- A host read gives the register's value and has no other effect: the interface registers, the mirrors and, for
every channel, its six fields; CONFIG holds log2(MAXCAP), DMEM_WORDS, NSM and the revision, STATUS its
record (R30, R35, R37, R38, R65). -/
def Obligations.HostReadsShowState : Prop :=
  (∀ (s : State) (r : HostReg) (v : Word) (rest : List HostEvent), (r, v) ∈ hostView s →
    s.pending = readFrom r :: rest →
    step s = .next { s with pending := rest, hostReads := v :: s.hostReads }) ∧
  (∀ (s : State) (c : Nat) (ch : SmChannel) (f : SmField) (v : Word) (rest : List HostEvent),
    s.params.nsm ≤ 16 → c < s.params.nsm → s.sm[c]? = some ch →
    (f, v) ∈ [(SmField.fs, ch.fs), (.cur, ch.cur), (.tgt, ch.tgt), (.steps, BitVec.ofNat 64 ch.steps.toNat),
      (.inc, ch.inc), (.rem, BitVec.ofNat 64 ch.rem.toNat)] →
    s.pending = readFrom (.sm c f) :: rest →
    step s = .next { s with pending := rest, hostReads := v :: s.hostReads }) ∧
  (∀ p : Params, p.Legal →
    (configWord p).toNat = p.maxCapLog2 + p.dmemWords * 2 ^ 8 + p.nsm * 2 ^ 40 + 7 * 2 ^ 56) ∧
  (∀ st : Status, st.toWord.toNat =
    (if st.err then 1 else 0) + st.cause.code.toNat * 2 ^ 4 + st.fop.toNat * 2 ^ 8)

/-- A host write to OPA, OPB or a DMEM word only stores the value, and a read of a written DMEM word gives the last
value written, with no other effect (R32, R33, R65, R67). -/
def Obligations.HostWritesAreReadBack : Prop :=
  ∀ (s : State) (v : Word) (rest : List HostEvent),
    (s.pending = writeTo .opa v :: rest → step s = .next { s with pending := rest, opa := v }) ∧
    (s.pending = writeTo .opb v :: rest → step s = .next { s with pending := rest, opb := v }) ∧
    (∀ a, s.params.Legal → a < s.params.dmemWords → s.pending = writeTo (.dmem a) v :: rest →
      ∃ t, step s = .next t ∧ t = { s with pending := rest, dmem := t.dmem } ∧
        ∀ x, cellGet t.dmem x = if x = a then some v else cellGet s.dmem x) ∧
    (∀ a, s.params.Legal → a < s.params.dmemWords → cellGet s.dmem a = some v →
      s.pending = readFrom (.dmem a) :: rest →
      step s = .next { s with pending := rest, hostReads := v :: s.hostReads })

/-- BUS faults (R235): an access that is not 64 bits wide, not 8-aligned, or unmapped, and a write to a read-only
register; a read then returns 0 and a write changes nothing; a read of CMD returns 0 and is no fault, and a
write to STATUS is none. -/
def Obligations.BusFaults : Prop :=
  ∀ (s : State) (a : Access) (rest : List HostEvent), s.params.nsm ≤ 16 → s.pending = .access a :: rest →
    let good := a.width = 64 ∧ a.offset.toNat % 8 = 0
    let at_ (r : HostReg) := r.present s.params = true ∧ r.offset = a.offset.toNat
    let fault := State.faulted { s with pending := rest } .bus 0#8
    (¬ good ∨ (∀ r, ¬ at_ r) →
      (a.kind = .read → step s = .next { fault with hostReads := 0#64 :: s.hostReads }) ∧
      (∀ v, a.kind = .write v → step s = .next fault)) ∧
    (good → ∀ r v, at_ r → r.writable = false → a.kind = .write v → step s = .next fault) ∧
    (good → at_ .cmd → a.kind = .read →
      step s = .next { s with pending := rest, hostReads := 0#64 :: s.hostReads }) ∧
    (good → ∀ v t, at_ .status → a.kind = .write v → step s = .next t → t.faultLog = s.faultLog)

/-- The expansion of command mnemonics and pseudo-instructions (R92, R93, R94), on lines of each shape, as
syntax trees (log entry 20). -/
def Obligations.AssemblerExpansion : Prop :=
  (AsmLine.cmd (.smNextBlk 1#4 481#20) (.int 0) (.int 16)).expand =
    [writeTo .opb 16#64, writeTo .cmd 0x001E1135#64] ∧
  (AsmLine.cmd .cbResize (.int (-5)) (.int 0)).expand =
    [writeTo .opa 0xFFFFFFFFFFFFFFFB#64, writeTo .cmd 0x1#64] ∧
  (AsmLine.cmd (.cbPullDlyBlk 3#20) (.int 9) (.int 32)).expand =
    [writeTo .opa 9#64, writeTo .opb 32#64, writeTo .cmd 0x3008#64] ∧
  (AsmLine.cmd (.smCur 1#4) (.int 0) (.int 0)).expand = [writeTo .cmd 0x134#64] ∧
  AsmLine.clrErr.expand = [writeTo .status 1#64] ∧
  AsmLine.irqOn.expand = [writeTo .ctrl 1#64] ∧
  AsmLine.irqOff.expand = [writeTo .ctrl 0#64] ∧
  lenOperand 1048576 = none ∧ chOperand 16 = none
end

