-- ==== Sys2Proof/Laws/Binary64.lean ====
section
/-! SUPPORT. The small facts of the binary64 arithmetic: fields of a packed value, rounding is exact on what
is representable and monotone, and comparisons follow the units. -/

namespace Sys2Proof.Machine

/-! ## Rounding to the nearest whole number -/

theorem roundNearestEven_ge (num den : Nat) : num / den ≤ roundNearestEven num den := by
  unfold roundNearestEven; simp only; split <;> (try split) <;> (try split) <;> omega

theorem roundNearestEven_le (num den : Nat) : roundNearestEven num den ≤ num / den + 1 := by
  unfold roundNearestEven; simp only; split <;> (try split) <;> (try split) <;> omega

/-- A whole number stays. -/
theorem roundNearestEven_mul (q den : Nat) (h : 0 < den) : roundNearestEven (q * den) den = q := by
  unfold roundNearestEven
  simp only [Nat.mul_mod_left, Nat.mul_div_cancel q h]
  rw [if_pos (by omega)]

theorem roundNearestEven_one (n : Nat) : roundNearestEven n 1 = n := by
  simpa using roundNearestEven_mul n 1 (by decide)

theorem roundNearestEven_mono (a b den : Nat) (h : a ≤ b) : roundNearestEven a den ≤ roundNearestEven b den := by
  have hq : a / den ≤ b / den := Nat.div_le_div_right h
  rcases Nat.lt_or_ge (a / den) (b / den) with hlt | hge
  · exact Nat.le_trans (roundNearestEven_le a den) (Nat.le_trans hlt (roundNearestEven_ge b den))
  · have he : a / den = b / den := Nat.le_antisymm hq hge
    have ha := Nat.div_add_mod a den
    have hb := Nat.div_add_mod b den
    rw [he] at ha
    have hr : a % den ≤ b % den := by omega
    unfold roundNearestEven
    simp only [he]
    split_ifs <;> omega

/-! ## Units of an encoding -/

/-- The units of a value from its bits below the sign. -/
def magUnitsOf (m : Nat) : Nat :=
  if m / 2 ^ 52 = 0 then m % 2 ^ 52 else (2 ^ 52 + m % 2 ^ 52) * 2 ^ (m / 2 ^ 52 - 1)

theorem magUnits_eq (x : F64) : magUnits x = magUnitsOf (magBits x) := rfl

theorem magUnitsOf_subnormal (m : Nat) (h : m < 2 ^ 52) : magUnitsOf m = m := by
  unfold magUnitsOf
  rw [if_pos (Nat.div_eq_of_lt h), Nat.mod_eq_of_lt h]

theorem magUnitsOf_normal (m : Nat) (h : 2 ^ 52 ≤ m) :
    magUnitsOf m = (2 ^ 52 + m % 2 ^ 52) * 2 ^ (m / 2 ^ 52 - 1) := by
  unfold magUnitsOf
  rw [if_neg (by have := Nat.div_pos h (by decide); omega)]

/-- `k * 2^52 + f` with `2^52 <= f <= 2^53` encodes `f * 2^k` units, the carry into the exponent included. -/
theorem magUnitsOf_scaled (k f : Nat) (h1 : 2 ^ 52 ≤ f) (h2 : f ≤ 2 ^ 53) :
    magUnitsOf (k * 2 ^ 52 + f) = f * 2 ^ k := by
  rw [magUnitsOf_normal _ (by omega)]
  rcases Nat.lt_or_ge f (2 ^ 53) with h | h
  · have hd : (k * 2 ^ 52 + f) / 2 ^ 52 = k + 1 := by omega
    have hm : (k * 2 ^ 52 + f) % 2 ^ 52 = f - 2 ^ 52 := by omega
    rw [hd, hm, Nat.add_sub_cancel, Nat.add_sub_cancel' h1]
  · have hf : f = 2 ^ 53 := by omega
    subst hf
    have hd : (k * 2 ^ 52 + 2 ^ 53) / 2 ^ 52 = k + 2 := by omega
    have hm : (k * 2 ^ 52 + 2 ^ 53) % 2 ^ 52 = 0 := by omega
    rw [hd, hm, Nat.add_zero, show k + 2 - 1 = k + 1 from rfl, Nat.pow_succ 2 k]
    have : (2 : Nat) ^ 53 = 2 ^ 52 * 2 := by decide
    rw [this, Nat.mul_assoc, Nat.mul_comm 2]

/-- The bits below the sign order the absolute values. -/
theorem magUnitsOf_lt (m n : Nat) (h : m < n) : magUnitsOf m < magUnitsOf n := by
  have hstep : ∀ m, magUnitsOf m < magUnitsOf (m + 1) := by
    intro m
    rcases Nat.lt_or_ge m (2 ^ 52) with h | h
    · rcases Nat.lt_or_ge (m + 1) (2 ^ 52) with h' | h'
      · rw [magUnitsOf_subnormal m h, magUnitsOf_subnormal _ h']; omega
      · have : m + 1 = 0 * 2 ^ 52 + 2 ^ 52 := by omega
        rw [magUnitsOf_subnormal m h, this, magUnitsOf_scaled 0 _ (by decide) (by decide)]; omega
    · obtain ⟨k, f, h1, h2, rfl⟩ : ∃ k f, 2 ^ 52 ≤ f ∧ f < 2 ^ 53 ∧ m = k * 2 ^ 52 + f :=
        ⟨m / 2 ^ 52 - 1, m % 2 ^ 52 + 2 ^ 52, by omega, by omega, by omega⟩
      rw [magUnitsOf_scaled k f h1 (by omega), Nat.add_assoc, magUnitsOf_scaled k (f + 1) (by omega) (by omega)]
      exact Nat.mul_lt_mul_of_pos_right (Nat.lt_succ_self f) (Nat.two_pow_pos k)
  induction n with
  | zero => omega
  | succ n ih =>
    rcases Nat.lt_or_eq_of_le (Nat.le_of_lt_succ h) with h | h
    · exact Nat.lt_trans (ih h) (hstep n)
    · subst h; exact hstep m

theorem magUnitsOf_le (m n : Nat) (h : m ≤ n) : magUnitsOf m ≤ magUnitsOf n := by
  rcases Nat.lt_or_eq_of_le h with h | h
  · exact Nat.le_of_lt (magUnitsOf_lt m n h)
  · subst h; exact Nat.le_refl _

/-! ## Rounding to a binary64 -/

theorem roundMag_le (num den : Nat) : roundMag num den ≤ infMag := Nat.min_le_left _ _

theorem roundMag_zero (den : Nat) : roundMag 0 den = 0 := by
  have h : ∀ d, roundNearestEven 0 d = 0 := by
    intro d
    unfold roundNearestEven
    simp only [Nat.zero_div, Nat.zero_mod]
    split_ifs <;> omega
  unfold roundMag
  simp only [Nat.zero_div, h]
  exact Nat.min_eq_right (Nat.zero_le _)

/-- The significand of a rounding has at most 53 bits, a carry counted. -/
theorem significand_le (num den k : Nat) (hk : num / den < 2 ^ (53 + k)) :
    roundNearestEven num (den * 2 ^ k) ≤ 2 ^ 53 := by
  have h : num / (den * 2 ^ k) < 2 ^ 53 := by
    rw [← Nat.div_div_eq_div_mul, Nat.div_lt_iff_lt_mul (Nat.two_pow_pos k), ← Nat.pow_add]
    exact hk
  have := roundNearestEven_le num (den * 2 ^ k)
  omega

/-- It has 53 bits unless the value is below 2^52 units. -/
theorem significand_ge (num den k : Nat) (hk : 2 ^ (52 + k) ≤ num / den) :
    2 ^ 52 ≤ roundNearestEven num (den * 2 ^ k) := by
  refine Nat.le_trans ?_ (roundNearestEven_ge num (den * 2 ^ k))
  rw [← Nat.div_div_eq_div_mul, Nat.le_div_iff_mul_le (Nat.two_pow_pos k), ← Nat.pow_add]
  exact hk

theorem log2_bounds (q : Nat) : q < 2 ^ (53 + (Nat.log2 q - 52)) ∧
    (Nat.log2 q - 52 = 0 ∨ 2 ^ (52 + (Nat.log2 q - 52)) ≤ q) := by
  have h1 := Nat.lt_log2_self (n := q)
  constructor
  · exact Nat.lt_of_lt_of_le h1 (Nat.pow_le_pow_right (by decide) (by omega))
  · rcases Nat.eq_zero_or_pos (Nat.log2 q - 52) with h | h
    · exact .inl h
    · refine .inr ?_
      have hq : q ≠ 0 := by rintro rfl; simp at h
      have := Nat.log2_self_le hq
      rwa [show 52 + (Nat.log2 q - 52) = Nat.log2 q by omega]

/-- Rounding never turns an order round. -/
theorem roundMag_mono (a b den : Nat) (h : a ≤ b) : roundMag a den ≤ roundMag b den := by
  have hq : a / den ≤ b / den := Nat.div_le_div_right h
  have hl : Nat.log2 (a / den) ≤ Nat.log2 (b / den) := by
    rcases Nat.eq_zero_or_pos (a / den) with h0 | h0
    · simp [h0]
    · exact (Nat.le_log2 (by omega)).2 (Nat.le_trans (Nat.log2_self_le (by omega)) hq)
  unfold roundMag
  simp only
  obtain ⟨ha, -⟩ := log2_bounds (a / den)
  obtain ⟨-, hb⟩ := log2_bounds (b / den)
  have hkk : Nat.log2 (a / den) - 52 ≤ Nat.log2 (b / den) - 52 := Nat.sub_le_sub_right hl 52
  generalize Nat.log2 (a / den) - 52 = k at *
  generalize Nat.log2 (b / den) - 52 = k' at *
  suffices hs : k * 2 ^ 52 + roundNearestEven a (den * 2 ^ k) ≤ k' * 2 ^ 52 + roundNearestEven b (den * 2 ^ k') by
    exact le_min (Nat.min_le_left _ _) (Nat.le_trans (Nat.min_le_right _ _) hs)
  rcases Nat.lt_or_eq_of_le hkk with hlt | rfl
  · have h1 := significand_le a den k ha
    have h2 := significand_ge b den k' (hb.resolve_left (by omega))
    omega
  · have := roundNearestEven_mono a b (den * 2 ^ k) h
    omega

/-- Rounding leaves a representable value as it is. -/
theorem roundMag_magUnitsOf (m : Nat) (h : m < infMag) : roundMag (magUnitsOf m) 1 = m := by
  unfold roundMag
  simp only [Nat.div_one, Nat.one_mul]
  rcases Nat.lt_or_ge m (2 ^ 52) with hm | hm
  · rw [magUnitsOf_subnormal m hm]
    have : Nat.log2 m - 52 = 0 := by
      rcases Nat.eq_zero_or_pos m with rfl | h0
      · rfl
      · have := (Nat.log2_lt (n := m) (k := 52) (by omega)).2 hm; omega
    rw [this]
    simp only [Nat.zero_mul, Nat.pow_zero, roundNearestEven_one, Nat.zero_add]
    exact Nat.min_eq_right (Nat.le_of_lt h)
  · obtain ⟨k, f, h1, h2, rfl⟩ : ∃ k f, 2 ^ 52 ≤ f ∧ f < 2 ^ 53 ∧ m = k * 2 ^ 52 + f :=
      ⟨m / 2 ^ 52 - 1, m % 2 ^ 52 + 2 ^ 52, by omega, by omega, by omega⟩
    rw [magUnitsOf_scaled k f h1 (by omega)]
    have hp := Nat.two_pow_pos k
    have hl : Nat.log2 (f * 2 ^ k) = 52 + k := by
      refine (Nat.log2_eq_iff (Nat.mul_ne_zero (by omega) (by omega))).2 ⟨?_, ?_⟩
      · rw [Nat.pow_add]; exact Nat.mul_le_mul_right _ h1
      · rw [show 52 + k + 1 = 53 + k by omega, Nat.pow_add]; exact Nat.mul_lt_mul_of_pos_right h2 hp
    rw [hl, Nat.add_sub_cancel_left, roundNearestEven_mul f _ hp]
    exact Nat.min_eq_right (Nat.le_of_lt h)

/-! ## Packed values -/

theorem magBits_lt (x : F64) : magBits x < 2 ^ 63 := Nat.mod_lt _ (by decide)

theorem packBits_toNat (neg : Bool) (mag : Nat) (h : mag < 2 ^ 63) :
    (packBits neg mag).toNat = (if neg then 2 ^ 63 else 0) + mag := by
  unfold packBits
  rw [BitVec.toNat_ofNat, Nat.mod_eq_of_lt]
  cases neg
  · simp; omega
  · simp only [if_true]; omega

@[simp] theorem magBits_packBits (neg : Bool) (mag : Nat) (h : mag < 2 ^ 63) :
    magBits (packBits neg mag) = mag := by
  unfold magBits
  rw [packBits_toNat neg mag h]
  cases neg <;> simp <;> omega

@[simp] theorem signBit_packBits (neg : Bool) (mag : Nat) (h : mag < 2 ^ 63) :
    signBit (packBits neg mag) = neg := by
  unfold signBit
  rw [BitVec.msb_eq_decide, packBits_toNat neg mag h]
  cases neg
  · simp; omega
  · simp

theorem signBit_eq (x : F64) : signBit x = decide (2 ^ 63 ≤ x.toNat) := BitVec.msb_eq_decide x

/-- A value is its sign and the bits below it. -/
theorem packBits_self (x : F64) : packBits (signBit x) (magBits x) = x := by
  apply BitVec.eq_of_toNat_eq
  rw [packBits_toNat _ _ (magBits_lt x), signBit_eq]
  unfold magBits
  have := x.isLt
  by_cases h : 2 ^ 63 ≤ x.toNat
  · rw [decide_eq_true h, if_pos rfl]; omega
  · rw [decide_eq_false h, if_neg (by decide)]; omega

theorem infMag_lt : infMag < 2 ^ 63 := by decide

theorem roundMag_lt (num den : Nat) : roundMag num den < 2 ^ 63 :=
  Nat.lt_of_le_of_lt (roundMag_le num den) infMag_lt

/-- A rounding is never NaN. -/
theorem isNaN_packBits (neg : Bool) (mag : Nat) (h : mag ≤ infMag) : isNaN (packBits neg mag) = false := by
  unfold isNaN
  rw [magBits_packBits neg mag (Nat.lt_of_le_of_lt h infMag_lt)]
  simp; omega

theorem magUnits_packBits (neg : Bool) (mag : Nat) (h : mag < 2 ^ 63) :
    magUnits (packBits neg mag) = magUnitsOf mag := by
  rw [magUnits_eq, magBits_packBits neg mag h]

theorem isFinite_iff (x : F64) : isFinite x = true ↔ magBits x < infMag := decide_eq_true_iff

theorem isNaN_of_isFinite (x : F64) (h : isFinite x = true) : isNaN x = false := by
  have := (isFinite_iff x).1 h
  simp [isNaN]; omega

/-- Rounding a finite value's own units gives it back. -/
theorem roundMag_magUnits (x : F64) (h : isFinite x = true) : roundMag (magUnits x) 1 = magBits x := by
  rw [magUnits_eq, roundMag_magUnitsOf _ ((isFinite_iff x).1 h)]

/-- The order of the values is the order of their units. -/
theorem orderKey_le_iff (x y : F64) : orderKey x ≤ orderKey y ↔ units x ≤ units y := by
  have hx := magUnits_eq x
  have hy := magUnits_eq y
  have h0 : ∀ m, magUnitsOf m = 0 ↔ m = 0 := by
    intro m
    constructor
    · intro h
      rcases Nat.eq_zero_or_pos m with h' | h'
      · exact h'
      · have := magUnitsOf_lt 0 m h'; omega
    · rintro rfl; rfl
  have hmono : ∀ m n, m ≤ n ↔ magUnitsOf m ≤ magUnitsOf n := by
    intro m n
    refine ⟨magUnitsOf_le m n, fun h => ?_⟩
    rcases Nat.lt_or_ge n m with hlt | hge
    · have := magUnitsOf_lt n m hlt; omega
    · exact hge
  have h1 := h0 (magBits x)
  have h2 := h0 (magBits y)
  have h3 := hmono (magBits x) (magBits y)
  have h4 := hmono (magBits y) (magBits x)
  unfold orderKey units
  rw [hx, hy]
  split_ifs <;> constructor <;> intro h <;> omega

theorem fle_iff (x y : F64) (hx : isNaN x = false) (hy : isNaN y = false) :
    fle x y = true ↔ units x ≤ units y := by
  simp [fle, hx, hy, orderKey_le_iff]

theorem flt_iff (x y : F64) (hx : isNaN x = false) (hy : isNaN y = false) :
    flt x y = true ↔ units x < units y := by
  have := orderKey_le_iff y x
  simp only [flt, hx, hy, Bool.not_false, Bool.and_self, Bool.true_and, decide_eq_true_eq]
  omega

/-- What two comparable values are when a comparison holds: neither is NaN. -/
theorem fle_not_nan (x y : F64) (h : fle x y = true) : isNaN x = false ∧ isNaN y = false := by
  simp only [fle, Bool.and_eq_true, Bool.not_eq_true'] at h
  exact h.1

theorem flt_not_nan (x y : F64) (h : flt x y = true) : isNaN x = false ∧ isNaN y = false := by
  simp only [flt, Bool.and_eq_true, Bool.not_eq_true'] at h
  exact h.1

/-! ## Whole numbers -/

/-- A whole number below 2^53 is a binary64. -/
theorem units_f64OfNat (n : Nat) (h : n < 2 ^ 53) :
    units (f64OfNat n) = (n * unitsPerOne : Nat) ∧ isFinite (f64OfNat n) = true ∧ signBit (f64OfNat n) = false := by
  obtain ⟨m, hm, hu⟩ : ∃ m, m < infMag ∧ magUnitsOf m = n * unitsPerOne := by
    rcases Nat.eq_zero_or_pos n with rfl | hn
    · exact ⟨0, by decide, by simp [magUnitsOf]⟩
    · have hl := Nat.log2_self_le (n := n) (by omega)
      have hu := Nat.lt_log2_self (n := n)
      have hlt : Nat.log2 n < 53 := (Nat.log2_lt (by omega)).2 h
      -- n = f / 2^(52 - log2 n) with f of 53 bits, so n units of one are f * 2^(1022 + log2 n)
      refine ⟨(1022 + Nat.log2 n) * 2 ^ 52 + n * 2 ^ (52 - Nat.log2 n), ?_, ?_⟩
      · have : n * 2 ^ (52 - Nat.log2 n) < 2 ^ 53 := by
          calc n * 2 ^ (52 - Nat.log2 n) < 2 ^ (Nat.log2 n + 1) * 2 ^ (52 - Nat.log2 n) :=
                Nat.mul_lt_mul_of_pos_right hu (Nat.two_pow_pos _)
            _ = 2 ^ 53 := by rw [← Nat.pow_add]; congr 1; omega
        have : infMag = 2047 * 2 ^ 52 := by decide
        omega
      · rw [magUnitsOf_scaled]
        · rw [Nat.mul_assoc, ← Nat.pow_add]
          unfold unitsPerOne
          congr 2; omega
        · calc 2 ^ 52 = 2 ^ Nat.log2 n * 2 ^ (52 - Nat.log2 n) := by rw [← Nat.pow_add]; congr 1; omega
            _ ≤ _ := Nat.mul_le_mul_right _ hl
        · calc n * 2 ^ (52 - Nat.log2 n) ≤ 2 ^ (Nat.log2 n + 1) * 2 ^ (52 - Nat.log2 n) :=
                Nat.mul_le_mul_right _ (Nat.le_of_lt hu)
            _ = 2 ^ 53 := by rw [← Nat.pow_add]; congr 1; omega
  have hm63 : m < 2 ^ 63 := Nat.lt_trans hm infMag_lt
  have hf : f64OfNat n = packBits false m := by unfold f64OfNat; rw [← hu, roundMag_magUnitsOf m hm]
  rw [hf]
  refine ⟨?_, ?_, signBit_packBits false m hm63⟩
  · unfold units; rw [signBit_packBits false m hm63, magUnits_packBits false m hm63, hu]; rfl
  · rw [isFinite_iff, magBits_packBits false m hm63]; exact hm

/-! ## What an operation answers -/

/-- Everything a sum can be: NaN, one of its operands, a zero, or a rounding of the exact sum. -/
theorem fadd_cases (a b : F64) :
    fadd a b = Config.canonicalNaN ∨ (fadd a b = a ∧ isInf a = true) ∨ (fadd a b = b ∧ isInf b = true) ∨
    (units a + units b = 0 ∧ fadd a b = packBits (signBit a && signBit b) 0) ∨
    (units a + units b ≠ 0 ∧
      fadd a b = packBits (decide (units a + units b < 0)) (roundMag (units a + units b).natAbs 1)) := by
  unfold fadd
  split_ifs <;> simp_all

/-- The sum of two finite values. -/
theorem fadd_finite (a b : F64) (ha : isFinite a = true) (hb : isFinite b = true) :
    fadd a b = if units a + units b = 0 then packBits (signBit a && signBit b) 0
      else packBits (decide (units a + units b < 0)) (roundMag (units a + units b).natAbs 1) := by
  have h1 := isNaN_of_isFinite a ha
  have h2 := isNaN_of_isFinite b hb
  have h3 : isInf a = false := by have := (isFinite_iff a).1 ha; simp [isInf]; omega
  have h4 : isInf b = false := by have := (isFinite_iff b).1 hb; simp [isInf]; omega
  simp [fadd, h1, h2, h3, h4]

/-- The sum of two finite values is not NaN. -/
theorem fadd_finite_not_nan (a b : F64) (ha : isFinite a = true) (hb : isFinite b = true) :
    isNaN (fadd a b) = false := by
  rw [fadd_finite a b ha hb]
  split
  · exact isNaN_packBits _ 0 (by decide)
  · exact isNaN_packBits _ _ (roundMag_le _ _)

@[simp] theorem magBits_fneg (x : F64) : magBits (fneg x) = magBits x :=
  magBits_packBits _ _ (magBits_lt x)

@[simp] theorem signBit_fneg (x : F64) : signBit (fneg x) = !signBit x :=
  signBit_packBits _ _ (magBits_lt x)

@[simp] theorem units_fneg (x : F64) : units (fneg x) = -units x := by
  unfold units
  rw [magUnits_eq, magUnits_eq, magBits_fneg, signBit_fneg]
  cases signBit x <;> simp

@[simp] theorem isFinite_fneg (x : F64) : isFinite (fneg x) = isFinite x := by
  simp [isFinite]

end Sys2Proof.Machine
end

