-- ==== Sys2Proof/Laws/Memory.lean ====
section
/-! SUPPORT. Word memories: what a read gives after a write, and that every operation keeps the canonical
form. -/

namespace Sys2Proof.Machine

theorem cellGet_cons_self (m : List WordCell) (i : Nat) (v : Word) : cellGet ((i, v) :: m) i = some v := by
  simp [cellGet]

theorem cellGet_cons_ne (m : List WordCell) (i j : Nat) (v : Word) (h : i ≠ j) :
    cellGet ((i, v) :: m) j = cellGet m j := by
  simp [cellGet, h]

/-- What a word lists after a write. -/
theorem cellGet_cellPut (m : List WordCell) (i j : Nat) (v : Word) :
    cellGet (cellPut m i v) j = if j = i then some v else cellGet m j := by
  induction m with
  | nil =>
    by_cases h : j = i
    · subst h; simp [cellPut, cellGet]
    · simp [cellPut, cellGet, h, Ne.symm h]
  | cons c m ih =>
    obtain ⟨k, w⟩ := c
    by_cases h : j = i
    · subst h
      simp only [cellPut, if_true]
      split
      · exact cellGet_cons_self ..
      · split
        · exact cellGet_cons_self ..
        · rw [cellGet_cons_ne _ _ _ _ (by omega), ih, if_pos rfl]
    · rw [if_neg h]
      rw [if_neg h] at ih
      simp only [cellPut]
      split
      · rw [cellGet_cons_ne _ _ _ _ (Ne.symm h)]
      · split
        · subst_vars; rw [cellGet_cons_ne _ _ _ _ (Ne.symm h), cellGet_cons_ne _ _ _ _ (Ne.symm h)]
        · simp only [cellGet, ih]

theorem cellGet_none_of_lt (m : List WordCell) (i : Nat) (h : ∀ c ∈ m, i < c.1) :
    cellGet m i = none := by
  induction m with
  | nil => rfl
  | cons c m ih =>
    have hc := h c (by simp)
    simp only [cellGet]
    rw [if_neg (by omega), ih fun x hx => h x (by simp [hx])]

theorem mem_cellPut (m : List WordCell) (i : Nat) (v : Word) (c : WordCell)
    (h : c ∈ cellPut m i v) : c = (i, v) ∨ c ∈ m := by
  induction m with
  | nil => simpa [cellPut] using h
  | cons d m ih =>
    obtain ⟨k, w⟩ := d
    simp only [cellPut] at h
    split at h
    · simpa using h
    · split at h
      · rcases List.mem_cons.1 h with h | h
        · exact .inl h
        · exact .inr (by simp [h])
      · rcases List.mem_cons.1 h with h | h
        · exact .inr (by simp [h])
        · rcases ih h with h | h
          · exact .inl h
          · exact .inr (by simp [h])

theorem rising_cellPut (m : List WordCell) (i : Nat) (v : Word) (h : Rising m) :
    Rising (cellPut m i v) := by
  induction m with
  | nil => simp [cellPut, Rising]
  | cons d m ih =>
    obtain ⟨k, w⟩ := d
    obtain ⟨hd, hm⟩ := List.pairwise_cons.1 h
    simp only [cellPut]
    split
    · rename_i hik
      refine List.pairwise_cons.2 ⟨fun c hc => ?_, h⟩
      rcases List.mem_cons.1 hc with rfl | hc
      · exact hik
      · exact Nat.lt_trans hik (hd c hc)
    · split
      · subst_vars; exact List.pairwise_cons.2 ⟨hd, hm⟩
      · refine List.pairwise_cons.2 ⟨fun c hc => ?_, ih hm⟩
        rcases mem_cellPut m i v c hc with rfl | hc
        · show k < i; omega
        · exact hd c hc

theorem mem_of_mem_cellDel (m : List WordCell) (i : Nat) (c : WordCell) (h : c ∈ cellDel m i) : c ∈ m := by
  induction m with
  | nil => simp [cellDel] at h
  | cons d m ih =>
    obtain ⟨k, w⟩ := d
    simp only [cellDel] at h
    split at h
    · simp [h]
    · rcases List.mem_cons.1 h with h | h
      · simp [h]
      · simp [ih h]

theorem rising_cellDel (m : List WordCell) (i : Nat) (h : Rising m) : Rising (cellDel m i) := by
  induction m with
  | nil => simp [cellDel, Rising]
  | cons d m ih =>
    obtain ⟨k, w⟩ := d
    obtain ⟨hd, hm⟩ := List.pairwise_cons.1 h
    simp only [cellDel]
    split
    · exact hm
    · exact List.pairwise_cons.2 ⟨fun c hc => hd c (mem_of_mem_cellDel m i c hc), ih hm⟩

/-- What a word lists after it is listed no more. -/
theorem cellGet_cellDel (m : List WordCell) (i j : Nat) (h : Rising m) :
    cellGet (cellDel m i) j = if j = i then none else cellGet m j := by
  induction m with
  | nil => simp [cellDel, cellGet]
  | cons d m ih =>
    obtain ⟨k, w⟩ := d
    obtain ⟨hd, hm⟩ := List.pairwise_cons.1 h
    have ih := ih hm
    simp only [cellDel]
    by_cases hk : k = i
    · subst hk
      rw [if_pos rfl]
      by_cases hj : j = k
      · subst hj; rw [if_pos rfl]; exact cellGet_none_of_lt m j hd
      · rw [if_neg hj, cellGet_cons_ne _ _ _ _ (Ne.symm hj)]
    · rw [if_neg hk]
      by_cases hj : j = i
      · subst hj; rw [if_pos rfl, cellGet_cons_ne _ _ _ _ hk, ih, if_pos rfl]
      · rw [if_neg hj] at ih ⊢
        simp only [cellGet, ih]

/-- A listed word is a cell of the memory. -/
theorem mem_of_cellGet (m : List WordCell) (i : Nat) (v : Word) (h : cellGet m i = some v) : (i, v) ∈ m := by
  induction m with
  | nil => simp [cellGet] at h
  | cons d m ih =>
    obtain ⟨k, w⟩ := d
    simp only [cellGet] at h
    split at h
    · subst_vars; simp_all
    · simp [ih h]

/-- In a memory with rising indices a cell is the listed word of its index. -/
theorem cellGet_of_mem (m : List WordCell) (i : Nat) (v : Word) (hm : Rising m) (h : (i, v) ∈ m) :
    cellGet m i = some v := by
  induction m with
  | nil => simp at h
  | cons d m ih =>
    obtain ⟨k, w⟩ := d
    obtain ⟨hd, hr⟩ := List.pairwise_cons.1 hm
    rcases List.mem_cons.1 h with h | h
    · cases h; simp [cellGet]
    · have := hd _ h
      simp only [cellGet]
      rw [if_neg (by simp only at this; omega)]
      exact ih hr h

/-- Two memories with rising indices that list the same words are the same list: the canonical form. -/
theorem rising_ext (m m' : List WordCell) (hm : Rising m) (hm' : Rising m')
    (h : ∀ i, cellGet m i = cellGet m' i) : m = m' := by
  induction m generalizing m' with
  | nil =>
    cases m' with
    | nil => rfl
    | cons d m' => obtain ⟨k, w⟩ := d; simpa [cellGet] using h k
  | cons c m ih =>
    obtain ⟨i, v⟩ := c
    obtain ⟨hc, hr⟩ := List.pairwise_cons.1 hm
    cases m' with
    | nil => simpa [cellGet] using h i
    | cons d m' =>
      obtain ⟨k, w⟩ := d
      obtain ⟨hd, hr'⟩ := List.pairwise_cons.1 hm'
      have hik : i = k := by
        rcases Nat.lt_trichotomy i k with hlt | heq | hgt
        · have := h i
          rw [cellGet_none_of_lt ((k, w) :: m') i] at this
          · simp [cellGet] at this
          · intro x hx
            rcases List.mem_cons.1 hx with rfl | hx
            · exact hlt
            · exact Nat.lt_trans hlt (hd x hx)
        · exact heq
        · have := h k
          rw [cellGet_none_of_lt ((i, v) :: m) k] at this
          · simp [cellGet] at this
          · intro x hx
            rcases List.mem_cons.1 hx with rfl | hx
            · exact hgt
            · exact Nat.lt_trans hgt (hc x hx)
      subst hik
      have hv : v = w := by simpa [cellGet] using h i
      subst hv
      refine congrArg _ (ih m' hr hr' fun j => ?_)
      by_cases hj : i = j
      · subst hj
        rw [cellGet_none_of_lt m i hc, cellGet_none_of_lt m' i hd]
      · simpa [cellGet, hj] using h j

/-! ## Delay-line storage -/

/-- What a delay line's word reads after a write. -/
theorem storeRead_storeWrite (m : List WordCell) (i j : Nat) (v : Word) (h : Rising m) :
    storeRead (storeWrite m i v) j = if j = i then v else storeRead m j := by
  unfold storeWrite storeRead
  split
  · subst_vars; rw [cellGet_cellDel m i j h]; by_cases hj : j = i <;> simp [hj]
  · rw [cellGet_cellPut]; by_cases hj : j = i <;> simp [hj]

theorem rising_storeWrite (m : List WordCell) (i : Nat) (v : Word) (h : Rising m) :
    Rising (storeWrite m i v) := by
  unfold storeWrite
  split
  · exact rising_cellDel m i h
  · exact rising_cellPut m i v h

/-- A write below the capacity keeps a delay line's canonical form. -/
theorem store_wf_storeWrite (cap : Nat) (m : List WordCell) (i : Nat) (v : Word) (h : Store.wf cap m)
    (hi : i < cap) : Store.wf cap (storeWrite m i v) := by
  refine ⟨rising_storeWrite m i v h.1, fun c hc => ?_⟩
  unfold storeWrite at hc
  split at hc
  · exact h.2 c (mem_of_mem_cellDel m i c hc)
  · rename_i hv
    rcases mem_cellPut m i v c hc with rfl | hc
    · exact ⟨hi, hv⟩
    · exact h.2 c hc

theorem store_wf_nil (cap : Nat) : Store.wf cap [] := by simp [Store.wf, Rising]

@[simp] theorem storeRead_nil (i : Nat) : storeRead [] i = Config.zero := rfl

/-! ## DMEM -/

/-- A write below DMEM_WORDS keeps DMEM's canonical form. -/
theorem memory_wf_cellPut (words : Nat) (m : List WordCell) (a : Nat) (v : Word) (h : Memory.wf words m)
    (ha : a < words) : Memory.wf words (cellPut m a v) := by
  refine ⟨rising_cellPut m a v h.1, fun c hc => ?_⟩
  rcases mem_cellPut m a v c hc with rfl | hc
  · exact ha
  · exact h.2 c hc

theorem memory_wf_memWrite (s : State) (a : Nat) (v : Word) (h : Memory.wf s.params.dmemWords s.dmem)
    (ha : a < s.params.dmemWords) :
    Memory.wf (s.memWrite a v).params.dmemWords (s.memWrite a v).dmem :=
  memory_wf_cellPut _ _ a v h ha

/-- A read of a written word gives it and changes nothing. -/
theorem memRead_of_listed (s : State) (a : Nat) (v : Word) (h : cellGet s.dmem a = some v) :
    s.memRead a = (v, s) := by
  simp [State.memRead, h]

/-- Everything a DMEM read can do: give the listed word, or draw the next free value. -/
theorem memRead_cases (s : State) (a : Nat) :
    (∃ v, cellGet s.dmem a = some v ∧ s.memRead a = (v, s)) ∨
    (cellGet s.dmem a = none ∧
      s.memRead a = (Config.dmemDraw s.draws, { s with draws := s.draws + 1 })) := by
  cases h : cellGet s.dmem a with
  | some v => exact .inl ⟨v, rfl, memRead_of_listed s a v h⟩
  | none => exact .inr ⟨rfl, by simp [State.memRead, h]⟩

/-- A DMEM read changes nothing but, perhaps, the number of free values drawn. -/
theorem memRead_state (s : State) (a : Nat) : (s.memRead a).2 = { s with draws := (s.memRead a).2.draws } := by
  rcases memRead_cases s a with ⟨v, -, h⟩ | ⟨-, h⟩ <;> rw [h]

/-- What a DMEM word lists after a write. -/
theorem cellGet_memWrite (s : State) (a x : Nat) (v : Word) :
    cellGet (s.memWrite a v).dmem x = if x = a then some v else cellGet s.dmem x :=
  cellGet_cellPut s.dmem a x v

end Sys2Proof.Machine
end

