-- ==== Sys2Proof/Laws/State.lean ====
section
/-! SUPPORT. One lemma per field per named update of State: what the update leaves, and what it writes. -/

namespace Sys2Proof.Machine

@[simp] theorem raise_params (s : State) (c : Cause) (op : BitVec 8) : (s.raise c op).params = s.params := rfl
@[simp] theorem raise_cb (s : State) (c : Cause) (op : BitVec 8) : (s.raise c op).cb = s.cb := rfl
@[simp] theorem raise_cf (s : State) (c : Cause) (op : BitVec 8) : (s.raise c op).cf = s.cf := rfl
@[simp] theorem raise_sm (s : State) (c : Cause) (op : BitVec 8) : (s.raise c op).sm = s.sm := rfl
@[simp] theorem raise_opa (s : State) (c : Cause) (op : BitVec 8) : (s.raise c op).opa = s.opa := rfl
@[simp] theorem raise_opb (s : State) (c : Cause) (op : BitVec 8) : (s.raise c op).opb = s.opb := rfl
@[simp] theorem raise_res (s : State) (c : Cause) (op : BitVec 8) : (s.raise c op).res = s.res := rfl
@[simp] theorem raise_ie (s : State) (c : Cause) (op : BitVec 8) : (s.raise c op).ie = s.ie := rfl
@[simp] theorem raise_dmem (s : State) (c : Cause) (op : BitVec 8) : (s.raise c op).dmem = s.dmem := rfl
@[simp] theorem raise_draws (s : State) (c : Cause) (op : BitVec 8) : (s.raise c op).draws = s.draws := rfl
@[simp] theorem raise_pending (s : State) (c : Cause) (op : BitVec 8) : (s.raise c op).pending = s.pending := rfl
@[simp] theorem raise_hostReads (s : State) (c : Cause) (op : BitVec 8) : (s.raise c op).hostReads = s.hostReads := rfl

@[simp] theorem memWrite_params (s : State) (a : Nat) (v : Word) : (s.memWrite a v).params = s.params := rfl
@[simp] theorem memWrite_cb (s : State) (a : Nat) (v : Word) : (s.memWrite a v).cb = s.cb := rfl
@[simp] theorem memWrite_cf (s : State) (a : Nat) (v : Word) : (s.memWrite a v).cf = s.cf := rfl
@[simp] theorem memWrite_sm (s : State) (a : Nat) (v : Word) : (s.memWrite a v).sm = s.sm := rfl
@[simp] theorem memWrite_opa (s : State) (a : Nat) (v : Word) : (s.memWrite a v).opa = s.opa := rfl
@[simp] theorem memWrite_opb (s : State) (a : Nat) (v : Word) : (s.memWrite a v).opb = s.opb := rfl
@[simp] theorem memWrite_res (s : State) (a : Nat) (v : Word) : (s.memWrite a v).res = s.res := rfl
@[simp] theorem memWrite_status (s : State) (a : Nat) (v : Word) : (s.memWrite a v).status = s.status := rfl
@[simp] theorem memWrite_ie (s : State) (a : Nat) (v : Word) : (s.memWrite a v).ie = s.ie := rfl
@[simp] theorem memWrite_draws (s : State) (a : Nat) (v : Word) : (s.memWrite a v).draws = s.draws := rfl
@[simp] theorem memWrite_pending (s : State) (a : Nat) (v : Word) : (s.memWrite a v).pending = s.pending := rfl
@[simp] theorem memWrite_hostReads (s : State) (a : Nat) (v : Word) : (s.memWrite a v).hostReads = s.hostReads := rfl
@[simp] theorem memWrite_faultLog (s : State) (a : Nat) (v : Word) : (s.memWrite a v).faultLog = s.faultLog := rfl

@[simp] theorem memRead_params (s : State) (a : Nat) : (s.memRead a).2.params = s.params := by unfold State.memRead; split <;> rfl
@[simp] theorem memRead_cb (s : State) (a : Nat) : (s.memRead a).2.cb = s.cb := by unfold State.memRead; split <;> rfl
@[simp] theorem memRead_cf (s : State) (a : Nat) : (s.memRead a).2.cf = s.cf := by unfold State.memRead; split <;> rfl
@[simp] theorem memRead_sm (s : State) (a : Nat) : (s.memRead a).2.sm = s.sm := by unfold State.memRead; split <;> rfl
@[simp] theorem memRead_opa (s : State) (a : Nat) : (s.memRead a).2.opa = s.opa := by unfold State.memRead; split <;> rfl
@[simp] theorem memRead_opb (s : State) (a : Nat) : (s.memRead a).2.opb = s.opb := by unfold State.memRead; split <;> rfl
@[simp] theorem memRead_res (s : State) (a : Nat) : (s.memRead a).2.res = s.res := by unfold State.memRead; split <;> rfl
@[simp] theorem memRead_status (s : State) (a : Nat) : (s.memRead a).2.status = s.status := by unfold State.memRead; split <;> rfl
@[simp] theorem memRead_ie (s : State) (a : Nat) : (s.memRead a).2.ie = s.ie := by unfold State.memRead; split <;> rfl
@[simp] theorem memRead_dmem (s : State) (a : Nat) : (s.memRead a).2.dmem = s.dmem := by unfold State.memRead; split <;> rfl
@[simp] theorem memRead_pending (s : State) (a : Nat) : (s.memRead a).2.pending = s.pending := by unfold State.memRead; split <;> rfl
@[simp] theorem memRead_hostReads (s : State) (a : Nat) : (s.memRead a).2.hostReads = s.hostReads := by unfold State.memRead; split <;> rfl
@[simp] theorem memRead_faultLog (s : State) (a : Nat) : (s.memRead a).2.faultLog = s.faultLog := by unfold State.memRead; split <;> rfl

@[simp] theorem setChannel_params (s : State) (c : BitVec 4) (ch : SmChannel) : (s.setChannel c ch).params = s.params := rfl
@[simp] theorem setChannel_cb (s : State) (c : BitVec 4) (ch : SmChannel) : (s.setChannel c ch).cb = s.cb := rfl
@[simp] theorem setChannel_cf (s : State) (c : BitVec 4) (ch : SmChannel) : (s.setChannel c ch).cf = s.cf := rfl
@[simp] theorem setChannel_opa (s : State) (c : BitVec 4) (ch : SmChannel) : (s.setChannel c ch).opa = s.opa := rfl
@[simp] theorem setChannel_opb (s : State) (c : BitVec 4) (ch : SmChannel) : (s.setChannel c ch).opb = s.opb := rfl
@[simp] theorem setChannel_res (s : State) (c : BitVec 4) (ch : SmChannel) : (s.setChannel c ch).res = s.res := rfl
@[simp] theorem setChannel_status (s : State) (c : BitVec 4) (ch : SmChannel) : (s.setChannel c ch).status = s.status := rfl
@[simp] theorem setChannel_ie (s : State) (c : BitVec 4) (ch : SmChannel) : (s.setChannel c ch).ie = s.ie := rfl
@[simp] theorem setChannel_dmem (s : State) (c : BitVec 4) (ch : SmChannel) : (s.setChannel c ch).dmem = s.dmem := rfl
@[simp] theorem setChannel_draws (s : State) (c : BitVec 4) (ch : SmChannel) : (s.setChannel c ch).draws = s.draws := rfl
@[simp] theorem setChannel_pending (s : State) (c : BitVec 4) (ch : SmChannel) : (s.setChannel c ch).pending = s.pending := rfl
@[simp] theorem setChannel_hostReads (s : State) (c : BitVec 4) (ch : SmChannel) : (s.setChannel c ch).hostReads = s.hostReads := rfl
@[simp] theorem setChannel_faultLog (s : State) (c : BitVec 4) (ch : SmChannel) : (s.setChannel c ch).faultLog = s.faultLog := rfl

@[simp] theorem writeStatus_params (s : State) (v : Word) : (s.writeStatus v).params = s.params := rfl
@[simp] theorem writeStatus_cb (s : State) (v : Word) : (s.writeStatus v).cb = s.cb := rfl
@[simp] theorem writeStatus_cf (s : State) (v : Word) : (s.writeStatus v).cf = s.cf := rfl
@[simp] theorem writeStatus_sm (s : State) (v : Word) : (s.writeStatus v).sm = s.sm := rfl
@[simp] theorem writeStatus_opa (s : State) (v : Word) : (s.writeStatus v).opa = s.opa := rfl
@[simp] theorem writeStatus_opb (s : State) (v : Word) : (s.writeStatus v).opb = s.opb := rfl
@[simp] theorem writeStatus_res (s : State) (v : Word) : (s.writeStatus v).res = s.res := rfl
@[simp] theorem writeStatus_ie (s : State) (v : Word) : (s.writeStatus v).ie = s.ie := rfl
@[simp] theorem writeStatus_dmem (s : State) (v : Word) : (s.writeStatus v).dmem = s.dmem := rfl
@[simp] theorem writeStatus_draws (s : State) (v : Word) : (s.writeStatus v).draws = s.draws := rfl
@[simp] theorem writeStatus_pending (s : State) (v : Word) : (s.writeStatus v).pending = s.pending := rfl
@[simp] theorem writeStatus_hostReads (s : State) (v : Word) : (s.writeStatus v).hostReads = s.hostReads := rfl
@[simp] theorem writeStatus_faultLog (s : State) (v : Word) : (s.writeStatus v).faultLog = s.faultLog := rfl

@[simp] theorem recordRead_params (s : State) (v : Word) : (s.recordRead v).params = s.params := rfl
@[simp] theorem recordRead_cb (s : State) (v : Word) : (s.recordRead v).cb = s.cb := rfl
@[simp] theorem recordRead_cf (s : State) (v : Word) : (s.recordRead v).cf = s.cf := rfl
@[simp] theorem recordRead_sm (s : State) (v : Word) : (s.recordRead v).sm = s.sm := rfl
@[simp] theorem recordRead_opa (s : State) (v : Word) : (s.recordRead v).opa = s.opa := rfl
@[simp] theorem recordRead_opb (s : State) (v : Word) : (s.recordRead v).opb = s.opb := rfl
@[simp] theorem recordRead_res (s : State) (v : Word) : (s.recordRead v).res = s.res := rfl
@[simp] theorem recordRead_status (s : State) (v : Word) : (s.recordRead v).status = s.status := rfl
@[simp] theorem recordRead_ie (s : State) (v : Word) : (s.recordRead v).ie = s.ie := rfl
@[simp] theorem recordRead_dmem (s : State) (v : Word) : (s.recordRead v).dmem = s.dmem := rfl
@[simp] theorem recordRead_draws (s : State) (v : Word) : (s.recordRead v).draws = s.draws := rfl
@[simp] theorem recordRead_pending (s : State) (v : Word) : (s.recordRead v).pending = s.pending := rfl
@[simp] theorem recordRead_faultLog (s : State) (v : Word) : (s.recordRead v).faultLog = s.faultLog := rfl

@[simp] theorem raise_faultLog (s : State) (c : Cause) (op : BitVec 8) :
    (s.raise c op).faultLog = { cause := c, fop := if c = .bus then 0#8 else op } :: s.faultLog := rfl
@[simp] theorem raise_status (s : State) (c : Cause) (op : BitVec 8) :
    (s.raise c op).status = s.status.record c (if c = .bus then 0#8 else op) := rfl
@[simp] theorem memWrite_dmem (s : State) (a : Nat) (v : Word) : (s.memWrite a v).dmem = cellPut s.dmem a v := rfl
@[simp] theorem setChannel_sm (s : State) (c : BitVec 4) (ch : SmChannel) :
    (s.setChannel c ch).sm = s.sm.set c.toNat ch := rfl
@[simp] theorem writeStatus_status (s : State) (v : Word) : (s.writeStatus v).status = s.status.hostWrite v := rfl
@[simp] theorem recordRead_hostReads (s : State) (v : Word) : (s.recordRead v).hostReads = v :: s.hostReads := rfl

/-- A check that passes. -/
@[simp] theorem check_true (s : State) (c : Cause) (op : BitVec 8) (t : State) : s.check true c op t = t := rfl
/-- A check that fails. -/
@[simp] theorem check_false (s : State) (c : Cause) (op : BitVec 8) (t : State) :
    s.check false c op t = s.raise c op := rfl

/-- Everything a check can do. -/
theorem check_cases (s : State) (ok : Bool) (c : Cause) (op : BitVec 8) (t : State) :
    (ok = true ∧ s.check ok c op t = t) ∨ (ok = false ∧ s.check ok c op t = s.raise c op) := by
  cases ok <;> simp

/-- A smoother command on a channel the instance has. -/
theorem withChannel_some (s : State) (c : BitVec 4) (op : BitVec 8) (f : SmChannel → State) (ch : SmChannel)
    (h : s.sm[c.toNat]? = some ch) : s.withChannel c op f = f ch := by
  simp [State.withChannel, h]

/-- Everything a smoother command's channel selection can do. -/
theorem withChannel_cases (s : State) (c : BitVec 4) (op : BitVec 8) (f : SmChannel → State) :
    (∃ ch, s.sm[c.toNat]? = some ch ∧ s.withChannel c op f = f ch) ∨
    (s.sm[c.toNat]? = none ∧ s.withChannel c op f = s.raise .reservedField op) := by
  cases h : s.sm[c.toNat]? with
  | some ch => exact .inl ⟨ch, rfl, withChannel_some s c op f ch h⟩
  | none => exact .inr ⟨rfl, by simp [State.withChannel, h]⟩

end Sys2Proof.Machine
end

