-- ==== Sys2Proof/Laws/Ops.lean ====
section
/-! SUPPORT. The index arithmetic of the delay lines, NP2 and the block loop. -/

namespace Sys2Proof.Machine

theorem isPow2_two_pow (k : Nat) : IsPow2 (2 ^ k) := by simp [IsPow2, Nat.log2_two_pow]

theorem isPow2_pos (cap : Nat) (h : IsPow2 cap) : 0 < cap := by
  rw [h]; exact Nat.two_pow_pos _

/-- For a power of two the mask is the remainder (10_state.md R23, 40_cbuf.md R102). -/
theorem adv_eq_mod (cap c : Nat) (h : IsPow2 cap) : adv cap c = (c + 1) % cap := by
  unfold adv
  rw [h, Nat.and_two_pow_sub_one_eq_mod]

theorem adv_lt (cap c : Nat) (h : IsPow2 cap) : adv cap c < cap := by
  rw [adv_eq_mod cap c h]; exact Nat.mod_lt _ (isPow2_pos cap h)

/-- Over its domain the single correction is the remainder (00_scope.md R14). -/
theorem didx_eq_mod (wc off cap : Nat) (hw : wc < cap) (ho : off ≤ cap) :
    didx wc off cap = (wc + cap - off) % cap := by
  unfold didx
  simp only
  split
  · rw [Nat.mod_eq_of_lt (by omega)]; omega
  · have : wc + cap - off = wc - off + cap := by omega
    rw [this, Nat.add_mod_right, Nat.mod_eq_of_lt (by omega)]; omega

theorem didx_lt (wc off cap : Nat) (hw : wc < cap) (ho : off ≤ cap) : didx wc off cap < cap := by
  rw [didx_eq_mod wc off cap hw ho]; exact Nat.mod_lt _ (by omega)

/-- NP2 answers a power of two. -/
theorem isPow2_np2 (n : Nat) : IsPow2 (np2 n) := by
  unfold np2
  split
  · exact isPow2_two_pow 0
  · exact isPow2_two_pow _

/-- NP2 answers at least its operand. -/
theorem le_np2 (n : Nat) : n ≤ np2 n := by
  unfold np2
  split
  · assumption
  · have := Nat.lt_log2_self (n := n - 1)
    omega

/-- NP2 answers the least such power of two. -/
theorem np2_le (n j : Nat) (h : n ≤ 2 ^ j) : np2 n ≤ 2 ^ j := by
  unfold np2
  split
  · exact Nat.one_le_two_pow
  · have h1 : Nat.log2 (n - 1) < j := (Nat.log2_lt (by omega)).2 (by omega)
    exact Nat.pow_le_pow_right (by decide) h1

/-- An initial stretch of a loop, and then its last element. -/
theorem blockLoop_succ {σ : Type} (body : Nat → σ → σ) (n i : Nat) (x : σ) :
    blockLoop body (n + 1) i x = body (i + n) (blockLoop body n i x) := by
  induction n generalizing i x with
  | zero => rfl
  | succ n ih =>
    rw [blockLoop, ih (i + 1) (body i x)]
    show body (i + 1 + n) (blockLoop body (n + 1) i x) = _
    congr 1; omega

/-- What every element keeps, the loop keeps: a claim indexed by the number of elements done. -/
theorem blockLoop_induct {σ : Type} (P : Nat → σ → Prop) (body : Nat → σ → σ) (n : Nat) (x : σ)
    (h0 : P 0 x) (hs : ∀ i y, i < n → P i y → P (i + 1) (body i y)) : P n (blockLoop body n 0 x) := by
  induction n with
  | zero => exact h0
  | succ n ih =>
    rw [blockLoop_succ, Nat.zero_add]
    exact hs n _ (by omega) (ih fun i y hi hy => hs i y (by omega) hy)

/-- A block that fits, as a comparison. -/
theorem blockFits_iff (s : State) (n : BitVec 20) :
    s.blockFits n = true ↔ s.opb.toNat + n.toNat ≤ s.params.dmemWords :=
   decide_eq_true_iff

theorem delayInRange_iff (dl : Int) (cap : Nat) : delayInRange dl cap = true ↔ 0 ≤ dl ∧ dl < (cap : Int) := by
  simp [delayInRange]

end Sys2Proof.Machine
end

