-- ==== Sys2Proof/Laws/PerInstr.lean ====
section
/-! SUPPORT. One lemma per command about its encoding: the fields of its command word are its OP, CH and LEN,
with RSV 0 (30_encoding.md R80, R92). -/

namespace Sys2Proof

/-- The command word as a number. -/
theorem enc_toNat (op : BitVec 8) (c : BitVec 4) (n : BitVec 20) :
    (enc op c n).toNat = n.toNat * 2^12 + c.toNat * 2^8 + op.toNat := by
  have h1 := op.isLt
  have h2 := c.isLt
  have h3 := n.isLt
  unfold enc
  rw [BitVec.or_assoc]
  have e : c.setWidth 64 <<< 8 ||| op.setWidth 64 = BitVec.ofNat 64 (c.toNat * 2^8 + op.toNat) := by
    apply BitVec.eq_of_toNat_eq
    simp only [BitVec.toNat_or, BitVec.toNat_shiftLeft, BitVec.toNat_setWidth, BitVec.toNat_ofNat]
    rw [Nat.mod_eq_of_lt (a := c.toNat) (by omega), Nat.mod_eq_of_lt (a := op.toNat) (by omega), Nat.shiftLeft_eq,
      Nat.mod_eq_of_lt (a := c.toNat * 2^8) (by omega), Nat.mod_eq_of_lt (by omega), ← Nat.shiftLeft_eq,
      Nat.shiftLeft_add_eq_or_of_lt h1]
  rw [e]
  simp only [BitVec.toNat_or, BitVec.toNat_shiftLeft, BitVec.toNat_setWidth, BitVec.toNat_ofNat]
  rw [Nat.mod_eq_of_lt (a := n.toNat) (by omega), Nat.mod_eq_of_lt (a := _ + _) (by omega), Nat.shiftLeft_eq,
      Nat.mod_eq_of_lt (a := n.toNat * 2^12) (by omega), ← Nat.shiftLeft_eq n.toNat, ← Nat.shiftLeft_add_eq_or_of_lt (by omega)]
  omega

/-- The fields of a word put together by `enc`. -/
theorem fields_enc (op : BitVec 8) (c : BitVec 4) (n : BitVec 20) :
    fieldOp (enc op c n) = op ∧ fieldCh (enc op c n) = c ∧ fieldLen (enc op c n) = n ∧
      fieldRsv (enc op c n) = 0#32 := by
  have h := enc_toNat op c n
  have h1 := op.isLt
  have h2 := c.isLt
  have h3 := n.isLt
  refine ⟨?_, ?_, ?_, ?_⟩ <;> apply BitVec.eq_of_toNat_eq <;>
    simp only [fieldOp, fieldCh, fieldLen, fieldRsv, BitVec.extractLsb'_toNat, h, Nat.shiftRight_eq_div_pow] <;>
    (try simp only [BitVec.toNat_ofNat]) <;> omega

namespace Laws.Fields

/-- The command word of `i` has `i`'s OP, CH and LEN in their fields, 0 where `i` has none, and RSV 0. -/
def Statement (i : Instr) : Prop :=
  fieldOp (encode i) = i.op ∧ fieldCh (encode i) = i.channel?.getD 0#4 ∧
  fieldLen (encode i) = i.len?.getD 0#20 ∧ fieldRsv (encode i) = 0#32

theorem cbResize : Statement .cbResize := fields_enc _ _ _
theorem cbPush : Statement .cbPush := fields_enc _ _ _
theorem cbPushBlk (n : BitVec 20) : Statement (.cbPushBlk n) := fields_enc _ _ _
theorem cbPull : Statement .cbPull := fields_enc _ _ _
theorem cbPullBlk (n : BitVec 20) : Statement (.cbPullBlk n) := fields_enc _ _ _
theorem cbPullBlkAdd (n : BitVec 20) : Statement (.cbPullBlkAdd n) := fields_enc _ _ _
theorem cbPullDly : Statement .cbPullDly := fields_enc _ _ _
theorem cbPullDlyBlk (n : BitVec 20) : Statement (.cbPullDlyBlk n) := fields_enc _ _ _
theorem cbPullDlyBlkI (n : BitVec 20) : Statement (.cbPullDlyBlkI n) := fields_enc _ _ _
theorem cbModDlyBlk (n : BitVec 20) : Statement (.cbModDlyBlk n) := fields_enc _ _ _
theorem cbModDlyBlkD (n : BitVec 20) : Statement (.cbModDlyBlkD n) := fields_enc _ _ _
theorem cbWrDist : Statement .cbWrDist := fields_enc _ _ _
theorem cbRstRd : Statement .cbRstRd := fields_enc _ _ _
theorem cfProc : Statement .cfProc := fields_enc _ _ _
theorem cfProcBlk (n : BitVec 20) : Statement (.cfProcBlk n) := fields_enc _ _ _
theorem cfSetFreq : Statement .cfSetFreq := fields_enc _ _ _
theorem cfSetDly : Statement .cfSetDly := fields_enc _ _ _
theorem cfSetFbk : Statement .cfSetFbk := fields_enc _ _ _
theorem cfInitFs : Statement .cfInitFs := fields_enc _ _ _
theorem cfSetTopo : Statement .cfSetTopo := fields_enc _ _ _
theorem smInit (c : BitVec 4) : Statement (.smInit c) := fields_enc _ _ _
theorem smSetTime (c : BitVec 4) : Statement (.smSetTime c) := fields_enc _ _ _
theorem smSetTgt (c : BitVec 4) : Statement (.smSetTgt c) := fields_enc _ _ _
theorem smNext (c : BitVec 4) : Statement (.smNext c) := fields_enc _ _ _
theorem smCur (c : BitVec 4) : Statement (.smCur c) := fields_enc _ _ _
theorem smNextBlk (c : BitVec 4) (n : BitVec 20) : Statement (.smNextBlk c n) := fields_enc _ _ _

end Laws.Fields

end Sys2Proof
end

