-- ==== Sys2Proof/Laws/Step.lean ====
section
/-! SUPPORT. Everything a step can do, said once. -/

namespace Sys2Proof.Machine

/-- Raising a fault leaves the state of the fault rule (60_exceptions.md R231); a BUS fault is raised with OP 0. -/
theorem raise_eq_faulted (s : State) (c : Cause) (op : BitVec 8) (h : c = .bus → op = 0#8) :
    s.raise c op = s.faulted c op := by
  have e : (if c = .bus then 0#8 else op) = op := by
    split
    · next hc => exact (h hc).symm
    · rfl
  simp [State.raise, State.faulted, Status.record, e]

/-- A step with nothing pending holds the state. -/
theorem step_idle (s : State) (h : s.pending = []) : step s = .next s := by
  simp [step, advance, h]

/-- Everything a step with a pending event can do, guards included. -/
theorem step_cases (s : State) (e : HostEvent) (rest : List HostEvent) (h : s.pending = e :: rest) :
    (e = .reset ∧ step s = .next (State.hardReset { s with pending := rest })) ∨
    (∃ a, e = .access a ∧
      ((a.kind = .read ∧ step s = .next (State.hostRead { s with pending := rest } a)) ∨
       ∃ v, a.kind = .write v ∧
        ((accessTarget s.params a = none ∧ step s = .next (State.raise .bus 0#8 { s with pending := rest })) ∨
         (accessTarget s.params a = some .cmd ∧ step s = runCommand v { s with pending := rest }) ∨
         ∃ r, accessTarget s.params a = some r ∧ r ≠ .cmd ∧
          step s = .next (State.writeReg { s with pending := rest } r v)))) := by
  cases e with
  | reset => exact .inl ⟨rfl, by simp [step, advance, h, runEvent]⟩
  | access a =>
    refine .inr ⟨a, rfl, ?_⟩
    have hs : step s = runAccess a { s with pending := rest } := by simp [step, advance, h, runEvent]
    rw [hs]
    unfold runAccess
    cases hk : a.kind with
    | read => exact .inl ⟨rfl, rfl⟩
    | write v =>
      refine .inr ⟨v, rfl, ?_⟩
      simp only [hostWrite]
      cases ht : accessTarget s.params a with
      | none => exact .inl ⟨rfl, by simp⟩
      | some r =>
        refine .inr ?_
        by_cases hr : r = .cmd
        · subst hr
          exact .inl ⟨rfl, rfl⟩
        · refine .inr ⟨r, rfl, hr, ?_⟩
          cases r <;> first | rfl | exact absurd rfl hr

/-- Everything a CMD write can do: run the command its word selects, or fault with the cause and OP of the word. -/
theorem runCommand_cases (w : Word) (s : State) :
    (∃ i, decode s.params.nsm w = .ok i ∧ runCommand w s = exec i s) ∨
    (∃ e, decode s.params.nsm w = .error e ∧ runCommand w s = .next (s.raise (rejectCause e) (fieldOp w))) := by
  unfold runCommand
  cases decode s.params.nsm w with
  | ok i => exact .inl ⟨i, rfl, rfl⟩
  | error e => exact .inr ⟨e, rfl, rfl⟩

end Sys2Proof.Machine
end

