-- ==== Sys2Proof/Tests/Slice0.lean ====
section
/-! SUPPORT. The model's own tests: the smoke test of WellFormed, every command's decoding shown by a word written
out from the field table of 30_encoding.md R80 and the opcode map R89, one or two single-command tests a
command with values from 95_test_vectors.md and the rules' examples, and for every statement that has
hypotheses a concrete state that meets them. -/

namespace Sys2Proof.Tests

open Sys2Proof Sys2Proof.Machine

/-! ## Well-formedness -/

theorem test_wellFormed_accepts_last_channel : (Instr.smNext 1#4).wellFormed 2 = true := by decide
theorem test_wellFormed_refuses_smNext : (Instr.smNext 2#4).wellFormed 2 = false := by decide
theorem test_wellFormed_refuses_smNextBlk : (Instr.smNextBlk 15#4 1#20).wellFormed 2 = false := by decide
theorem test_wellFormed_refuses_smInit : (Instr.smInit 2#4).wellFormed 2 = false := by decide
theorem test_wellFormed_refuses_smSetTime : (Instr.smSetTime 3#4).wellFormed 2 = false := by decide
theorem test_wellFormed_refuses_smSetTgt : (Instr.smSetTgt 8#4).wellFormed 2 = false := by decide
theorem test_wellFormed_refuses_smCur : (Instr.smCur 2#4).wellFormed 2 = false := by decide

/-! ## Decoding: RSV 63:32, LEN 31:12, CH 11:8, OP 7:0, put together field by field -/

/-- A word of the four fields of R80, most significant first. -/
def word (rsv : BitVec 32) (len : BitVec 20) (ch : BitVec 4) (op : BitVec 8) : Word := rsv ++ (len ++ (ch ++ op))

/-- What an instance with two channels decodes a word to. -/
def dec (w : Word) : Option Instr := (decode 2 w).toOption

theorem test_decode_cbResize : dec (word 0#32 0#20 0b0000#4 0b00000001#8) = some .cbResize := by decide
theorem test_decode_cbPush : dec (word 0#32 0#20 0b0000#4 0b00000010#8) = some .cbPush := by decide
theorem test_decode_cbPushBlk : dec (word 0#32 10#20 0b0000#4 0b00000011#8) = some (.cbPushBlk 10#20) := by decide
theorem test_decode_cbPull : dec (word 0#32 0#20 0b0000#4 0b00000100#8) = some .cbPull := by decide
theorem test_decode_cbPullBlk : dec (word 0#32 1#20 0b0000#4 0b00000101#8) = some (.cbPullBlk 1#20) := by decide
theorem test_decode_cbPullBlkAdd :
    dec (word 0#32 0xFFFFF#20 0b0000#4 0b00000110#8) = some (.cbPullBlkAdd 1048575#20) := by decide
theorem test_decode_cbPullDly : dec (word 0#32 0#20 0b0000#4 0b00000111#8) = some .cbPullDly := by decide
theorem test_decode_cbPullDlyBlk : dec (word 0#32 2#20 0b0000#4 0b00001000#8) = some (.cbPullDlyBlk 2#20) := by decide
theorem test_decode_cbPullDlyBlkI : dec (word 0#32 2#20 0b0000#4 0b00001001#8) = some (.cbPullDlyBlkI 2#20) := by decide
theorem test_decode_cbModDlyBlk : dec (word 0#32 0#20 0b0000#4 0b00001010#8) = some (.cbModDlyBlk 0#20) := by decide
theorem test_decode_cbModDlyBlkD : dec (word 0#32 3#20 0b0000#4 0b00001011#8) = some (.cbModDlyBlkD 3#20) := by decide
theorem test_decode_cbWrDist : dec (word 0#32 0#20 0b0000#4 0b00001100#8) = some .cbWrDist := by decide
theorem test_decode_cbRstRd : dec (word 0#32 0#20 0b0000#4 0b00001101#8) = some .cbRstRd := by decide
theorem test_decode_cfProc : dec (word 0#32 0#20 0b0000#4 0b00100000#8) = some .cfProc := by decide
theorem test_decode_cfProcBlk : dec (word 0#32 0x80000#20 0b0000#4 0b00100001#8) = some (.cfProcBlk 524288#20) := by decide
theorem test_decode_cfSetFreq : dec (word 0#32 0#20 0b0000#4 0b00100010#8) = some .cfSetFreq := by decide
theorem test_decode_cfSetDly : dec (word 0#32 0#20 0b0000#4 0b00100011#8) = some .cfSetDly := by decide
theorem test_decode_cfSetFbk : dec (word 0#32 0#20 0b0000#4 0b00100100#8) = some .cfSetFbk := by decide
theorem test_decode_cfInitFs : dec (word 0#32 0#20 0b0000#4 0b00100101#8) = some .cfInitFs := by decide
theorem test_decode_cfSetTopo : dec (word 0#32 0#20 0b0000#4 0b00100110#8) = some .cfSetTopo := by decide
theorem test_decode_smInit : dec (word 0#32 0#20 0b0001#4 0b00110000#8) = some (.smInit 1#4) := by decide
theorem test_decode_smSetTime : dec (word 0#32 0#20 0b0001#4 0b00110001#8) = some (.smSetTime 1#4) := by decide
theorem test_decode_smSetTgt : dec (word 0#32 0#20 0b0000#4 0b00110010#8) = some (.smSetTgt 0#4) := by decide
theorem test_decode_smNext : dec (word 0#32 0#20 0b0001#4 0b00110011#8) = some (.smNext 1#4) := by decide
theorem test_decode_smCur : dec (word 0#32 0#20 0b0001#4 0b00110100#8) = some (.smCur 1#4) := by decide
/-- R94. -/
theorem test_decode_smNextBlk : dec 0x001E1135#64 = some (.smNextBlk 1#4 481#20) := by decide
theorem test_decode_rejects_reserved :
    decode 2 (word 1#32 0#20 0#4 0x01#8) = .error .reservedField ∧
    decode 2 (word 0#32 1#20 0#4 0x01#8) = .error .reservedField ∧
    decode 2 (word 0#32 0#20 1#4 0x01#8) = .error .reservedField ∧
    decode 2 (word 0#32 0#20 2#4 0x30#8) = .error .reservedField := by decide
theorem test_decode_rejects_illegal :
    decode 2 0#64 = .error .illegalOp ∧ decode 2 0x0E#64 = .error .illegalOp ∧
    decode 2 0x27#64 = .error .illegalOp ∧ decode 2 0xFFFFFFFF00000036#64 = .error .illegalOp := by decide
theorem test_decodeTableWord : decodeTableWord 64 0x135 = some (.smNextBlk 1#4 0#20) := by decide

/-! ## Single commands -/

/-- Delay lines of at most 128 samples, 16 DMEM words, two channels. -/
def inst : Params := { maxCapLog2 := 7, dmemWords := 16, nsm := 2 }

def fresh : State := State.resetWith inst

/-- After CB.RESIZE 3 and pushes of 1.0 to 6.0 (vector CB18), with DMEM[0..1] = 2.0, 0.5. -/
def loaded : State :=
  { fresh with
    cb := { cap := 4, wc := 2, rc := 0,
            store := [(0, 0x4010000000000000#64), (1, 0x4014000000000000#64), (2, 0x4018000000000000#64),
                      (3, 0x4008000000000000#64)] }
    dmem := [(0, 0x4000000000000000#64), (1, 0x3FE0000000000000#64)] }

/-- A comb with delay 0.5 and intensity 0.5 in feedback mode (vector CF7). -/
def comb : State :=
  { fresh with
    cf := { fresh.cf with
            delay := 0x3FE0000000000000#64, freq := 0x40F7700000000000#64, k := 0x3FE0000000000000#64, fb := true } }

/-- Channel 1 in a ramp of four steps from 0.0 to 1.0 (the example of R208). -/
def ramp : SmChannel :=
  { fs := 0x408F400000000000#64, cur := 0#64, tgt := 0x3FF0000000000000#64, steps := 4#32,
    inc := 0x3FD0000000000000#64, rem := 4#32 }

def ramping : State := { fresh with sm := [SmChannel.reset, ramp] }

def after (i : Instr) (s : State) : State :=
  match exec i s with
  | .next t => t
  | .fault _ => s
  | .refused _ => s

/-- The state after a command given with OPA and OPB. -/
def run (i : Instr) (opa opb : Word) (s : State) : State := after i { s with opa := opa, opb := opb }

/-- R103, example. -/
theorem test_cbResize : (run .cbResize 100#64 0#64 loaded).cb = { cap := 128, wc := 0, rc := 0, store := [] } := by decide
/-- Vectors CB3, CB4. -/
theorem test_cbResize_faults :
    (run .cbResize 129#64 0#64 fresh).status.toWord = 0x161#64 ∧
    (run .cbResize 0xFFFFFFFFFFFFFFFB#64 0#64 fresh).status.toWord = 0x141#64 := by decide
/-- Vector CB31: a signalling NaN is stored as it is. -/
theorem test_cbPush :
    (run .cbPush 0x7FF4000000000001#64 0#64 loaded).cb.wc = 3 ∧
    storeRead (run .cbPush 0x7FF4000000000001#64 0#64 loaded).cb.store 3 = 0x7FF4000000000001#64 := by decide
theorem test_cbPushBlk_wraps :
    (run (.cbPushBlk 2#20) 0#64 0#64 { loaded with cb := { loaded.cb with wc := 3 } }).cb.wc = 1 ∧
    storeRead (run (.cbPushBlk 2#20) 0#64 0#64 { loaded with cb := { loaded.cb with wc := 3 } }).cb.store 0 =
      0x4000000000000000#64 := by decide
/-- Vectors CB25, CB26. -/
theorem test_cbPushBlk_range :
    (run (.cbPushBlk 1#20) 0#64 16#64 fresh).status.toWord = 0x331#64 ∧
    (run (.cbPushBlk 0#20) 0#64 16#64 fresh).status.toWord = 0#64 := by decide
/-- Vector CB21. -/
theorem test_cbPull : (after .cbPull loaded).res = 0x4014000000000000#64 ∧ (after .cbPull loaded).cb.rc = 1 := by decide
/-- Vector CB21 in block form. -/
theorem test_cbPullBlk :
    (run (.cbPullBlk 2#20) 0#64 8#64 loaded).dmem =
      loaded.dmem ++ [(8, 0x4014000000000000#64), (9, 0x4018000000000000#64)] ∧
    (run (.cbPullBlk 2#20) 0#64 8#64 loaded).cb.rc = 2 := by decide
/-- R108: -0.0 and +0.0 sum to +0.0; vector CB23 the other way round. -/
theorem test_cbPullBlkAdd :
    (run (.cbPullBlkAdd 1#20) 0#64 0#64 { fresh with dmem := [(0, 0x8000000000000000#64)] }).dmem = [(0, 0#64)] ∧
    (run (.cbPullBlkAdd 2#20) 0#64 0#64 loaded).dmem =
      [(0, 0x401C000000000000#64), (1, 0x401A000000000000#64)] := by decide +kernel
/-- Vectors CB19, CB22. -/
theorem test_cbPullDly :
    (run .cbPullDly 3#64 0#64 loaded).res = 0x4008000000000000#64 ∧
    (run .cbPullDly 4#64 0#64 loaded).status.toWord = 0x751#64 := by decide
/-- R110, with the last element from beyond the write cursor (R266). -/
theorem test_cbPullDlyBlk :
    (run (.cbPullDlyBlk 3#20) 1#64 8#64 loaded).dmem = loaded.dmem ++
      [(8, 0x4014000000000000#64), (9, 0x4018000000000000#64), (10, 0x4008000000000000#64)] := by decide
/-- R233: the block is checked before the delay (vector CB28). -/
theorem test_cbPullDlyBlk_order : (run (.cbPullDlyBlk 1#20) 500#64 16#64 loaded).status.toWord = 0x831#64 := by decide
/-- The edge of R144: at delay 3.5 of 4 the higher tap is the newest sample, (3.0 + 6.0) / 2; and 2.5. -/
theorem test_cbPullDlyBlkI :
    (run (.cbPullDlyBlkI 1#20) 0x400C000000000000#64 8#64 loaded).dmem =
      loaded.dmem ++ [(8, 0x4012000000000000#64)] ∧
    (run (.cbPullDlyBlkI 1#20) 0x4004000000000000#64 8#64 loaded).dmem =
      loaded.dmem ++ [(8, 0x400C000000000000#64)] := by decide +kernel
theorem test_cbPullDlyBlkI_range :
    (run (.cbPullDlyBlkI 1#20) 0x4010000000000000#64 8#64 loaded).status.toWord = 0x951#64 ∧
    (run (.cbPullDlyBlkI 1#20) 0x8000000000000000#64 8#64 loaded).status.toWord = 0#64 := by decide +kernel
/-- R111: 5.0 * 2.0 and 6.0 * 0.5. -/
theorem test_cbModDlyBlk :
    (run (.cbModDlyBlk 2#20) 1#64 0#64 loaded).cb.store =
      [(0, 0x4010000000000000#64), (1, 0x4024000000000000#64), (2, 0x4008000000000000#64),
       (3, 0x4008000000000000#64)] := by decide +kernel
theorem test_cbModDlyBlkD :
    (run (.cbModDlyBlkD 2#20) 1#64 0#64 loaded).cb.store =
      [(0, 0x4010000000000000#64), (1, 0x4024000000000000#64), (2, 0x4008000000000000#64),
       (3, 0x4008000000000000#64)] := by decide +kernel
/-- Vector CB20, and the distance round the end. -/
theorem test_cbWrDist :
    (after .cbWrDist loaded).res = 2#64 ∧
    (after .cbWrDist { loaded with cb := { loaded.cb with rc := 3 } }).res = 3#64 := by decide
theorem test_cbRstRd : (after .cbRstRd loaded).cb.rc = 2 := by decide
/-- Vectors CF6 and CF7. -/
theorem test_cfProc :
    (run .cfProc 0x3FF0000000000000#64 0#64 comb).res = 0x3FF4000000000000#64 ∧
    (run .cfProc 0x3FF0000000000000#64 0#64 comb).cf.store = [(1, 0x3FF4000000000000#64)] ∧
    (run .cfProc 0x3FF0000000000000#64 0#64 { comb with cf := { comb.cf with fb := false } }).cf.store =
      [(1, 0x3FF0000000000000#64)] := by decide +kernel
/-- Vector CF7: 1.25, 0.3125. -/
theorem test_cfProcBlk :
    (run (.cfProcBlk 2#20) 0#64 0#64 { comb with dmem := [(0, 0x3FF0000000000000#64), (1, 0#64)] }).dmem =
      [(0, 0x3FF4000000000000#64), (1, 0x3FD4000000000000#64)] := by decide +kernel
/-- Vector CF20. -/
theorem test_cfSetFreq :
    (run .cfSetFreq 0x4059000000000000#64 0#64 State.reset).cf =
      { CfUnit.reset with cap := 512, delay := 0x407E000000000000#64, freq := 0x4059000000000000#64 } := by decide +kernel
/-- Vectors CF21, CF23. -/
theorem test_cfSetFreq_faults :
    (run .cfSetFreq 0x8000000000000000#64 0#64 State.reset).status.toWord = 0x2241#64 ∧
    (run .cfSetFreq 0x3FE0000000000000#64 0#64 State.reset).status.toWord = 0x2261#64 := by decide +kernel
/-- Vector CF28. -/
theorem test_cfSetDly :
    (run .cfSetDly 0x8000000000000000#64 0#64 State.reset).cf =
      { CfUnit.reset with delay := 0#64, freq := 0x7FF0000000000000#64 } := by decide +kernel
/-- Vectors CF26, CF27. -/
theorem test_cfSetDly_faults :
    (run .cfSetDly 0x40EFFFF000000000#64 0#64 State.reset).status.toWord = 0x2361#64 ∧
    (run .cfSetDly 0x7FF0000000000000#64 0#64 State.reset).status.toWord = 0x2341#64 := by decide +kernel
/-- R169, example, and a NaN. -/
theorem test_cfSetFbk :
    (run .cfSetFbk 0x3FF8000000000000#64 0#64 fresh).cf.k = 0x3FEFFFFFFAA19C47#64 ∧
    (run .cfSetFbk 0x7FF8000000000000#64 0#64 fresh).status.toWord = 0x2441#64 := by decide
/-- R168, example. -/
theorem test_cfInitFs :
    (run .cfInitFs 0x40F7700000000000#64 0#64 fresh).cf =
      { CfUnit.reset with fs := 0x40F7700000000000#64, delay := 0x4000000000000000#64 } := by decide +kernel
theorem test_cfSetTopo :
    (run .cfSetTopo 1#64 0#64 fresh).cf.fb = true ∧
    (run .cfSetTopo 2#64 0#64 fresh).status.toWord = 0x2641#64 := by decide
/-- R203, example, and a rate of 0.0. -/
theorem test_smInit :
    (run (.smInit 1#4) 0x408F400000000000#64 0#64 fresh).sm =
      [SmChannel.reset, { SmChannel.reset with fs := 0x408F400000000000#64 }] ∧
    (run (.smInit 1#4) 0#64 0#64 fresh).status.toWord = 0x3041#64 := by decide
/-- R204, example. -/
theorem test_smSetTime :
    (run (.smSetTime 0#4) 0x4024000000000000#64 0#64 fresh).sm[0]? =
      some { SmChannel.reset with steps := 480#32, rem := 480#32 } := by decide +kernel
/-- R205, example. -/
theorem test_smSetTgt :
    (run (.smSetTgt 0#4) 0x3FF0000000000000#64 0#64
      { fresh with sm := [{ SmChannel.reset with steps := 480#32 }] }).sm =
      [{ SmChannel.reset with
          tgt := 0x3FF0000000000000#64, steps := 480#32, inc := 0x3F61111111111111#64, rem := 480#32 }] := by decide +kernel
/-- R208, example: the first step. -/
theorem test_smNext :
    (after (.smNext 1#4) ramping).res = 0x3FD0000000000000#64 ∧
    (after (.smNext 1#4) ramping).sm[1]? = some { ramp with cur := 0x3FD0000000000000#64, rem := 3#32 } := by decide +kernel
/-- R202: an infinite increment is clamped, and the last step takes the bits of the target. -/
theorem test_smNext_clamps :
    (after (.smNext 0#4) { fresh with sm := [{ ramp with inc := 0x7FF0000000000000#64 }] }).res = 0x3FF0000000000000#64 ∧
    (after (.smNext 0#4) { fresh with sm := [{ ramp with tgt := 0x8000000000000000#64, rem := 1#32 }] }).res =
      0x8000000000000000#64 := by decide +kernel
theorem test_smCur :
    (after (.smCur 1#4) { fresh with sm := [SmChannel.reset, { ramp with cur := 7#64 }] }).res = 7#64 := by decide
/-- R208, example. -/
theorem test_smNextBlk :
    (run (.smNextBlk 1#4 5#20) 0#64 8#64 ramping).dmem =
      [(8, 0x3FD0000000000000#64), (9, 0x3FE0000000000000#64), (10, 0x3FE8000000000000#64),
       (11, 0x3FF0000000000000#64), (12, 0x3FF0000000000000#64)] := by decide +kernel

/-! ## Arithmetic: R201's examples, and rounding at the ends of the range -/

theorem test_rnd :
    rnd 0x3FE0000000000000#64 = 1 ∧ rnd 0x3FF8000000000000#64 = 2 ∧ rnd 0x4004000000000000#64 = 3 ∧
    rnd 0xBFE0000000000000#64 = -1 := by decide +kernel
/-- 1 + 2^-53 is a tie and rounds to even; 1/480 is R205's; the largest finite value doubled is infinite. -/
theorem test_rounding :
    fadd 0x3FF0000000000000#64 0x3CA0000000000000#64 = 0x3FF0000000000000#64 ∧
    fdiv 0x3FF0000000000000#64 0x407E000000000000#64 = 0x3F61111111111111#64 ∧
    fadd 0x7FEFFFFFFFFFFFFF#64 0x7FEFFFFFFFFFFFFF#64 = 0x7FF0000000000000#64 ∧
    fmul 0x0000000000000001#64 0x3FE0000000000000#64 = 0x0000000000000000#64 := by decide +kernel

/-! ## Host transactions -/

/-- `loaded` with one event to come. -/
def given (e : HostEvent) : State := { loaded with pending := [e] }

def stepped (s : State) : State :=
  match step s with
  | .next t => t
  | .fault _ => s
  | .refused _ => s

/-- R235: a write to RES, a read of an unmapped offset and a misaligned read. -/
theorem test_bus :
    (stepped (given (writeTo .res 5#64))).status.toWord = 0x71#64 ∧
    (stepped (given (.access { width := 64, offset := 0x38#64, kind := .read }))).hostReads = [0#64] ∧
    (stepped (given (.access { width := 64, offset := 0x14#64, kind := .read }))).status.toWord = 0x71#64 ∧
    (stepped (given (.access { width := 32, offset := 0x10#64, kind := .read }))).status.toWord = 0x71#64 := by decide
/-- R30 for the default parameters: 16, 4096, 2, revision 7. -/
theorem test_config :
    (stepped { State.reset with pending := [readFrom .config] }).hostReads = [0x0700020000100010#64] := by decide
/-- R232, R236. -/
theorem test_status_clear :
    (stepped { given (writeTo .status 1#64) with ie := true, status := ⟨true, .bus, 0#8⟩ }).irq = false ∧
    (stepped { given (writeTo .status 2#64) with ie := true, status := ⟨true, .bus, 0#8⟩ }).irq = true := by decide
theorem test_reset_event : stepped (given .reset) = fresh := by decide
theorem test_withFetchWord : (stepped (State.reset.withFetchWord 64 0x0C)).res = 0#64 ∧
    (stepped (loaded.withFetchWord 64 0x0C)).res = 2#64 := by decide
/-- R63: byte lane 0 holds bits 7:0. -/
theorem test_lanes :
    byteLane 0x1122334455667788#64 0 = 0x88#8 ∧
    wordOfLanes [0x88#8, 0x77#8, 0x66#8, 0x55#8, 0x44#8, 0x33#8, 0x22#8, 0x11#8] = 0x1122334455667788#64 := by decide
/-- R91: the literals 1e-3 (vector value 0x3F50624DD2F1A9FC) and -inf. -/
theorem test_literals :
    (Literal.float false 1 1000).value = 0x3F50624DD2F1A9FC#64 ∧
    (Literal.inf true).value = 0xFFF0000000000000#64 := by decide +kernel

/-! ## Witnesses: for every statement that has hypotheses, a state and operands that meet them -/

/-- A state with all three units at work and a recorded fault. -/
def rich : State :=
  { loaded with cf := comb.cf, sm := ramping.sm, status := ⟨true, .bus, 0#8⟩, ie := true }

theorem rich_Inv : rich.Inv := by decide +kernel

/-- `rich` with one event to come. -/
def richThen (e : HostEvent) : State := { rich with pending := [e] }

theorem witness_DecodeOfEncode :
    (Instr.smNextBlk 1#4 0xFFFFF#20).wellFormed 2 = true ∧ (Instr.cbPushBlk 0#20).wellFormed 0 = true := by decide

theorem witness_DecodedWordIsItsEncoding : decode 2 0x001E1135#64 = .ok (.smNextBlk 1#4 481#20) := by decide

/-- OP 0x36, one above the last; CH 2 on an instance with two channels; CH 1 with the longest block. -/
theorem witness_CommandWordSelectsOrFaults :
    (given (writeTo .cmd 0x36#64)).pending = writeTo .cmd 0x36#64 :: [] ∧
    (let op := 0x36
     ¬ ((0x01 ≤ op ∧ op ≤ 0x0D) ∨ (0x20 ≤ op ∧ op ≤ 0x26) ∨ (0x30 ≤ op ∧ op ≤ 0x35))) ∧
    (0x233 % 2 ^ 8 = 0x33 ∧ ¬ 0x233 / 2 ^ 8 % 2 ^ 4 < loaded.params.nsm) ∧
    (0xFFFFF135 % 2 ^ 8 = 0x35 ∧ 0xFFFFF135 / 2 ^ 8 % 2 ^ 4 < loaded.params.nsm ∧ 0xFFFFF135 / 2 ^ 32 = 0) := by decide

theorem witness_StepRunsDecodedCommand :
    (given (writeTo .cmd 0x133#64)).pending = writeTo .cmd 0x133#64 :: [] ∧
    decode loaded.params.nsm 0x133#64 = .ok (.smNext 1#4) ∧
    decode loaded.params.nsm (BitVec.ofNat 64 0x133) = .ok (.smNext 1#4) ∧ 0x133 < 2 ^ 64 := by decide

/-- A command's fault, a BUS fault and a step without one. -/
theorem witness_FaultChangesOnlyStatus :
    (step (given (writeTo .cmd 0x0E#64)) = .next (stepped (given (writeTo .cmd 0x0E#64))) ∧
      (stepped (given (writeTo .cmd 0x0E#64))).faultLog = [⟨.illegalOp, 0x0E#8⟩]) ∧
    (step (given (writeTo .res 0#64)) = .next (stepped (given (writeTo .res 0#64))) ∧
      (stepped (given (writeTo .res 0#64))).faultLog = [⟨.bus, 0#8⟩]) ∧
    (stepped (given (writeTo .opa 0#64))).faultLog = [] ∧
    exec .cbPull loaded = .next (after .cbPull loaded) ∧
    exec (.cbPushBlk 17#20) loaded = .next (after (.cbPushBlk 17#20) loaded) :=
  ⟨⟨rfl, rfl⟩, ⟨rfl, rfl⟩, rfl, rfl, rfl⟩

/-- A fault while ERR is clear, a clearing write, a reset, and a fault while ERR is set. -/
theorem witness_StatusLifecycle :
    step (given (writeTo .res 0#64)) = .next (stepped (given (writeTo .res 0#64))) ∧ loaded.status.err = false ∧
    step (richThen (writeTo .status 1#64)) = .next (stepped (richThen (writeTo .status 1#64))) ∧
    (1#64).getLsbD 0 = true ∧ rich.status.err = true ∧
    step (richThen .reset) = .next (stepped (richThen .reset)) ∧
    step (richThen (writeTo .res 0#64)) = .next (stepped (richThen (writeTo .res 0#64))) :=
  ⟨rfl, rfl, rfl, rfl, rfl, rfl, rfl⟩

theorem witness_IrqFollowsErrAndIe :
    (richThen (writeTo .ctrl 2#64)).pending = writeTo .ctrl 2#64 :: [] ∧
    step (richThen (writeTo .status 1#64)) = .next (stepped (richThen (writeTo .status 1#64))) ∧
    (richThen (writeTo .res 0#64)).ie = true ∧
    step (richThen (writeTo .res 0#64)) = .next (stepped (richThen (writeTo .res 0#64))) ∧
    (stepped (richThen (writeTo .res 0#64))).faultLog ≠ (richThen (writeTo .res 0#64)).faultLog :=
  ⟨rfl, rfl, rfl, rfl, by decide⟩

theorem witness_CommandsKeepOperandRegisters : exec .cbPull loaded = .next (after .cbPull loaded) := rfl

theorem witness_ResWrittenOnlyByResultCommands :
    (exec .cbPush loaded = .next (after .cbPush loaded) ∧ writesRes .cbPush = false) ∧
    (let s := { loaded with opa := 4#64 }
     exec .cbPullDly s = .next (after .cbPullDly s) ∧ (after .cbPullDly s).faultLog ≠ s.faultLog) ∧
    (given (writeTo .res 5#64)).pending = writeTo .res 5#64 :: [] := ⟨⟨rfl, rfl⟩, ⟨rfl, by decide⟩, rfl⟩

theorem witness_UnitsAreIsolated :
    exec (.smCur 1#4) ramping = .next (after (.smCur 1#4) ramping) ∧ unitOf (.smCur 1#4) = .sm ∧
    (Instr.smCur 1#4).channel? = some 1#4 ∧ (0 : Nat) ≠ (1#4).toNat := ⟨rfl, rfl, rfl, by decide⟩

/-- Words just below and just above a block of one word at 8. -/
theorem witness_DmemOutsideBlockUnchanged :
    (exec .cbPush loaded = .next (after .cbPush loaded) ∧ dmemBlock .cbPush = none) ∧
    (let s := { loaded with opb := 8#64 }
     exec (.cbPullBlk 1#20) s = .next (after (.cbPullBlk 1#20) s) ∧
     dmemBlock (.cbPullBlk 1#20) = some 1#20 ∧ (7 < s.opb.toNat) ∧ (s.opb.toNat + (1#20).toNat ≤ 9)) :=
  ⟨⟨rfl, rfl⟩, ⟨rfl, rfl, by decide, by decide⟩⟩

theorem witness_CommandFaultsAreThoseListed :
    (Instr.smInit 1#4).wellFormed fresh.sm.length = true ∧
    exec (.smInit 1#4) fresh = .next (after (.smInit 1#4) fresh) ∧
    Cause.capacity ∈ faultsOf .cbResize ∧ Cause.dmemRange ∈ faultsOf (.cbPullDlyBlk 0#20) ∧
    Cause.delayRange ∈ faultsOf (.cbModDlyBlkD 1#20) ∧ Cause.operand ∈ faultsOf (.smSetTgt 15#4) :=
  ⟨by decide, rfl, by decide, by decide, by decide, by decide⟩

theorem witness_CombCapacityNeverDecreases :
    step (richThen (writeTo .cmd 0x20#64)) = .next (stepped (richThen (writeTo .cmd 0x20#64))) ∧
    writeTo .cmd 0x20#64 ≠ .reset := ⟨rfl, by decide⟩

theorem witness_ResetValues : (richThen .reset).pending = HostEvent.reset :: [] := rfl

/-- The parameters at both ends of their ranges. -/
theorem witness_ResetMeetsInvariants :
    Params.Legal { maxCapLog2 := 7, dmemWords := 1, nsm := 1 } ∧
    Params.Legal { maxCapLog2 := 32, dmemWords := 2 ^ 32 - 8192, nsm := 16 } := by decide

theorem witness_StepKeepsCircularBufferInvariant :
    rich.params.Legal ∧ rich.cb.Inv rich.params ∧
    step (richThen (writeTo .cmd 0x04#64)) = .next (stepped (richThen (writeTo .cmd 0x04#64))) :=
  ⟨rich_Inv.1, rich_Inv.2.1, rfl⟩

theorem witness_StepKeepsCombInvariant :
    rich.params.Legal ∧ rich.cf.Inv rich.params ∧
    step (richThen (writeTo .cmd 0x26#64)) = .next (stepped (richThen (writeTo .cmd 0x26#64))) :=
  ⟨rich_Inv.1, rich_Inv.2.2.1, rfl⟩

/-- A comb at the rate 2^-1042, the least that `witness_CombFrequencyIsPositive` takes, with the delay 127.0. -/
def slow : State :=
  { fresh with
    cf := { fresh.cf with
            fs := 0x0000000100000000#64, delay := 0x405FC00000000000#64,
            freq := fdiv 0x0000000100000000#64 0x405FC00000000000#64 } }

theorem witness_CombFrequencyIsPositive :
    (rich.params.Legal ∧ rich.cf.Inv rich.params ∧ 2 ^ 32 ≤ units rich.cf.fs) ∧
    (slow.params.Legal ∧ slow.cf.Inv slow.params ∧ 2 ^ 32 ≤ units slow.cf.fs) :=
  ⟨⟨rich_Inv.1, rich_Inv.2.2.1, by decide +kernel⟩, by decide +kernel⟩

/-- The exception of log entry 11: the rate 2^-1074 and the delay 100.0 give the frequency +0.0. -/
theorem underflowing_frequency :
    ({ fresh.cf with fs := 1#64, delay := 0x4059000000000000#64, freq := 0#64 } : CfUnit).FreqInv ∧
    fdiv 1#64 0x4059000000000000#64 = 0#64 := by decide +kernel

theorem witness_StepKeepsSmootherInvariant :
    (rich.sm.length = rich.params.nsm ∧ ∀ ch ∈ rich.sm, ch.Inv) ∧
    step (richThen (writeTo .cmd 0x134#64)) = .next (stepped (richThen (writeTo .cmd 0x134#64))) :=
  ⟨rich_Inv.2.2.2.1, rfl⟩

theorem witness_StepKeepsDmemCanonical :
    Memory.wf rich.params.dmemWords rich.dmem ∧
    step (richThen (writeTo (.dmem 15) 1#64)) = .next (stepped (richThen (writeTo (.dmem 15) 1#64))) :=
  ⟨rich_Inv.2.2.2.2.1, rfl⟩

theorem witness_StepKeepsStatusInvariant :
    rich.status.Inv ∧ step (richThen (writeTo .status 1#64)) = .next (stepped (richThen (writeTo .status 1#64))) :=
  ⟨rich_Inv.2.2.2.2.2, rfl⟩

/-- Sizes -1, 129 and 128 on a line of at most 128 samples. -/
theorem witness_CbResizeResult :
    { fresh with opa := 0xFFFFFFFFFFFFFFFF#64 }.opa.toInt < 0 ∧
    (0 ≤ { fresh with opa := 129#64 }.opa.toInt ∧ (fresh.params.maxCap : Int) < { fresh with opa := 129#64 }.opa.toInt) ∧
    (0 ≤ { fresh with opa := 128#64 }.opa.toInt ∧
      { fresh with opa := 128#64 }.opa.toInt ≤ (fresh.params.maxCap : Int)) := by decide

theorem loaded_cb_Inv : loaded.cb.Inv loaded.params := by decide

theorem witness_CbPushResult : loaded.cb.Inv loaded.params := loaded_cb_Inv

/-- A block of the last word of DMEM, and one as long as DMEM. -/
theorem block_fits :
    { loaded with opb := 15#64 }.opb.toNat + (1#20).toNat ≤ loaded.params.dmemWords ∧
    { loaded with opb := 0#64 }.opb.toNat + (16#20).toNat ≤ loaded.params.dmemWords := by decide

/-- Element 1 of a block of five words from 0 into a line of four is the first that stays; and a block of two words
from cursor 2 leaves index 1. -/
theorem witness_CbPushBlkResult :
    loaded.cb.Inv loaded.params ∧ loaded.opb.toNat + (5#20).toNat ≤ loaded.params.dmemWords ∧
    (1 < (5#20).toNat ∧ (5#20).toNat ≤ 1 + loaded.cb.cap ∧
      cellGet loaded.dmem (loaded.opb.toNat + 1) = some 0x3FE0000000000000#64) ∧
    (∀ i, i < (2#20).toNat → 1 ≠ (loaded.cb.wc + 1 + i) % loaded.cb.cap) :=
  ⟨loaded_cb_Inv, by decide, by decide, by decide⟩

/-- Delays 0 and 3 in a line of four, and the first two outside it. -/
theorem witness_CbSampleReadResults :
    loaded.cb.Inv loaded.params ∧
    (3 < loaded.cb.cap ∧ { loaded with opa := 3#64 }.opa.toInt = ((3 : Nat) : Int)) ∧
    (0 < loaded.cb.cap ∧ { loaded with opa := 0#64 }.opa.toInt = ((0 : Nat) : Int)) ∧
    { loaded with opa := 0xFFFFFFFFFFFFFFFF#64 }.opa.toInt < 0 ∧
    (loaded.cb.cap : Int) ≤ { loaded with opa := 4#64 }.opa.toInt := ⟨loaded_cb_Inv, by decide, by decide, by decide, by decide⟩

theorem witness_CbPullBlkResult :
    { loaded with opb := 15#64 }.cb.Inv loaded.params ∧
    { loaded with opb := 15#64 }.opb.toNat + (1#20).toNat ≤ loaded.params.dmemWords := ⟨loaded_cb_Inv, block_fits.1⟩

/-- Over two written words, and over an unwritten one. -/
theorem witness_CbPullBlkAddResult :
    loaded.cb.Inv loaded.params ∧ loaded.opb.toNat + (3#20).toNat ≤ loaded.params.dmemWords ∧
    cellGet loaded.dmem (loaded.opb.toNat + 0) = some 0x4000000000000000#64 ∧
    cellGet loaded.dmem (loaded.opb.toNat + 2) = none := ⟨loaded_cb_Inv, by decide, by decide, by decide⟩

theorem witness_CbPullDlyBlkResult :
    { loaded with opa := 3#64, opb := 15#64 }.cb.Inv loaded.params ∧
    { loaded with opa := 3#64, opb := 15#64 }.opb.toNat + (1#20).toNat ≤ loaded.params.dmemWords ∧
    3 < loaded.cb.cap ∧ { loaded with opa := 3#64, opb := 15#64 }.opa.toInt = ((3 : Nat) : Int) :=
  ⟨loaded_cb_Inv, by decide, by decide, by decide⟩

/-- A block of the two written words at delay 3, the largest in a line of four; and index 3 outside a block of two
from delay 1. -/
theorem witness_CbModulateResult :
    { loaded with opa := 3#64 }.cb.Inv loaded.params ∧
    { loaded with opa := 3#64 }.opb.toNat + (2#20).toNat ≤ loaded.params.dmemWords ∧
    3 < loaded.cb.cap ∧ { loaded with opa := 3#64 }.opa.toInt = ((3 : Nat) : Int) ∧
    [0x4000000000000000#64, 0x3FE0000000000000#64].length = (2#20).toNat ∧
    (cellGet loaded.dmem (loaded.opb.toNat + 0) = some 0x4000000000000000#64 ∧
      cellGet loaded.dmem (loaded.opb.toNat + 1) = some 0x3FE0000000000000#64) ∧
    (∀ i, i < (2#20).toNat → 3 ≠ (loaded.cb.wc + loaded.cb.cap - 1 + i) % loaded.cb.cap) :=
  ⟨loaded_cb_Inv, by decide, by decide, by decide, by decide, by decide, by decide⟩

/-- A block of two words from the last word of DMEM, which every block command refuses. -/
theorem witness_block_too_long : loaded.params.dmemWords < { loaded with opb := 15#64 }.opb.toNat + (2#20).toNat := by decide

/-- A delay at the capacity, and a negative one. -/
theorem witness_delay_outside :
    (loaded.cb.cap : Int) ≤ { loaded with opa := 4#64 }.opa.toInt ∧
    { loaded with opa := 0xFFFFFFFFFFFFFFFF#64 }.opa.toInt < 0 := by decide

/-- A fractional delay at the capacity, a negative one and a NaN. -/
theorem witness_fractional_delay_outside :
    flt { loaded with opa := 0x4010000000000000#64 }.opa (f64OfNat loaded.cb.cap) = false ∧
    fle Config.zero { loaded with opa := 0xBFE0000000000000#64 }.opa = false ∧
    fle Config.zero { loaded with opa := 0x7FF8000000000000#64 }.opa = false := by decide +kernel

theorem witness_SplitIsExact :
    (isFinite 0x400C000000000000#64 = true ∧ 0 ≤ units 0x400C000000000000#64) ∧
    (isFinite 0x8000000000000000#64 = true ∧ 0 ≤ units 0x8000000000000000#64) ∧
    (isFinite 0x7FEFFFFFFFFFFFFF#64 = true ∧ 0 ≤ units 0x7FEFFFFFFFFFFFFF#64) := by decide +kernel

/-- Delay 3.5 of 4, the edge of R144, and -0.0. -/
theorem witness_CbInterpolatedBlockResult :
    loaded.cb.Inv loaded.params ∧ loaded.params.Legal ∧
    loaded.opb.toNat + (16#20).toNat ≤ loaded.params.dmemWords ∧
    (fle Config.zero 0x400C000000000000#64 = true ∧
      flt 0x400C000000000000#64 (f64OfNat loaded.cb.cap) = true ∧
      feq (splitFrac 0x400C000000000000#64) Config.zero = false) ∧
    (fle Config.zero 0x8000000000000000#64 = true ∧
      flt 0x8000000000000000#64 (f64OfNat loaded.cb.cap) = true) := by decide +kernel

theorem witness_IntegralDelayReducesToIntegerRead :
    loaded.cb.Inv loaded.params ∧ loaded.params.Legal ∧
    loaded.opb.toNat + (16#20).toNat ≤ loaded.params.dmemWords ∧
    fle Config.zero 0x4008000000000000#64 = true ∧ flt 0x4008000000000000#64 (f64OfNat loaded.cb.cap) = true ∧
    feq (splitFrac 0x4008000000000000#64) Config.zero = true := by decide +kernel

theorem witness_CfProcResult : rich.params.Legal ∧ rich.cf.Inv rich.params := ⟨rich_Inv.1, rich_Inv.2.2.1⟩

theorem witness_CfProcBlkIsRepeatedProc :
    rich.params.dmemWords < { rich with opb := 15#64 }.opb.toNat + (2#20).toNat ∧
    rich.opb.toNat + (2#20).toNat ≤ rich.params.dmemWords ∧
    [0x4000000000000000#64, 0x3FE0000000000000#64].length = (2#20).toNat ∧
    (∀ (i : Nat) (v : Word), [0x4000000000000000#64, 0x3FE0000000000000#64][i]? = some v →
      cellGet rich.dmem (rich.opb.toNat + i) = some v) := by
  refine ⟨by decide, by decide, by decide, ?_⟩
  intro i v h
  match i with
  | 0 => simp at h; subst h; decide
  | 1 => simp at h; subst h; decide
  | i + 2 => simp at h

theorem witness_CfProcBlkCompletes :
    rich.cf.Inv rich.params ∧ rich.opb.toNat + (16#20).toNat ≤ rich.params.dmemWords := ⟨rich_Inv.2.2.1, by decide⟩

/-- 0.0; 0.5 Hz at 48000.0; 384.0 Hz, the delay 125.0; on a line of at most 128 samples. -/
theorem witness_CfSetFreqResult :
    flt Config.zero 0x0000000000000000#64 = false ∧
    (flt Config.zero 0x3FE0000000000000#64 = true ∧
      fle (fdiv fresh.cf.fs 0x3FE0000000000000#64) (f64OfNat (fresh.params.maxCap - 1)) = false) ∧
    (flt Config.zero 0x4078000000000000#64 = true ∧
      fle (fdiv fresh.cf.fs 0x4078000000000000#64) (f64OfNat (fresh.params.maxCap - 1)) = true) := by decide +kernel

/-- -1.0 and +inf; 128.0; 127.0 and -0.0. -/
theorem witness_CfSetDlyResult :
    fle Config.zero 0xBFF0000000000000#64 = false ∧ isInf 0x7FF0000000000000#64 = true ∧
    (fle Config.zero 0x4060000000000000#64 = true ∧ isInf 0x4060000000000000#64 = false ∧
      fle 0x4060000000000000#64 (f64OfNat (fresh.params.maxCap - 1)) = false) ∧
    (fle Config.zero 0x405FC00000000000#64 = true ∧ isInf 0x405FC00000000000#64 = false ∧
      fle 0x405FC00000000000#64 (f64OfNat (fresh.params.maxCap - 1)) = true) ∧
    (fle Config.zero 0x8000000000000000#64 = true ∧ feq 0x8000000000000000#64 Config.zero = true) := by decide +kernel

/-- +inf and 0.0; 48000.0 with a frequency of 1.0; 96000.0 with 48000.0. -/
theorem witness_CfInitFsResult :
    isFinite 0x7FF0000000000000#64 = false ∧ flt Config.zero 0x0000000000000000#64 = false ∧
    (isFinite 0x40E7700000000000#64 = true ∧ flt Config.zero 0x40E7700000000000#64 = true ∧
      fle (fdiv 0x40E7700000000000#64 0x3FF0000000000000#64) (f64OfNat (fresh.params.maxCap - 1)) = false) ∧
    (isFinite 0x40F7700000000000#64 = true ∧ flt Config.zero 0x40F7700000000000#64 = true ∧
      fle (fdiv 0x40F7700000000000#64 fresh.cf.freq) (f64OfNat (fresh.params.maxCap - 1)) = true) := by decide +kernel

/-- A NaN; -1.0; 1.5; K_MAX itself and -0.0; topologies 0, 1 and 2. -/
theorem witness_CfSetFbkAndTopoResults :
    isNaN 0x7FF8000000000000#64 = true ∧
    flt 0xBFF0000000000000#64 Config.zero = true ∧
    flt 0x3FEFFFFFFAA19C47#64 0x3FF8000000000000#64 = true ∧
    (fle Config.zero 0x3FEFFFFFFAA19C47#64 = true ∧ fle 0x3FEFFFFFFAA19C47#64 0x3FEFFFFFFAA19C47#64 = true) ∧
    (fle Config.zero 0x8000000000000000#64 = true ∧ fle 0x8000000000000000#64 0x3FEFFFFFFAA19C47#64 = true) ∧
    (0#64).toInt = 0 ∧ (1#64).toInt = 1 ∧ ((2#64).toInt ≠ 0 ∧ (2#64).toInt ≠ 1) := by decide

/-- A comb with delay D and an empty line, in each topology, with D at both ends. -/
def line (D : Nat) (fb : Bool) : State :=
  { fresh with cf := { fresh.cf with delay := f64OfNat D, freq := fdiv fresh.cf.fs (f64OfNat D), k := 0x3FE0000000000000#64, fb := fb } }

theorem line_Inv : (line 127 false).cf.Inv inst ∧ (line 1 true).cf.Inv inst ∧ (line 0 false).cf.Inv inst := by
  decide +kernel

theorem witness_ImpulseResponse :
    ((line 127 false).params.Legal ∧ (line 127 false).cf.Inv inst ∧ (line 127 false).cf.store = [] ∧
      127 < (line 127 false).cf.cap ∧ (line 127 false).cf.delay = f64OfNat 127 ∧ (line 127 false).cf.fb = false) ∧
    ((line 1 true).cf.Inv inst ∧ 1 < (line 1 true).cf.cap ∧ (line 1 true).cf.fb = true) ∧
    ((line 0 false).cf.Inv inst ∧ 0 < (line 0 false).cf.cap ∧ (line 0 false).cf.delay = f64OfNat 0) ∧
    signBit (line 1 true).cf.k = false :=
  ⟨⟨by decide, line_Inv.1, rfl, by decide, rfl, rfl⟩, ⟨line_Inv.2.1, by decide, rfl⟩,
    ⟨line_Inv.2.2, by decide, rfl⟩, rfl⟩

theorem witness_SmInitAndCurResults :
    ramping.sm[(1#4).toNat]? = some ramp ∧
    (isFinite 0x7FF8000000000000#64 = false ∧ flt Config.zero 0x8000000000000000#64 = false) ∧
    (isFinite 0x0000000000000001#64 = true ∧ flt Config.zero 0x0000000000000001#64 = true) := by decide

/-- At a rate of 1000.0 the count is `ms` itself: +inf; 2^32 - 0.5, which rounds to 2^32; 4294967295.0, the most;
and -5.0, which gives one step. -/
theorem witness_SmSetTimeResult :
    ramping.sm[(1#4).toNat]? = some ramp ∧
    isFinite 0x7FF0000000000000#64 = false ∧
    2 ^ 32 - 1 < rnd (fdiv (fmul 0x41EFFFFFFFF00000#64 ramp.fs) 0x408F400000000000#64) ∧
    (isFinite (fdiv (fmul 0x41EFFFFFFFE00000#64 ramp.fs) 0x408F400000000000#64) = true ∧
      rnd (fdiv (fmul 0x41EFFFFFFFE00000#64 ramp.fs) 0x408F400000000000#64) ≤ 2 ^ 32 - 1) ∧
    (isFinite 0xC014000000000000#64 = true ∧
      rnd (fdiv (fmul 0xC014000000000000#64 ramp.fs) 0x408F400000000000#64) ≤ 2 ^ 32 - 1) := by decide +kernel

theorem witness_SmSetTgtResult :
    ramping.sm[(1#4).toNat]? = some ramp ∧ isFinite 0xFFF0000000000000#64 = false ∧
    isFinite 0x7FEFFFFFFFFFFFFF#64 = true := by decide

/-- At rest; at the last step; before it with a sum below the target, and with sums past it both ways. -/
theorem witness_SmNextResult :
    ramping.sm[(1#4).toNat]? = some ramp ∧ SmChannel.reset.rem.toNat = 0 ∧ { ramp with rem := 1#32 }.rem.toNat = 1 ∧
    2 ≤ ramp.rem.toNat ∧
    (flt ramp.tgt (fadd ramp.cur ramp.inc) = false ∧ flt ramp.inc Config.zero = false) ∧
    (flt Config.zero 0x4000000000000000#64 = true ∧ flt ramp.tgt (fadd ramp.cur 0x4000000000000000#64) = true) ∧
    (flt 0xC000000000000000#64 Config.zero = true ∧
      flt (fadd ramp.cur 0xC000000000000000#64) 0xBFF0000000000000#64 = true) := by decide +kernel

theorem witness_SmNextBlkIsRepeatedNext :
    ramping.sm[(1#4).toNat]? = some ramp ∧
    ramping.params.dmemWords < { ramping with opb := 16#64 }.opb.toNat + (1#20).toNat ∧
    { ramping with opb := 16#64 }.opb.toNat + (0#20).toNat ≤ ramping.params.dmemWords ∧
    ramping.opb.toNat + (5#20).toNat ≤ ramping.params.dmemWords := by decide

theorem witness_RampLandsOnTarget :
    ramping.sm[(1#4).toNat]? = some ramp ∧ 1 ≤ ramp.rem.toNat ∧ ramp.rem.toNat ≤ 3 + 1 ∧ 3 < 5 := by decide

theorem witness_RampIsMonotone :
    (ramping.sm[(1#4).toNat]? = some ramp ∧ ramp.Inv ∧ flt Config.zero ramp.inc = true) ∧
    ({ ramp with cur := 0x4000000000000000#64, inc := 0xBFD0000000000000#64 }.Inv ∧
      flt 0xBFD0000000000000#64 Config.zero = true) := by decide +kernel

theorem witness_ArithmeticRoundsToNearestEven :
    isFinite 0x7FEFFFFFFFFFFFFF#64 = true ∧ isFinite 0x3FF0000000000000#64 = true ∧
    isFinite (fadd 0x7FEFFFFFFFFFFFFF#64 0x3FF0000000000000#64) = true ∧
    isFinite (fmul 0x7FEFFFFFFFFFFFFF#64 0x3FF0000000000000#64) = true ∧
    units 0x3FF0000000000000#64 ≠ 0 ∧ isFinite (fdiv 0x7FEFFFFFFFFFFFFF#64 0x3FF0000000000000#64) = true := by decide +kernel

theorem witness_NaNResultsAreCanonical :
    isNaN (fadd 0x7FF4000000000001#64 0#64) = true ∧
    isNaN (fsub 0x7FF0000000000000#64 0x7FF0000000000000#64) = true ∧
    isNaN (fmul 0#64 0x7FF0000000000000#64) = true ∧ isNaN (fdiv 0#64 0#64) = true := by decide +kernel

theorem witness_RndIsNearestHalfAway : isFinite 0xBFE0000000000000#64 = true := by decide

theorem witness_PushedSamplesComeBack :
    loaded.cb.Inv loaded.params ∧ 1 ≤ (2#20).toNat ∧ (2#20).toNat ≤ loaded.cb.cap ∧
    loaded.opb.toNat + (2#20).toNat ≤ loaded.params.dmemWords ∧
    (14#64).toNat + (2#20).toNat ≤ loaded.params.dmemWords ∧
    cellGet loaded.dmem (loaded.opb.toNat + 0) = some 0x4000000000000000#64 ∧
    cellGet loaded.dmem (loaded.opb.toNat + 1) = some 0x3FE0000000000000#64 ∧
    exec (.cbPushBlk 2#20) loaded = .next (after (.cbPushBlk 2#20) loaded) ∧ fresh.cb.rc = fresh.cb.wc :=
  ⟨loaded_cb_Inv, by decide, by decide, by decide, by decide, by decide, by decide, rfl, rfl⟩

theorem witness_DistanceCountsPushes :
    fresh.cb.Inv fresh.params ∧ fresh.cb.rc = fresh.cb.wc ∧ (List.replicate 127 0#64).length < fresh.cb.cap := by decide +kernel

/-- The last offset of channel 1 and the first unmapped one after it. -/
theorem witness_HostWindowMap :
    inst.nsm ≤ 16 ∧ 1 < inst.nsm ∧ 0x100 + 0x40 * 1 + 0x28 = 0x168 ∧ 15 < inst.dmemWords ∧
    regAt inst 0x168 = some (.sm 1 .rem) ∧ regAt inst 0x170 = none ∧ regAt inst 0x10078 = some (.dmem 15) ∧
    regAt inst 0x10080 = none ∧ regAt inst 0x38 = none ∧ regAt inst 0x180 = none := by decide

theorem witness_HostReadsShowState :
    ((HostReg.status, rich.status.toWord) ∈ hostView rich ∧
      (richThen (readFrom .status)).pending = readFrom .status :: []) ∧
    (rich.params.nsm ≤ 16 ∧ 1 < rich.params.nsm ∧ rich.sm[1]? = some ramp ∧
      (SmField.rem, BitVec.ofNat 64 ramp.rem.toNat) ∈
        [(SmField.fs, ramp.fs), (.cur, ramp.cur), (.tgt, ramp.tgt), (.steps, BitVec.ofNat 64 ramp.steps.toNat),
          (.inc, ramp.inc), (.rem, BitVec.ofNat 64 ramp.rem.toNat)] ∧
      (richThen (readFrom (.sm 1 .rem))).pending = readFrom (.sm 1 .rem) :: []) ∧
    Params.Legal { maxCapLog2 := 32, dmemWords := 2 ^ 32 - 8192, nsm := 16 } := by decide +kernel

theorem witness_HostWritesAreReadBack :
    (given (writeTo .opa 1#64)).pending = writeTo .opa 1#64 :: [] ∧
    (given (writeTo .opb 1#64)).pending = writeTo .opb 1#64 :: [] ∧
    (loaded.params.Legal ∧ 15 < loaded.params.dmemWords ∧
      (given (writeTo (.dmem 15) 1#64)).pending = writeTo (.dmem 15) 1#64 :: []) ∧
    (1 < loaded.params.dmemWords ∧ cellGet loaded.dmem 1 = some 0x3FE0000000000000#64 ∧
      (given (readFrom (.dmem 1))).pending = readFrom (.dmem 1) :: []) := by decide

/-- A narrow access; an unmapped offset just past DMEM; a write to CONFIG; a read of CMD; a write to STATUS. -/
theorem witness_BusFaults :
    inst.nsm ≤ 16 ∧ (32 ≠ 64) ∧ (0x10080#64).toNat % 8 = 0 ∧ regAt inst (0x10080#64).toNat = none ∧
    (HostReg.config.present inst = true ∧ HostReg.config.offset = (0#64).toNat ∧ HostReg.config.writable = false) ∧
    (HostReg.cmd.present inst = true ∧ HostReg.cmd.offset = (8#64).toNat) ∧
    (HostReg.status.present inst = true ∧ HostReg.status.offset = (0x28#64).toNat) ∧
    (given (writeTo .config 1#64)).pending =
      .access { width := 64, offset := 0#64, kind := .write 1#64 } :: [] := by decide

end Sys2Proof.Tests
end

section
/-! SUPPORT. What a command can do to the registers and the model's records, said once: it faults, and changes
only the fault record, or it completes, and writes none of them but RES, and RES only when it is
result-producing (10_state.md R32 to R36, 60_exceptions.md R231). -/

namespace Sys2Proof.Machine

/-! ## The part of the state outside the units and DMEM -/

/-- The parameters, the host's registers and the model's records: all of a state but the three units, DMEM and
the count of its free draws. -/
structure Control where
  params : Params
  opa : Word
  opb : Word
  res : Word
  status : Status
  ie : Bool
  pending : List HostEvent
  hostReads : List Word
  faultLog : List FaultRecord

/-- The control part of a state. -/
def State.control (s : State) : Control :=
  { params := s.params, opa := s.opa, opb := s.opb, res := s.res, status := s.status, ie := s.ie,
    pending := s.pending, hostReads := s.hostReads, faultLog := s.faultLog }

@[simp] theorem memWrite_control (s : State) (a : Nat) (v : Word) : (s.memWrite a v).control = s.control := rfl

@[simp] theorem memRead_control (s : State) (a : Nat) : (s.memRead a).2.control = s.control := by
  rw [memRead_state]; rfl

/-! ## The block loops keep it -/

/-- A view of the loop's state that every element keeps, the loop keeps. -/
theorem blockLoop_keeps {σ α : Type} (g : σ → α) (body : Nat → σ → σ) (h : ∀ i x, g (body i x) = g x)
    (n : Nat) (x : σ) : g (blockLoop body n 0 x) = g x :=
  blockLoop_induct (fun _ y => g y = g x) body n x rfl fun i y _ hy => (h i y).trans hy

/-- A loop over states. -/
theorem blockLoop_control (body : Nat → State → State) (h : ∀ i s, (body i s).control = s.control) (n : Nat)
    (s : State) : (blockLoop body n 0 s).control = s.control :=
  blockLoop_keeps State.control body h n s

/-- A loop that carries something beside the state. -/
theorem blockLoop_fst_control {σ : Type} (body : Nat → State × σ → State × σ)
    (h : ∀ i x, (body i x).1.control = x.1.control) (n : Nat) (x : State × σ) :
    (blockLoop body n 0 x).1.control = x.1.control :=
  blockLoop_keeps (fun x => x.1.control) body h n x

theorem pushElem_control (a i : Nat) (s : State) : (pushElem a i s).control = s.control :=
  memRead_control s (a + i)

theorem pullElem_control (a i : Nat) (s : State) : (pullElem a i s).control = s.control := rfl

theorem pullAddElem_control (a i : Nat) (s : State) : (pullAddElem a i s).control = s.control :=
  memRead_control { s with cb := s.cb.advanceRead } (a + i)

theorem pullDelayElem_control (a cap i : Nat) (x : State × Nat) :
    (pullDelayElem a cap i x).1.control = x.1.control := rfl

theorem modulateElem_control (a cap i : Nat) (x : State × Nat) :
    (modulateElem a cap i x).1.control = x.1.control :=
  memRead_control x.1 (a + i)

theorem interpElem_control (a cap : Nat) (frac : F64) (i : Nat) (x : State × Streams) :
    (interpElem a cap frac i x).1.control = x.1.control := rfl

theorem procElem_control (a i : Nat) (s : State) : (procElem a i s).control = s.control :=
  memRead_control s (a + i)

theorem smoothElem_control (a i : Nat) (x : State × SmChannel) :
    (smoothElem a i x).1.control = x.1.control := rfl

/-! ## The two ways a command ends -/

/-- What running the command `i` from `s` to `t` does outside the units and DMEM. -/
inductive CommandOutcome (i : Instr) (s t : State) : Prop
  /-- It raises one fault, listed for it or due to a channel that is missing, and does nothing else. -/
  | faulted (c : Cause)
      (cause : c ∈ faultsOf i ∨ (c = .reservedField ∧ i.wellFormed s.sm.length = false))
      (next : t = s.raise c i.op)
  /-- It completes: RES is the only register it may write, and only when it is result-producing. -/
  | completed (control : t.control = { s.control with res := t.res })
      (res : writesRes i = false → t.res = s.res)

/-- Completing without touching a register. -/
theorem CommandOutcome.silent {i : Instr} {s t : State} (h : t.control = s.control) : CommandOutcome i s t := by
  have hr : t.res = s.res := congrArg Control.res h
  exact .completed (by rw [h, hr]; rfl) fun _ => hr

/-- Completing with a result in RES. -/
theorem CommandOutcome.result {i : Instr} {s t : State} (hi : writesRes i = true)
    (h : t.control = { s.control with res := t.res }) : CommandOutcome i s t :=
  .completed h fun hn => absurd (hi.symm.trans hn) (by decide)

/-- A check for a fault listed for the command. -/
theorem CommandOutcome.check {i : Instr} {s t : State} {ok : Bool} {c : Cause} (h : CommandOutcome i s t)
    (hc : c ∈ faultsOf i := by simp [faultsOf]) : CommandOutcome i s (s.check ok c i.op t) := by
  rcases check_cases s ok c i.op t with ⟨-, e⟩ | ⟨-, e⟩
  · rwa [e]
  · exact .faulted c (.inl hc) e

/-- The channel selection of a smoother command. -/
theorem CommandOutcome.withChannel {i : Instr} {s : State} {c : BitVec 4} {f : SmChannel → State}
    (hi : i.channel? = some c) (h : ∀ ch, CommandOutcome i s (f ch)) :
    CommandOutcome i s (s.withChannel c i.op f) := by
  rcases withChannel_cases s c i.op f with ⟨ch, -, e⟩ | ⟨hn, e⟩
  · rw [e]; exact h ch
  · have hlen : s.sm.length ≤ c.toNat := List.getElem?_eq_none_iff.1 hn
    exact .faulted .reservedField (.inr ⟨rfl, by simp [Instr.wellFormed, hi, hlen]⟩) e

/-- The modulation, under either of its two commands. -/
theorem modulate_outcome {i : Instr} (hi : faultsOf i = [.dmemRange, .delayRange]) (n : BitVec 20) (s : State) :
    CommandOutcome i s (modulate i.op n s) :=
  .check (hc := by simp [hi]) <| .check (hc := by simp [hi]) <|
    .silent (blockLoop_fst_control _ (modulateElem_control _ _) _ _)

/-- Every command answers a next state, and ends in one of the two ways. -/
theorem exec_outcome (i : Instr) (s : State) : ∃ t, exec i s = .next t ∧ CommandOutcome i s t := by
  cases i with
  | cbResize => exact ⟨_, rfl, .check <| .check <| .silent rfl⟩
  | cbPush => exact ⟨_, rfl, .silent rfl⟩
  | cbPushBlk n => exact ⟨_, rfl, .check <| .silent (blockLoop_control _ (pushElem_control _) _ _)⟩
  | cbPull => exact ⟨_, rfl, .result rfl rfl⟩
  | cbPullBlk n => exact ⟨_, rfl, .check <| .silent (blockLoop_control _ (pullElem_control _) _ _)⟩
  | cbPullBlkAdd n => exact ⟨_, rfl, .check <| .silent (blockLoop_control _ (pullAddElem_control _) _ _)⟩
  | cbPullDly => exact ⟨_, rfl, .check <| .result rfl rfl⟩
  | cbPullDlyBlk n =>
    exact ⟨_, rfl, .check <| .check <| .silent (blockLoop_fst_control _ (pullDelayElem_control _ _) _ _)⟩
  | cbPullDlyBlkI n => exact ⟨_, rfl, .check <| .check <| .silent (blockLoop_fst_control _ (interpElem_control _ _ _) _ _)⟩
  | cbModDlyBlk n => exact ⟨_, rfl, modulate_outcome rfl n s⟩
  | cbModDlyBlkD n => exact ⟨_, rfl, modulate_outcome rfl n s⟩
  | cbWrDist => exact ⟨_, rfl, .result rfl rfl⟩
  | cbRstRd => exact ⟨_, rfl, .silent rfl⟩
  | cfProc => exact ⟨_, rfl, .result rfl rfl⟩
  | cfProcBlk n => exact ⟨_, rfl, .check <| .silent (blockLoop_control _ (procElem_control _) _ _)⟩
  | cfSetFreq => exact ⟨_, rfl, .check <| .check <| .silent rfl⟩
  | cfSetDly => exact ⟨_, rfl, .check <| .check <| .silent rfl⟩
  | cfSetFbk => exact ⟨_, rfl, .check <| .silent rfl⟩
  | cfInitFs => exact ⟨_, rfl, .check <| .check <| .silent rfl⟩
  | cfSetTopo => exact ⟨_, rfl, .check <| .silent rfl⟩
  | smInit c => exact ⟨_, rfl, .withChannel rfl fun _ => .check <| .silent rfl⟩
  | smSetTime c => exact ⟨_, rfl, .withChannel rfl fun _ => .check <| .silent rfl⟩
  | smSetTgt c => exact ⟨_, rfl, .withChannel rfl fun _ => .check <| .silent rfl⟩
  | smNext c => exact ⟨_, rfl, .withChannel rfl fun _ => .result rfl rfl⟩
  | smCur c => exact ⟨_, rfl, .withChannel rfl fun _ => .result rfl rfl⟩
  | smNextBlk c n =>
    exact ⟨_, rfl, .withChannel rfl fun ch => .check <|
      .silent (blockLoop_fst_control _ (smoothElem_control s.blockBase) n.toNat (s, ch))⟩

/-- The outcome of a command whose next state is known. -/
theorem outcome_of_exec {i : Instr} {s t : State} (h : exec i s = .next t) : CommandOutcome i s t := by
  obtain ⟨u, hu, ho⟩ := exec_outcome i s
  cases hu.symm.trans h
  exact ho

end Sys2Proof.Machine
end

section
/-! SUPPORT. Host accesses to the registers at fixed offsets (10_state.md R29, R37). -/

namespace Sys2Proof.Machine

/-- The fixed registers exist whatever the parameters. -/
theorem present_of_mem_fixedRegs (p : Params) (r : HostReg) (h : r ∈ fixedRegs) : r.present p = true :=
  List.all_eq_true.1 (rfl : fixedRegs.all (HostReg.present p) = true) r h

/-- The fixed registers lie below the smoother mirrors, at multiples of 8, no two at one offset. -/
theorem offset_of_mem_fixedRegs : ∀ r ∈ fixedRegs,
    r.offset < 0x100 ∧ r.offset % 8 = 0 ∧ (fixedRegs.find? fun q => q.offset == r.offset) = some r := by
  decide

/-- A 64-bit access at the offset of a fixed register reaches that register, whatever the parameters. -/
theorem accessTarget_of_mem_fixedRegs (p : Params) (k : AccessKind) (r : HostReg) (h : r ∈ fixedRegs) :
    accessTarget p { width := 64, offset := BitVec.ofNat 64 r.offset, kind := k } = some r := by
  obtain ⟨hlt, h8, hfind⟩ := offset_of_mem_fixedRegs r h
  have hoff : (BitVec.ofNat 64 r.offset).toNat = r.offset := by
    rw [BitVec.toNat_ofNat, Nat.mod_eq_of_lt (by omega)]
  simp [accessTarget, regAt, hoff, h8, hlt, hfind, present_of_mem_fixedRegs p r h]

/-- A host write to a fixed register other than CMD takes the event and writes the register. -/
theorem step_writeTo_fixed (s : State) (r : HostReg) (v : Word) (rest : List HostEvent) (h : r ∈ fixedRegs)
    (hr : r ≠ .cmd) (hp : s.pending = writeTo r v :: rest) :
    step s = .next (State.writeReg { s with pending := rest } r v) := by
  have ht := accessTarget_of_mem_fixedRegs s.params (.write v) r h
  rcases step_cases s _ rest hp with ⟨he, -⟩ | ⟨a, he, hc⟩
  · cases he
  · cases he
    simpa [ht, hr] using hc

end Sys2Proof.Machine
end

section
/-! PROOF. RES is written only by the six result-producing commands (10_state.md R34). -/

namespace Sys2Proof.Machine

/-- Settles O11: a command that faults only raises, and one that completes writes RES only when it is
result-producing; RES is read-only to the host. -/
theorem resWrittenOnlyByResultCommands : Obligations.ResWrittenOnlyByResultCommands := by
  unfold Obligations.ResWrittenOnlyByResultCommands
  refine ⟨fun i s t h hi => ?_, fun i s t h hlog => ?_, fun s v rest hp => ?_⟩
  · cases outcome_of_exec h with
    | faulted c _ ht => rw [ht, raise_res]
    | completed _ hres => exact hres hi
  · cases outcome_of_exec h with
    | faulted c _ ht => rw [ht, raise_res]
    | completed hctl _ => exact absurd (congrArg Control.faultLog hctl) hlog
  · rw [step_writeTo_fixed s .res v rest (by decide) (by decide) hp]
    exact congrArg Host.Outcome.next (raise_eq_faulted _ .bus 0#8 fun _ => rfl)

end Sys2Proof.Machine
end

section
/-! SUPPORT. The fields of a command word as numbers, the opcode map row by row, and everything the decoder can do
(30_encoding.md R80 to R83, R88, R89). -/

namespace Sys2Proof

/-! ## The fields of R80 as numbers -/

@[simp] theorem fieldOp_toNat (w : Word) : (fieldOp w).toNat = w.toNat % 2 ^ 8 := by
  simp [fieldOp]

@[simp] theorem fieldCh_toNat (w : Word) : (fieldCh w).toNat = w.toNat / 2 ^ 8 % 2 ^ 4 := by
  simp [fieldCh, Nat.shiftRight_eq_div_pow]

@[simp] theorem fieldLen_toNat (w : Word) : (fieldLen w).toNat = w.toNat / 2 ^ 12 % 2 ^ 20 := by
  simp [fieldLen, Nat.shiftRight_eq_div_pow]

@[simp] theorem fieldRsv_toNat (w : Word) : (fieldRsv w).toNat = w.toNat / 2 ^ 32 := by
  have hw := w.isLt
  simp only [fieldRsv, BitVec.extractLsb'_toNat, Nat.shiftRight_eq_div_pow]
  omega

theorem fieldOp_eq_ofNat (w : Word) : fieldOp w = BitVec.ofNat 8 (w.toNat % 2 ^ 8) := by
  rw [← fieldOp_toNat, BitVec.ofNat_toNat, BitVec.setWidth_eq]

theorem fieldCh_eq_ofNat (w : Word) : fieldCh w = BitVec.ofNat 4 (w.toNat / 2 ^ 8 % 2 ^ 4) := by
  rw [← fieldCh_toNat, BitVec.ofNat_toNat, BitVec.setWidth_eq]

theorem fieldLen_eq_ofNat (w : Word) : fieldLen w = BitVec.ofNat 20 (w.toNat / 2 ^ 12 % 2 ^ 20) := by
  rw [← fieldLen_toNat, BitVec.ofNat_toNat, BitVec.setWidth_eq]

/-! ## The opcode map of R89 -/

/-- The OP values of the smoother commands (R82). -/
abbrev IsSmootherOp (op : Nat) : Prop := 0x30 ≤ op ∧ op ≤ 0x35

/-- The OP values of the block commands (R83). -/
abbrev IsBlockOp (op : Nat) : Prop := op ∈ [0x03, 0x05, 0x06, 0x08, 0x09, 0x0A, 0x0B, 0x21, 0x35]

/-- The OP values that select a command (R81). -/
abbrev IsDefinedOp (op : Nat) : Prop :=
  (0x01 ≤ op ∧ op ≤ 0x0D) ∨ (0x20 ≤ op ∧ op ≤ 0x26) ∨ IsSmootherOp op

/-- The defined OP values are those that head a row. -/
theorem mem_opRows_op_iff (op : BitVec 8) : op ∈ opRows.map OpRow.op ↔ IsDefinedOp op.toNat := by
  simp only [opRows, cbRows, cfRows, smRows, List.map_cons, List.map_nil, List.cons_append, List.nil_append,
    List.mem_cons, List.not_mem_nil, or_false]
  bv_omega

/-- A row uses CH when its OP is a smoother command's, and LEN when its OP is a block command's. -/
theorem uses_of_mem_opRows : ∀ r ∈ opRows,
    (r.usesCh = true ↔ IsSmootherOp r.op.toNat) ∧ (r.usesLen = true ↔ IsBlockOp r.op.toNat) := by
  decide

/-- The command a row builds has the row's OP, and carries CH and LEN where the row uses them. -/
theorem build_of_mem_opRows (r : OpRow) (h : r ∈ opRows) (c : BitVec 4) (n : BitVec 20) :
    (r.build c n).op = r.op ∧
    (r.build c n).channel? = (if r.usesCh then some c else none) ∧
    (r.build c n).len? = (if r.usesLen then some n else none) := by
  fin_cases h <;> exact ⟨rfl, rfl, rfl⟩

/-- An OP value has no row when it is not defined. -/
theorem rowOf_eq_none_iff (op : BitVec 8) : rowOf op = none ↔ ¬ IsDefinedOp op.toNat := by
  rw [← mem_opRows_op_iff]
  simp [rowOf]

/-- The row found for an OP value is a row of the map, and has that OP. -/
theorem rowOf_some {op : BitVec 8} {r : OpRow} (h : rowOf op = some r) : r ∈ opRows ∧ r.op = op :=
  ⟨List.mem_of_find?_eq_some h, by simpa using List.find?_some h⟩

/-! ## The decoder -/

/-- The fields of a word are legal for its OP where there are `nsm` channels: RSV is 0, a smoother command's CH
is a channel, and CH and LEN are 0 for the commands that do not use them (R80, R82, R83). -/
abbrev LegalFields (nsm : Nat) (w : Word) : Prop :=
  w.toNat / 2 ^ 32 = 0 ∧
  (IsSmootherOp (w.toNat % 2 ^ 8) → w.toNat / 2 ^ 8 % 2 ^ 4 < nsm) ∧
  (¬ IsSmootherOp (w.toNat % 2 ^ 8) → w.toNat / 2 ^ 8 % 2 ^ 4 = 0) ∧
  (¬ IsBlockOp (w.toNat % 2 ^ 8) → w.toNat / 2 ^ 12 % 2 ^ 20 = 0)

theorem chAllowed_iff (r : OpRow) (nsm : Nat) (ch : BitVec 4) :
    chAllowed r nsm ch = true ↔ (r.usesCh = true → ch.toNat < nsm) ∧ (¬ r.usesCh = true → ch.toNat = 0) := by
  cases h : r.usesCh <;> simp [chAllowed, h, BitVec.toNat_eq]

theorem lenAllowed_iff (r : OpRow) (len : BitVec 20) :
    lenAllowed r len = true ↔ (¬ r.usesLen = true → len.toNat = 0) := by
  cases h : r.usesLen <;> simp [lenAllowed, h, BitVec.toNat_eq]

/-- The decoder's check of the fields against the row of the word's OP. -/
theorem fields_allowed_iff (nsm : Nat) (w : Word) (r : OpRow) (h : rowOf (fieldOp w) = some r) :
    (fieldRsv w == 0#32 && chAllowed r nsm (fieldCh w) && lenAllowed r (fieldLen w)) = true ↔ LegalFields nsm w := by
  obtain ⟨hmem, hop⟩ := rowOf_some h
  obtain ⟨hch, hlen⟩ := uses_of_mem_opRows r hmem
  rw [hop, fieldOp_toNat] at hch hlen
  have hrsv : (fieldRsv w == 0#32) = true ↔ w.toNat / 2 ^ 32 = 0 := by
    rw [beq_iff_eq, BitVec.toNat_eq, fieldRsv_toNat]; rfl
  rw [Bool.and_eq_true, Bool.and_eq_true, hrsv, chAllowed_iff, lenAllowed_iff, hch, hlen, fieldCh_toNat,
    fieldLen_toNat, and_assoc, and_assoc]

/-- An OP outside the map is ILLEGAL_OP, whatever the other fields hold (R81). -/
theorem decode_of_undefined (nsm : Nat) (w : Word) (h : ¬ IsDefinedOp (w.toNat % 2 ^ 8)) :
    decode nsm w = .error .illegalOp := by
  rw [← fieldOp_toNat, ← rowOf_eq_none_iff] at h
  simp [decode, h]

/-- A defined OP is decoded by its row: to the command the row builds when the fields are legal, and to
RESERVED_FIELD otherwise (R80, R82, R83). -/
theorem decode_of_defined (nsm : Nat) (w : Word) (h : IsDefinedOp (w.toNat % 2 ^ 8)) :
    ∃ r ∈ opRows, r.op = fieldOp w ∧
      decode nsm w =
        if LegalFields nsm w then .ok (r.build (fieldCh w) (fieldLen w)) else .error .reservedField := by
  cases hr : rowOf (fieldOp w) with
  | none =>
    rw [rowOf_eq_none_iff, fieldOp_toNat] at hr
    exact absurd h hr
  | some r =>
    obtain ⟨hmem, hop⟩ := rowOf_some hr
    refine ⟨r, hmem, hop, ?_⟩
    simp only [decode, hr, fields_allowed_iff nsm w r hr]

end Sys2Proof
end

section
/-! PROOF. A command word selects one command or raises one fault, told from its numbers (30_encoding.md R88). -/

namespace Sys2Proof.Machine

/-- A host write to CMD takes the event and runs the word. -/
theorem step_writeTo_cmd (s : State) (w : Word) (rest : List HostEvent) (hp : s.pending = writeTo .cmd w :: rest) :
    step s = runCommand w { s with pending := rest } := by
  have ht := accessTarget_of_mem_fixedRegs s.params (.write w) .cmd (by decide)
  rcases step_cases s _ rest hp with ⟨he, -⟩ | ⟨a, he, hc⟩
  · cases he
  · cases he
    simpa [ht] using hc

/-- A word that selects no command raises its fault, with the word's OP as FOP (60_exceptions.md R231). -/
theorem runCommand_of_decode_error (w : Word) (s : State) (e : Reject) (h : decode s.params.nsm w = .error e) :
    runCommand w s = .next (s.faulted (rejectCause e) (BitVec.ofNat 8 (w.toNat % 2 ^ 8))) := by
  have hbus : rejectCause e ≠ .bus := by cases e <;> decide
  rw [← fieldOp_eq_ofNat, ← raise_eq_faulted s (rejectCause e) (fieldOp w) fun hb => absurd hb hbus]
  simp only [runCommand, h]

/-- Settles O3: an OP without a row faults, and the row of a defined OP, which uses CH for the smoother commands and
LEN for the block commands, checks the fields and builds the command. -/
theorem commandWordSelectsOrFaults : Obligations.CommandWordSelectsOrFaults := by
  unfold Obligations.CommandWordSelectsOrFaults
  intro s w rest hp op ch len rsv smoother defined block legal taken
  rw [step_writeTo_cmd s w rest hp]
  refine ⟨fun hund => ?_, fun hdef hill => ?_, fun hdef hleg => ?_⟩
  · exact runCommand_of_decode_error w taken .illegalOp (decode_of_undefined _ w hund)
  · obtain ⟨r, -, -, hdec⟩ := decode_of_defined s.params.nsm w hdef
    exact runCommand_of_decode_error w taken .reservedField (hdec.trans (if_neg hill))
  · obtain ⟨r, hmem, hop, hdec⟩ := decode_of_defined s.params.nsm w hdef
    obtain ⟨hbop, hbch, hblen⟩ := build_of_mem_opRows r hmem (fieldCh w) (fieldLen w)
    obtain ⟨hch, hlen⟩ := uses_of_mem_opRows r hmem
    rw [hop, fieldOp_toNat] at hch hlen
    refine ⟨_, hdec.trans (if_pos hleg), ?_, fun h => ?_, fun h => ?_, fun h => ?_, fun h => ?_⟩
    · rw [hbop, hop, fieldOp_eq_ofNat]
    · rw [hbch, if_pos (hch.2 h), fieldCh_eq_ofNat]
    · rw [hbch, if_neg (mt hch.1 h)]
    · rw [hblen, if_pos (hlen.2 h), fieldLen_eq_ofNat]
    · rw [hblen, if_neg (mt hlen.1 h)]

end Sys2Proof.Machine
end

section
/-! SUPPORT. The checks a command makes before it acts, told from its operands (60_exceptions.md R233): one that
passes leaves the command to go on, one that fails leaves the state of the fault rule R231. -/

namespace Sys2Proof.Machine

theorem check_pass {s : State} {ok : Bool} {c : Cause} {op : BitVec 8} {t : State} (h : ok = true) :
    s.check ok c op t = t := by
  rw [h, check_true]

theorem check_fail {s : State} {ok : Bool} {c : Cause} {op : BitVec 8} {t : State} (h : ¬ ok = true)
    (hc : c ≠ .bus) : s.check ok c op t = s.faulted c op := by
  rw [Bool.not_eq_true] at h
  rw [h, check_false, raise_eq_faulted s c op fun hb => absurd hb hc]

/-- The block check on a block inside DMEM (20_memory.md R61). -/
theorem check_block_pass {s : State} {n : BitVec 20} {op : BitVec 8} {t : State}
    (h : s.opb.toNat + n.toNat ≤ s.params.dmemWords) : s.check (s.blockFits n) .dmemRange op t = t :=
  check_pass ((blockFits_iff s n).2 h)

/-- The block check on a block that leaves DMEM (20_memory.md R61). -/
theorem check_block_fail {s : State} {n : BitVec 20} {op : BitVec 8} {t : State}
    (h : s.params.dmemWords < s.opb.toNat + n.toNat) :
    s.check (s.blockFits n) .dmemRange op t = s.faulted .dmemRange op :=
  check_fail (fun hf => Nat.not_le_of_lt h ((blockFits_iff s n).1 hf)) (by decide)

/-- The delay check on a delay inside the line (40_cbuf.md R101). -/
theorem check_delay_pass {s : State} {dl : Nat} {op : BitVec 8} {t : State} (hdl : dl < s.cb.cap)
    (hopa : s.opa.toInt = (dl : Int)) : s.check (delayInRange s.opaInt s.cb.cap) .delayRange op t = t :=
  check_pass <| (delayInRange_iff _ _).2 <| by
    show 0 ≤ s.opa.toInt ∧ s.opa.toInt < (s.cb.cap : Int)
    omega

/-- The delay check on a delay outside the line (40_cbuf.md R101). -/
theorem check_delay_fail {s : State} {op : BitVec 8} {t : State}
    (h : s.opa.toInt < 0 ∨ (s.cb.cap : Int) ≤ s.opa.toInt) :
    s.check (delayInRange s.opaInt s.cb.cap) .delayRange op t = s.faulted .delayRange op := by
  refine check_fail (fun hr => ?_) (by decide)
  obtain ⟨h0, hcap⟩ : 0 ≤ s.opa.toInt ∧ s.opa.toInt < (s.cb.cap : Int) := (delayInRange_iff _ _).1 hr
  omega

end Sys2Proof.Machine
end

section
/-! SUPPORT. The circular buffer's cursor moves and reads as remainders by the capacity (40_cbuf.md R102), and what
a block command leaves in DMEM. -/

namespace Sys2Proof.Machine

/-! ## Cursors -/

/-- A cursor advanced `k` times, advanced once more. -/
theorem adv_add_mod (cap c k : Nat) (h : IsPow2 cap) : adv cap ((c + k) % cap) = (c + (k + 1)) % cap := by
  rw [adv_eq_mod cap _ h, Nat.mod_add_mod, Nat.add_assoc]

theorem push_eq (u : CbUnit) (v : Word) (h : IsPow2 u.cap) :
    u.push v = { u with wc := (u.wc + 1) % u.cap, store := storeWrite u.store ((u.wc + 1) % u.cap) v } := by
  simp only [CbUnit.push, adv_eq_mod u.cap u.wc h]

theorem advanceRead_eq (u : CbUnit) (h : IsPow2 u.cap) :
    u.advanceRead = { u with rc := (u.rc + 1) % u.cap } := by
  simp only [CbUnit.advanceRead, adv_eq_mod u.cap u.rc h]

theorem atDelay_eq (u : CbUnit) (dl : Nat) (hw : u.wc < u.cap) (hd : dl ≤ u.cap) :
    u.atDelay dl = storeRead u.store ((u.wc + u.cap - dl) % u.cap) := by
  rw [CbUnit.atDelay, didx_eq_mod u.wc dl u.cap hw hd]

/-- The distance of R113 without integers: the capacity is added before the read cursor is taken off. -/
theorem distance_eq (u : CbUnit) (hr : u.rc < u.cap) : u.distance = (u.wc + u.cap - u.rc) % u.cap := by
  have hshift : (u.wc : Int) - u.rc = ((u.wc + u.cap - u.rc : Nat) : Int) - u.cap := by omega
  rw [CbUnit.distance, hshift, Int.sub_emod_right, ← Int.natCast_emod, Int.toNat_natCast]

/-! ## Blocks in DMEM -/

/-- `m'` is the memory `m` with the block of `n` words from `a` on written: word `a + i` lists `v i`, and every word
outside the block lists what it did. -/
def BlockWritten (m : List WordCell) (a n : Nat) (v : Nat → Word) (m' : List WordCell) : Prop :=
  (∀ i, i < n → cellGet m' (a + i) = some (v i)) ∧
  ∀ x, (x < a ∨ a + n ≤ x) → cellGet m' x = cellGet m x

theorem blockWritten_zero (m : List WordCell) (a : Nat) (v : Nat → Word) : BlockWritten m a 0 v m :=
  ⟨fun _ hi => absurd hi (Nat.not_lt_zero _), fun _ _ => rfl⟩

/-- The next element of a block is written after its last one. -/
theorem BlockWritten.succ {m m' : List WordCell} {a n : Nat} {v : Nat → Word} (h : BlockWritten m a n v m') :
    BlockWritten m a (n + 1) v (cellPut m' (a + n) (v n)) := by
  obtain ⟨hin, hout⟩ := h
  refine ⟨fun i hi => ?_, fun x hx => ?_⟩
  · rw [cellGet_cellPut]
    obtain hlt | rfl := Nat.lt_succ_iff_lt_or_eq.1 hi
    · rw [if_neg (by omega), hin i hlt]
    · rw [if_pos rfl]
  · rw [cellGet_cellPut, if_neg (by omega), hout x (by omega)]

end Sys2Proof.Machine
end

section
/-! PROOF. CB.RESIZE (40_cbuf.md R103). -/

namespace Sys2Proof.Machine

theorem exec_cbResize_of_neg (s : State) (h : s.opa.toInt < 0) :
    exec .cbResize s = .next (s.faulted .operand 0x01#8) :=
  congrArg Host.Outcome.next <| check_fail (fun hn => Int.not_le.2 h (of_decide_eq_true hn)) (by decide)

theorem exec_cbResize_of_gt_maxCap (s : State) (h0 : 0 ≤ s.opa.toInt) (h : (s.params.maxCap : Int) < s.opa.toInt) :
    exec .cbResize s = .next (s.faulted .capacity 0x01#8) :=
  congrArg Host.Outcome.next <| (check_pass (decide_eq_true h0)).trans <|
    check_fail (fun hn => Int.not_le.2 h (of_decide_eq_true hn)) (by decide)

theorem exec_cbResize_of_le_maxCap (s : State) (h0 : 0 ≤ s.opa.toInt) (h : s.opa.toInt ≤ (s.params.maxCap : Int)) :
    exec .cbResize s = .next { s with cb := CbUnit.resize s.opa.toInt.toNat } :=
  congrArg Host.Outcome.next <| (check_pass (decide_eq_true h0)).trans <| check_pass (decide_eq_true h)

/-- Settles O23: the two checks in their order, and NP2 answers the least power of two at or above the size. -/
theorem cbResizeResult : Obligations.CbResizeResult := by
  unfold Obligations.CbResizeResult
  refine fun s => ⟨exec_cbResize_of_neg s, exec_cbResize_of_gt_maxCap s, fun h0 h => ?_⟩
  have hle : s.opa.toInt ≤ (np2 s.opa.toInt.toNat : Int) := by
    have := le_np2 s.opa.toInt.toNat
    omega
  have hleast : ∀ j, s.opa.toInt ≤ ((2 ^ j : Nat) : Int) → np2 s.opa.toInt.toNat ≤ 2 ^ j :=
    fun j hj => np2_le _ j (Int.toNat_le.2 hj)
  exact ⟨_, exec_cbResize_of_le_maxCap s h0 h, rfl, ⟨_, isPow2_np2 _⟩, hle, hleast, rfl, rfl, storeRead_nil⟩

end Sys2Proof.Machine
end

section
/-! PROOF. CB.PUSH (40_cbuf.md R104). -/

namespace Sys2Proof.Machine

theorem exec_cbPush (s : State) (h : IsPow2 s.cb.cap) :
    exec .cbPush s = .next { s with
      cb := { s.cb with
        wc := (s.cb.wc + 1) % s.cb.cap
        store := storeWrite s.cb.store ((s.cb.wc + 1) % s.cb.cap) s.opa } } := by
  rw [← push_eq s.cb s.opa h]
  rfl

/-- Settles O24: one push is one write of the delay line, at the advanced cursor. -/
theorem cbPushResult : Obligations.CbPushResult := by
  unfold Obligations.CbPushResult
  intro s ⟨hpow, _, _, _, hrising, _⟩
  exact ⟨_, exec_cbPush s hpow, rfl, fun i => storeRead_storeWrite s.cb.store _ i s.opa hrising⟩

end Sys2Proof.Machine
end

section
/-! PROOF. The commands that read one sample or the cursors: CB.PULL, CB.PULLDLY, CB.WRDIST and CB.RSTRD
(40_cbuf.md R106, R109, R113, R114). -/

namespace Sys2Proof.Machine

theorem exec_cbPull (s : State) (h : IsPow2 s.cb.cap) :
    exec .cbPull s = .next { s with
      cb := { s.cb with rc := (s.cb.rc + 1) % s.cb.cap }
      res := storeRead s.cb.store ((s.cb.rc + 1) % s.cb.cap) } := by
  rw [← advanceRead_eq s.cb h, ← adv_eq_mod s.cb.cap s.cb.rc h]
  rfl

theorem exec_cbPullDly_of_inRange (s : State) (dl : Nat) (hw : s.cb.wc < s.cb.cap) (hdl : dl < s.cb.cap)
    (hopa : s.opa.toInt = (dl : Int)) :
    exec .cbPullDly s = .next { s with res := storeRead s.cb.store ((s.cb.wc + s.cb.cap - dl) % s.cb.cap) } := by
  have hoff : s.opaInt.toNat = dl := by rw [State.opaInt, hopa, Int.toNat_natCast]
  rw [← atDelay_eq s.cb dl hw hdl.le, ← hoff]
  exact congrArg Host.Outcome.next (check_delay_pass hdl hopa)

/-- Settles O26: the cursor moves and the delay index are remainders by the capacity, and a delay outside the line
fails the one check. -/
theorem cbSampleReadResults : Obligations.CbSampleReadResults := by
  unfold Obligations.CbSampleReadResults
  intro s ⟨hpow, _, hwc, hrc, _⟩
  refine ⟨exec_cbPull s hpow, fun dl => exec_cbPullDly_of_inRange s dl hwc, fun hout => ?_, ?_, rfl⟩
  · exact congrArg Host.Outcome.next (check_delay_fail hout)
  · exact congrArg (fun d => Host.Outcome.next { s with res := BitVec.ofNat 64 d }) (distance_eq s.cb hrc)

end Sys2Proof.Machine
end

section
/-! PROOF. CB.PULLBLK (40_cbuf.md R107). -/

namespace Sys2Proof.Machine

/-- The loop of `n` pulls: the read cursor has advanced `n` times, and the block holds the samples it passed. -/
theorem pullElem_loop (a n : Nat) (s : State) (hpow : IsPow2 s.cb.cap) (hrc : s.cb.rc < s.cb.cap) :
    ∃ m, blockLoop (pullElem a) n 0 s =
        { s with cb := { s.cb with rc := (s.cb.rc + n) % s.cb.cap }, dmem := m } ∧
      BlockWritten s.dmem a n (fun i => storeRead s.cb.store ((s.cb.rc + 1 + i) % s.cb.cap)) m := by
  induction n with
  | zero =>
    refine ⟨s.dmem, ?_, blockWritten_zero ..⟩
    rw [Nat.add_zero, Nat.mod_eq_of_lt hrc]
    rfl
  | succ n ih =>
    obtain ⟨m, hloop, hm⟩ := ih
    refine ⟨_, ?_, hm.succ⟩
    have hrd : s.cb.rc + 1 + n = s.cb.rc + (n + 1) := by omega
    rw [blockLoop_succ, hloop, Nat.zero_add, hrd, ← adv_add_mod s.cb.cap s.cb.rc n hpow]
    rfl

/-- Settles O27: the block check, then the loop of pulls. -/
theorem cbPullBlkResult : Obligations.CbPullBlkResult := by
  unfold Obligations.CbPullBlkResult
  refine fun n s => ⟨fun h => congrArg Host.Outcome.next (check_block_fail h), fun hfit hinv => ?_⟩
  obtain ⟨hpow, _, _, hrc, _⟩ := hinv
  obtain ⟨m, hloop, hin, hout⟩ := pullElem_loop s.opb.toNat n.toNat s hpow hrc
  exact ⟨_, congrArg Host.Outcome.next ((check_block_pass hfit).trans hloop), rfl, hin, hout⟩

end Sys2Proof.Machine
end

section
/-! PROOF. CB.PULLDLYBLK (40_cbuf.md R110). -/

namespace Sys2Proof.Machine

/-- The loop of `n` delayed reads from index `p % cap` on: the temporary pointer has advanced `n` times, and the block
holds the samples it passed. -/
theorem pullDelayElem_loop (a n p : Nat) (s : State) (hpow : IsPow2 s.cb.cap) :
    ∃ m, blockLoop (pullDelayElem a s.cb.cap) n 0 (s, p % s.cb.cap) = ({ s with dmem := m }, (p + n) % s.cb.cap) ∧
      BlockWritten s.dmem a n (fun i => storeRead s.cb.store ((p + i) % s.cb.cap)) m := by
  induction n with
  | zero => exact ⟨s.dmem, rfl, blockWritten_zero ..⟩
  | succ n ih =>
    obtain ⟨m, hloop, hm⟩ := ih
    refine ⟨_, ?_, hm.succ⟩
    rw [blockLoop_succ, hloop, Nat.zero_add, ← adv_add_mod s.cb.cap p n hpow]
    rfl

theorem exec_cbPullDlyBlk_of_inRange (n : BitVec 20) (s : State) (dl : Nat)
    (hfit : s.opb.toNat + n.toNat ≤ s.params.dmemWords) (hw : s.cb.wc < s.cb.cap) (hdl : dl < s.cb.cap)
    (hopa : s.opa.toInt = (dl : Int)) :
    exec (.cbPullDlyBlk n) s = .next (blockLoop (pullDelayElem s.opb.toNat s.cb.cap) n.toNat 0
      (s, (s.cb.wc + s.cb.cap - dl) % s.cb.cap)).1 := by
  have hoff : s.opaInt.toNat = dl := by rw [State.opaInt, hopa, Int.toNat_natCast]
  rw [← didx_eq_mod s.cb.wc dl s.cb.cap hw hdl.le, ← hoff]
  exact congrArg Host.Outcome.next ((check_block_pass hfit).trans (check_delay_pass hdl hopa))

/-- Settles O29: the block check, then the delay check, then the loop of delayed reads. -/
theorem cbPullDlyBlkResult : Obligations.CbPullDlyBlkResult := by
  unfold Obligations.CbPullDlyBlkResult
  refine fun n s => ⟨fun h => congrArg Host.Outcome.next (check_block_fail h), fun hfit => ⟨fun hd => ?_, ?_⟩⟩
  · exact congrArg Host.Outcome.next ((check_block_pass hfit).trans (check_delay_fail hd))
  · intro dl ⟨hpow, _, hwc, _⟩ hdl hopa
    obtain ⟨m, hloop, hin, hout⟩ :=
      pullDelayElem_loop s.opb.toNat n.toNat (s.cb.wc + s.cb.cap - dl) s hpow
    have hexec := exec_cbPullDlyBlk_of_inRange n s dl hfit hwc hdl hopa
    rw [hloop] at hexec
    exact ⟨_, hexec, rfl, hin, hout⟩

end Sys2Proof.Machine
end

section
/-! SUPPORT. The values of binary64 as significands scaled by powers of two: every significand of at most 53 bits gives
one, so the part of a value below a power of two is a value again. -/

namespace Sys2Proof.Machine

theorem strictMono_magUnitsOf : StrictMono magUnitsOf := fun m n => magUnitsOf_lt m n

/-- Every encoding is a significand of at most 53 bits, scaled. -/
theorem exists_significand (m : Nat) : ∃ f k, f < 2 ^ 53 ∧ magUnitsOf m = f * 2 ^ k := by
  obtain hm | hm := Nat.lt_or_ge m (2 ^ 52)
  · exact ⟨m, 0, by omega, by rw [magUnitsOf_subnormal m hm, Nat.pow_zero, Nat.mul_one]⟩
  · exact ⟨_, _, by omega, magUnitsOf_normal m hm⟩

/-- Every scaled significand of at most 53 bits has an encoding: a short one is doubled until it has all 53, or the
scale is used up. -/
theorem exists_magUnitsOf_eq (f k : Nat) (hf : f < 2 ^ 53) : ∃ m, magUnitsOf m = f * 2 ^ k := by
  induction k generalizing f with
  | zero =>
    obtain h | h := Nat.lt_or_ge f (2 ^ 52)
    · exact ⟨f, by rw [magUnitsOf_subnormal f h, Nat.pow_zero, Nat.mul_one]⟩
    · exact ⟨_, magUnitsOf_scaled 0 f h hf.le⟩
  | succ k ih =>
    obtain h | h := Nat.lt_or_ge f (2 ^ 52)
    · obtain ⟨m, hm⟩ := ih (f * 2) (by omega)
      exact ⟨m, by rw [hm, Nat.pow_succ', Nat.mul_assoc]⟩
    · exact ⟨_, magUnitsOf_scaled (k + 1) f h hf.le⟩

/-- The part of a value below a power of two is a value, not above it. -/
theorem exists_magUnitsOf_eq_mod (m j : Nat) : ∃ r ≤ m, magUnitsOf r = magUnitsOf m % 2 ^ j := by
  obtain ⟨f, k, hf, hm⟩ := exists_significand m
  have hmod : f * 2 ^ k % 2 ^ j = f % 2 ^ (j - k) * 2 ^ k := by
    obtain h | h := Nat.le_total k j
    · rw [← Nat.mul_mod_mul_right, ← Nat.pow_add, Nat.sub_add_cancel h]
    · rw [Nat.mod_eq_zero_of_dvd ((Nat.pow_dvd_pow 2 h).mul_left f), Nat.sub_eq_zero_of_le h, Nat.pow_zero,
        Nat.mod_one, Nat.zero_mul]
  obtain ⟨r, hr⟩ := exists_magUnitsOf_eq _ k (Nat.lt_of_le_of_lt (Nat.mod_le f (2 ^ (j - k))) hf)
  rw [← hmod, ← hm] at hr
  exact ⟨r, strictMono_magUnitsOf.le_iff_le.1 (hr.trans_le (Nat.mod_le _ _)), hr⟩

theorem units_packBits_false (mag : Nat) (h : mag < 2 ^ 63) : units (packBits false mag) = magUnitsOf mag := by
  rw [units, signBit_packBits false mag h, magUnits_packBits false mag h]
  rfl

theorem unitsPerOne_pos : 0 < unitsPerOne := by
  unfold unitsPerOne
  positivity

/-- The units of a value not below zero, -0.0 included, are those of its absolute value. -/
theorem units_eq_magUnits {d : F64} (h : 0 ≤ units d) : units d = magUnits d := by
  unfold units at *
  split_ifs at * <;> omega

end Sys2Proof.Machine
end

section
/-! PROOF. The split of a delay is exact (41_interp.md R140). -/

namespace Sys2Proof.Machine

/-- For a delay not below zero the integer part counts whole ones. -/
theorem splitLo_eq_div {d : F64} (h : 0 ≤ units d) : splitLo d = magUnits d / unitsPerOne := by
  rw [splitLo, ffloor, units_eq_magUnits h, ← Int.natCast_ediv, Int.toNat_natCast]

/-- For a delay not below zero the fraction is the rounded remainder by one. -/
theorem splitFrac_eq_mod {d : F64} (h : 0 ≤ units d) :
    splitFrac d = packBits false (roundMag (magUnits d % unitsPerOne) 1) := by
  rw [splitFrac, ffloor, units_eq_magUnits h, Int.mul_comm, ← Int.emod_def, ← Int.natCast_emod, Int.toNat_natCast]

/-- The fraction is the encoding of the exact remainder: nothing is rounded away. -/
theorem splitFrac_exact {d : F64} (hfin : isFinite d = true) (h : 0 ≤ units d) :
    ∃ r < infMag, splitFrac d = packBits false r ∧ magUnitsOf r = magUnits d % unitsPerOne := by
  obtain ⟨r, hle, hr⟩ := exists_magUnitsOf_eq_mod (magBits d) 1074
  have hlt : r < infMag := hle.trans_lt ((isFinite_iff d).1 hfin)
  have hmod : magUnitsOf r = magUnits d % unitsPerOne := hr
  exact ⟨r, hlt, by rw [splitFrac_eq_mod h, ← hmod, roundMag_magUnitsOf r hlt], hmod⟩

/-- Settles O31: floor and fraction are quotient and remainder of the delay's units by one, and the remainder is a
binary64. -/
theorem splitIsExact : Obligations.SplitIsExact := by
  unfold Obligations.SplitIsExact
  intro d hfin h
  obtain ⟨r, hr, hfrac, hmod⟩ := splitFrac_exact hfin h
  have hr63 : r < 2 ^ 63 := hr.trans infMag_lt
  have hlt : magUnits d % unitsPerOne < unitsPerOne := Nat.mod_lt _ unitsPerOne_pos
  have hsum : magUnits d / unitsPerOne * unitsPerOne + magUnits d % unitsPerOne = magUnits d :=
    Nat.div_add_mod' _ _
  rw [hfrac, units_packBits_false r hr63, hmod, splitLo_eq_div h, units_eq_magUnits h]
  refine ⟨by exact_mod_cast hsum.symm, ?_, signBit_packBits false r hr63, Int.natCast_nonneg _, Int.ofNat_lt.2 hlt⟩
  rw [isFinite_iff, magBits_packBits false r hr63]
  exact hr

end Sys2Proof.Machine
end

section
/-! PROOF. CB.PULLDLYBLKI (41_interp.md R145). -/

namespace Sys2Proof.Machine

/-- The delay check on a delay inside the line (41_interp.md R143). -/
theorem check_fracDelay_pass {s : State} {op : BitVec 8} {t : State} (h0 : fle Config.zero s.opa = true)
    (hcap : flt s.opa (f64OfNat s.cb.cap) = true) :
    s.check (fracDelayInRange s.opaF64 s.cb.cap) .delayRange op t = t :=
  check_pass (Bool.and_eq_true_iff.2 ⟨h0, hcap⟩)

/-- The delay check on a delay outside the line, or a NaN (41_interp.md R143). -/
theorem check_fracDelay_fail {s : State} {op : BitVec 8} {t : State}
    (h : fle Config.zero s.opa = false ∨ flt s.opa (f64OfNat s.cb.cap) = false) :
    s.check (fracDelayInRange s.opaF64 s.cb.cap) .delayRange op t = s.faulted .delayRange op :=
  check_fail ((Bool.not_eq_true _).mpr (Bool.and_eq_false_iff.2 h)) (by decide)

/-- A delay line's capacity is a whole number that binary64 holds exactly. -/
theorem cap_lt_two_pow_53 {p : Params} {u : CbUnit} (hp : p.Legal) (hu : u.Inv p) : u.cap < 2 ^ 53 := by
  obtain ⟨⟨_, hlog⟩, _⟩ := hp
  obtain ⟨_, hcap, _⟩ := hu
  calc u.cap ≤ 2 ^ p.maxCapLog2 := hcap
    _ ≤ 2 ^ 32 := Nat.pow_le_pow_right (by decide) hlog
    _ < 2 ^ 53 := by decide

theorem units_nonneg_of_fle {d : F64} (h : fle Config.zero d = true) : 0 ≤ units d := by
  obtain ⟨hz, hd⟩ := fle_not_nan _ _ h
  exact (fle_iff _ _ hz hd).1 h

/-- A delay below a whole number has its integer part below it. -/
theorem splitLo_lt {d : F64} {cap : Nat} (hcap : cap < 2 ^ 53) (h0 : fle Config.zero d = true)
    (h : flt d (f64OfNat cap) = true) : splitLo d < cap := by
  obtain ⟨hd, hc⟩ := flt_not_nan _ _ h
  have hnn := units_nonneg_of_fle h0
  have hlt := (flt_iff _ _ hd hc).1 h
  rw [units_eq_magUnits hnn, (units_f64OfNat cap hcap).1] at hlt
  rw [splitLo_eq_div hnn]
  exact (Nat.div_lt_iff_lt_mul unitsPerOne_pos).2 (Int.ofNat_lt.1 hlt)

/-- The blend with a zero fraction is the lower sample already, so testing for it first changes nothing. -/
theorem ite_blend (lower higher frac : F64) :
    (if feq frac Config.zero = true then lower else blend lower higher frac) = blend lower higher frac := by
  by_cases h : feq frac Config.zero = true
  · rw [if_pos h, blend, if_pos h]
  · rw [if_neg h]

theorem interpElem_eq (a cap : Nat) (frac : F64) (i : Nat) (s : State) (p : Streams) :
    interpElem a cap frac i (s, p) =
      (s.memWrite (a + i) (blend (storeRead s.cb.store p.lower) (storeRead s.cb.store p.higher) frac),
        { lower := adv cap p.lower, higher := adv cap p.higher }) := by
  simp only [interpElem, ite_blend]

/-- The loop of `n` interpolated reads whose streams start at the indices `p % cap` and `q % cap`: both have advanced
`n` times, and the block holds the blends of the samples they passed. -/
theorem interpElem_loop (a n p q : Nat) (frac : F64) (s : State) (hpow : IsPow2 s.cb.cap) :
    ∃ m, blockLoop (interpElem a s.cb.cap frac) n 0 (s, { lower := p % s.cb.cap, higher := q % s.cb.cap }) =
        ({ s with dmem := m }, { lower := (p + n) % s.cb.cap, higher := (q + n) % s.cb.cap }) ∧
      BlockWritten s.dmem a n (fun i => blend (storeRead s.cb.store ((p + i) % s.cb.cap))
        (storeRead s.cb.store ((q + i) % s.cb.cap)) frac) m := by
  induction n with
  | zero => exact ⟨s.dmem, rfl, blockWritten_zero ..⟩
  | succ n ih =>
    obtain ⟨m, hloop, hm⟩ := ih
    refine ⟨_, ?_, hm.succ⟩
    rw [blockLoop_succ, hloop, Nat.zero_add, interpElem_eq, ← adv_add_mod s.cb.cap p n hpow,
      ← adv_add_mod s.cb.cap q n hpow]
    rfl

/-- The block read at a delay whose integer part lies inside the line. -/
theorem interpBlock_eq (s : State) (d : F64) (n : Nat) (hpow : IsPow2 s.cb.cap) (hw : s.cb.wc < s.cb.cap)
    (hlo : splitLo d < s.cb.cap) :
    ∃ m, interpBlock s d n = { s with dmem := m } ∧
      BlockWritten s.dmem s.opb.toNat n (fun i =>
        blend (storeRead s.cb.store ((s.cb.wc + s.cb.cap - splitLo d + i) % s.cb.cap))
          (storeRead s.cb.store ((s.cb.wc + s.cb.cap - (splitLo d + 1) + i) % s.cb.cap)) (splitFrac d)) m := by
  obtain ⟨m, hloop, hm⟩ := interpElem_loop s.opb.toNat n (s.cb.wc + s.cb.cap - splitLo d)
    (s.cb.wc + s.cb.cap - (splitLo d + 1)) (splitFrac d) s hpow
  rw [← didx_eq_mod s.cb.wc _ s.cb.cap hw hlo.le, ← didx_eq_mod s.cb.wc _ s.cb.cap hw hlo] at hloop
  exact ⟨m, congrArg Prod.fst hloop, hm⟩

theorem exec_cbPullDlyBlkI_of_inRange (n : BitVec 20) (s : State)
    (hfit : s.opb.toNat + n.toNat ≤ s.params.dmemWords) (h0 : fle Config.zero s.opa = true)
    (hcap : flt s.opa (f64OfNat s.cb.cap) = true) :
    exec (.cbPullDlyBlkI n) s = .next (interpBlock s s.opa n.toNat) :=
  congrArg Host.Outcome.next ((check_block_pass hfit).trans (check_fracDelay_pass h0 hcap))

/-- Settles O32: the block check, then the delay check, then the loop of interpolated reads. -/
theorem cbInterpolatedBlockResult : Obligations.CbInterpolatedBlockResult := by
  unfold Obligations.CbInterpolatedBlockResult
  refine fun n s => ⟨fun h => congrArg Host.Outcome.next (check_block_fail h), fun hfit => ⟨fun hd => ?_, ?_⟩⟩
  · exact congrArg Host.Outcome.next ((check_block_pass hfit).trans (check_fracDelay_fail hd))
  · intro hinv hlegal h0 hlt
    have hlo := splitLo_lt (cap_lt_two_pow_53 hlegal hinv) h0 hlt
    obtain ⟨hpow, _, hwc, _⟩ := hinv
    obtain ⟨m, hblock, hin, hout⟩ := interpBlock_eq s s.opa n.toNat hpow hwc hlo
    have hexec := exec_cbPullDlyBlkI_of_inRange n s hfit h0 hlt
    rw [hblock] at hexec
    exact ⟨_, hexec, rfl, hlo, hin, hout⟩

end Sys2Proof.Machine
end

section
/-! SUPPORT. The comb's tap as a blend of the samples an integer delay back, the input itself counting as the sample 0
back (42_comb.md R163): a fractional delay that fits the line keeps its second sample inside it. -/

namespace Sys2Proof.Machine

/-! ## The two samples of a fractional delay -/

/-- The ceiling is not below the floor. -/
theorem splitLo_le_ceil (d : F64) : splitLo d ≤ (fceil d).toNat := by
  have hu : (0 : Int) < unitsPerOne := Int.ofNat_lt.2 unitsPerOne_pos
  have hfloor : ffloor d * unitsPerOne ≤ units d := Int.ediv_mul_le _ hu.ne'
  have hceil : units d ≤ fceil d * unitsPerOne := by
    have := Int.ediv_mul_le (-units d) hu.ne'
    rw [fceil, Int.neg_mul]
    omega
  exact Int.toNat_le_toNat (Int.le_of_mul_le_mul_right (hfloor.trans hceil) hu)

/-- A delay with a zero remainder by one has the fraction +0.0. -/
theorem splitFrac_eq_zero {d : F64} (h : 0 ≤ units d) (hmod : magUnits d % unitsPerOne = 0) :
    splitFrac d = Config.zero := by
  rw [splitFrac_eq_mod h, hmod, roundMag_zero]
  rfl

/-- For a delay with a nonzero fraction the sample after the floor is not beyond the ceiling. -/
theorem splitLo_lt_ceil {d : F64} (h : 0 ≤ units d) (hfrac : feq (splitFrac d) Config.zero = false) :
    splitLo d < (fceil d).toNat := by
  have hu : (0 : Int) < unitsPerOne := Int.ofNat_lt.2 unitsPerOne_pos
  have hmod : magUnits d % unitsPerOne ≠ 0 := by
    intro hmod
    rw [splitFrac_eq_zero h hmod] at hfrac
    exact absurd hfrac (by decide)
  have hfloor : splitLo d * unitsPerOne < magUnits d := by
    have := Nat.div_add_mod' (magUnits d) unitsPerOne
    rw [splitLo_eq_div h]
    omega
  have hceil : -units d / unitsPerOne < -(splitLo d : Int) := by
    rw [Int.ediv_lt_iff_lt_mul hu, units_eq_magUnits h, Int.neg_mul]
    exact Int.neg_lt_neg (by exact_mod_cast hfloor)
  unfold fceil
  omega

/-! ## The tap -/

/-- The sample `k` back from the advanced write cursor, the input `x` being the sample 0 back (42_comb.md R163). -/
def CfUnit.back (u : CfUnit) (x : F64) (k : Nat) : Word :=
  if k = 0 then x else storeRead u.store (((u.wc + 1) % u.cap + u.cap - k) % u.cap)

theorem feed_eq (u : CfUnit) (x : F64) (h : IsPow2 u.cap) :
    u.feed x = { u with wc := (u.wc + 1) % u.cap, store := storeWrite u.store ((u.wc + 1) % u.cap) x } := by
  simp only [CfUnit.feed, adv_eq_mod u.cap u.wc h]

/-- Going back fewer samples than the capacity comes to the starting index only by going back none. -/
theorem back_index_eq_iff {wc k cap : Nat} (hw : wc < cap) (hk : k < cap) : (wc + cap - k) % cap = wc ↔ k = 0 := by
  obtain h | h := Nat.lt_or_ge wc k
  · rw [Nat.mod_eq_of_lt (by omega)]
    omega
  · rw [show wc + cap - k = wc - k + cap by omega, Nat.add_mod_right, Nat.mod_eq_of_lt (by omega)]
    omega

/-- The line that has just been fed holds the samples back inside it. -/
theorem storeRead_feed_didx (u : CfUnit) (x : F64) (k : Nat) (hpow : IsPow2 u.cap) (hm : Rising u.store)
    (hk : k < u.cap) : storeRead (u.feed x).store (didx (u.feed x).wc k u.cap) = u.back x k := by
  have hw : (u.wc + 1) % u.cap < u.cap := Nat.mod_lt _ (isPow2_pos _ hpow)
  rw [feed_eq u x hpow]
  simp only [didx_eq_mod _ k u.cap hw hk.le, storeRead_storeWrite _ _ _ _ hm, back_index_eq_iff hw hk, CfUnit.back]

/-- The tap tests the fraction before it reads the second sample, which changes nothing. -/
theorem tap_eq_blend (store : List WordCell) (wc cap : Nat) (d : F64) :
    tap store wc cap d = blend (storeRead store (didx wc (splitLo d) cap))
      (storeRead store (didx wc (splitLo d + 1) cap)) (splitFrac d) :=
  ite_blend _ _ _

/-- The tap of the line that has just been fed, for a delay that fits the line. -/
theorem tap_feed (u : CfUnit) (x d : F64) (hpow : IsPow2 u.cap) (hm : Rising u.store) (h : 0 ≤ units d)
    (hfit : (fceil d).toNat + 1 ≤ u.cap) :
    tap (u.feed x).store (u.feed x).wc u.cap d =
      blend (u.back x (splitLo d)) (u.back x (splitLo d + 1)) (splitFrac d) := by
  have hlower := storeRead_feed_didx u x (splitLo d) hpow hm (Nat.lt_of_le_of_lt (splitLo_le_ceil d) hfit)
  rw [tap_eq_blend, hlower]
  cases hfrac : feq (splitFrac d) Config.zero with
  | true => rw [blend, blend, if_pos hfrac, if_pos hfrac]
  | false =>
    have hlt := splitLo_lt_ceil h hfrac
    rw [storeRead_feed_didx u x (splitLo d + 1) hpow hm (by omega)]

/-- A value with a clear sign bit is not below zero. -/
theorem units_nonneg_of_signBit {d : F64} (h : signBit d = false) : 0 ≤ units d := by
  rw [units, h]
  exact Int.natCast_nonneg _

end Sys2Proof.Machine
end

section
/-! PROOF. CF.PROC (42_comb.md R163, R164). -/

namespace Sys2Proof.Machine

/-- The output of one step of the comb, in the samples before it. -/
theorem CfUnit.step_output (u : CfUnit) (p : Params) (x : F64) (h : u.Inv p) :
    (u.step x).1 = fadd x (fmul u.k
      (blend (u.back x (splitLo u.delay)) (u.back x (splitLo u.delay + 1)) (splitFrac u.delay))) := by
  obtain ⟨⟨hpow, _, _, _, hrising, _⟩, _, ⟨_, hsign, _, hfit⟩, _⟩ := h
  rw [← tap_feed u x u.delay hpow hrising (units_nonneg_of_signBit hsign) hfit]
  rfl

/-- One step moves the write cursor and writes the storage; the rest of the comb stays. -/
theorem CfUnit.step_unit (u : CfUnit) (x : F64) (hpow : IsPow2 u.cap) :
    (u.step x).2 = { u with wc := (u.wc + 1) % u.cap, store := (u.step x).2.store } := by
  simp only [CfUnit.step, feed_eq u x hpow]
  split <;> rfl

/-- One step writes one word of the line: the output in feedback mode, else the input. -/
theorem CfUnit.storeRead_step (u : CfUnit) (x : F64) (hpow : IsPow2 u.cap) (hm : Rising u.store) (i : Nat) :
    storeRead (u.step x).2.store i =
      if i = (u.wc + 1) % u.cap then (if u.fb then (u.step x).1 else x) else storeRead u.store i := by
  simp only [CfUnit.step, feed_eq u x hpow]
  cases u.fb with
  | false => exact storeRead_storeWrite _ _ i x hm
  | true =>
    simp only [if_true, storeRead_storeWrite _ _ i _ (rising_storeWrite _ _ _ hm), storeRead_storeWrite _ _ i _ hm]
    split <;> rfl

/-- Settles O34: one step of the comb, whose tap is the blend of two samples back. -/
theorem cfProcResult : Obligations.CfProcResult := by
  unfold Obligations.CfProcResult
  intro s _ hinv
  have hout := s.cf.step_output s.params s.opa hinv
  obtain ⟨⟨hpow, _, _, _, hrising, _⟩, _⟩ := hinv
  refine ⟨{ s with cf := (s.cf.step s.opa).2, res := (s.cf.step s.opa).1 }, rfl, ?_, fun i => ?_⟩
  · show { s with cf := (s.cf.step s.opa).2, res := (s.cf.step s.opa).1 } = { s with cf := _, res := _ }
    rw [← s.cf.step_unit s.opa hpow, hout]
    rfl
  · exact hout ▸ s.cf.storeRead_step s.opa hpow hrising i

end Sys2Proof.Machine
end

section
/-! PROOF. CF.PROCBLK (42_comb.md R165). -/

namespace Sys2Proof.Machine

/-- The comb fed a list of inputs: the outputs and the unit they leave (42_comb.md R165). -/
def CfUnit.run : CfUnit → List F64 → List F64 × CfUnit
  | u, [] => ([], u)
  | u, x :: xs => ((u.step x).1 :: ((u.step x).2.run xs).1, ((u.step x).2.run xs).2)

theorem length_run (u : CfUnit) (xs : List F64) : (u.run xs).1.length = xs.length := by
  induction xs generalizing u with
  | nil => rfl
  | cons x xs ih => exact congrArg (· + 1) (ih (u.step x).2)

/-- CF.PROC commands one after another feed the comb their operands. -/
theorem runAll_cfProc (xs : List Word) (s : State) :
    (runAll (xs.map fun x => (x, Instr.cfProc)) s).1 = (s.cf.run xs).1 ∧
    (runAll (xs.map fun x => (x, Instr.cfProc)) s).2.cf = (s.cf.run xs).2 := by
  induction xs generalizing s with
  | nil => exact ⟨rfl, rfl⟩
  | cons x xs ih =>
    obtain ⟨hout, hcf⟩ := ih { s with opa := x, cf := (s.cf.step x).2, res := (s.cf.step x).1 }
    exact ⟨congrArg ((s.cf.step x).1 :: ·) hout, hcf⟩

/-- One element of CF.PROCBLK over a written word. -/
theorem procElem_of_listed (a i : Nat) (s : State) (x : Word) (h : cellGet s.dmem (a + i) = some x) :
    procElem a i s =
      { s with cf := (s.cf.step x).2, dmem := cellPut s.dmem (a + i) (s.cf.step x).1 } := by
  simp only [procElem, memRead_of_listed s _ x h]
  rfl

/-- The block holds these words. -/
def BlockHolds (m : List WordCell) (a : Nat) (xs : List Word) : Prop :=
  ∀ (i : Nat) (v : Word), xs[i]? = some v → cellGet m (a + i) = some v

/-- The words after the first one of a block, which a write to the first one leaves. -/
theorem BlockHolds.tail {m : List WordCell} {a : Nat} {x : Word} {xs : List Word} (h : BlockHolds m a (x :: xs))
    (y : Word) : BlockHolds (cellPut m a y) (a + 1) xs := by
  intro i v hv
  rw [cellGet_cellPut, if_neg (by omega), Nat.add_assoc, Nat.add_comm 1 i]
  exact h (i + 1) v hv

/-- A block is written when its first word is, and then the words after it. -/
theorem BlockWritten.cons {m m' : List WordCell} {a n : Nat} {v : Nat → Word}
    (h : BlockWritten (cellPut m a (v 0)) (a + 1) n (fun i => v (i + 1)) m') : BlockWritten m a (n + 1) v m' := by
  obtain ⟨hin, hout⟩ := h
  refine ⟨fun i hi => ?_, fun x hx => ?_⟩
  · cases i with
    | zero => rw [hout _ (by omega), cellGet_cellPut, if_pos (by omega)]
    | succ i => rw [← hin i (by omega), Nat.add_assoc, Nat.add_comm 1 i]
  · rw [hout x (by omega), cellGet_cellPut, if_neg (by omega)]

/-- The loop over a block that holds the inputs `xs` feeds them to the comb and leaves the outputs in their place. -/
theorem procElem_loop (a : Nat) (xs : List Word) (i : Nat) (s : State) (h : BlockHolds s.dmem (a + i) xs) :
    ∃ m, blockLoop (procElem a) xs.length i s = { s with cf := (s.cf.run xs).2, dmem := m } ∧
      BlockWritten s.dmem (a + i) xs.length (fun j => (s.cf.run xs).1.getD j Config.zero) m := by
  induction xs generalizing i s with
  | nil => exact ⟨s.dmem, rfl, blockWritten_zero ..⟩
  | cons x xs ih =>
    have helem := procElem_of_listed a i s x (h 0 x rfl)
    obtain ⟨m, hloop, hm⟩ := ih (i + 1) (procElem a i s) (by rw [helem]; exact h.tail _)
    rw [helem] at hloop hm
    refine ⟨m, ?_, hm.cons⟩
    rw [List.length_cons, blockLoop, helem, hloop]
    rfl

/-- Settles O35: the block loop and the commands one by one both feed the comb the same inputs. -/
theorem cfProcBlkIsRepeatedProc : Obligations.CfProcBlkIsRepeatedProc := by
  unfold Obligations.CfProcBlkIsRepeatedProc
  refine fun n s => ⟨fun h => congrArg Host.Outcome.next (check_block_fail h), fun xs hfit hlen hxs => ?_⟩
  obtain ⟨hout, hcf⟩ := runAll_cfProc xs s
  obtain ⟨m, hloop, hin, hrest⟩ := procElem_loop s.opb.toNat xs 0 s hxs
  rw [hlen] at hloop hin hrest
  have hys : (s.cf.run xs).1.length = n.toNat := (length_run s.cf xs).trans hlen
  simp only [hout, hcf]
  refine ⟨_, congrArg Host.Outcome.next ((check_block_pass hfit).trans hloop), rfl, hys, fun i hi => ?_, hrest⟩
  rw [List.getElem?_eq_getElem (hys ▸ hi), ← List.getD_eq_getElem _ Config.zero]
  exact hin i hi

end Sys2Proof.Machine
end

section
/-! SUPPORT. The three commands that give the comb a new delay, CF.SETFREQ, CF.SETDLY and CF.INITFS: the operand check,
the delay's limit, and the line grown for the delay (42_comb.md R161, R162). -/

namespace Sys2Proof.Machine

/-- The comb given a rate, a frequency and a delay, with the line grown for the delay. -/
def CfUnit.retune (u : CfUnit) (fs freq d : F64) : CfUnit :=
  CfUnit.grow { u with fs := fs, freq := freq, delay := d } d

/-- Beside what it is given, growing writes the delay line and its cursors only. -/
theorem retune_eq (u : CfUnit) (fs freq d : F64) :
    u.retune fs freq d = { u with
      fs := fs, freq := freq, delay := d, cap := (u.retune fs freq d).cap, wc := (u.retune fs freq d).wc
      rc := (u.retune fs freq d).rc, store := (u.retune fs freq d).store } := by
  simp only [CfUnit.retune, CfUnit.grow]
  split <;> rfl

/-- A line too short for the delay takes the least power of two above it, and one long enough stays. -/
theorem grownFor_retune (u : CfUnit) (fs freq d : F64) : u.GrownFor (u.retune fs freq d) d := by
  simp only [CfUnit.GrownFor, CfUnit.retune, CfUnit.grow]
  split
  case isTrue hshort =>
    exact ⟨fun hfit => absurd hshort (Nat.not_lt_of_le hfit),
      fun _ => ⟨isPow2_np2 _, le_np2 _, np2_le _, rfl, rfl, storeRead_nil⟩⟩
  case isFalse hlong =>
    exact ⟨fun _ => ⟨rfl, rfl, rfl, rfl⟩, fun hshort => absurd hshort hlong⟩

/-- The state after a command whose operand check is `ok` and which gives the comb a rate, a frequency and the delay
`d`. -/
def State.retune (s : State) (op : BitVec 8) (ok : Bool) (fs freq d : F64) : State :=
  s.check ok .operand op <| s.check (delayStorable s.params d) .capacity op { s with cf := s.cf.retune fs freq d }

section
variable {s : State} {op : BitVec 8} {ok : Bool} {fs freq d : F64}

theorem retune_of_bad_operand (h : ok = false) : s.retune op ok fs freq d = s.faulted .operand op :=
  check_fail ((Bool.not_eq_true _).mpr h) (by decide)

theorem retune_of_long_delay (h : ok = true) (hd : fle d (f64OfNat (s.params.maxCap - 1)) = false) :
    s.retune op ok fs freq d = s.faulted .capacity op :=
  (check_pass h).trans (check_fail ((Bool.not_eq_true _).mpr hd) (by decide))

theorem retune_of_storable (h : ok = true) (hd : fle d (f64OfNat (s.params.maxCap - 1)) = true) :
    s.retune op ok fs freq d = { s with cf := s.cf.retune fs freq d } :=
  (check_pass h).trans (check_pass hd)

end

theorem exec_cfSetFreq (s : State) : exec .cfSetFreq s =
    .next (s.retune 0x22#8 (flt Config.zero s.opa) s.cf.fs s.opa (fdiv s.cf.fs s.opa)) := rfl

theorem exec_cfSetDly (s : State) (d : F64) (hd : d = if feq s.opa Config.zero = true then Config.zero else s.opa) :
    exec .cfSetDly s =
      .next (s.retune 0x23#8 (fle Config.zero s.opa && isFinite s.opa) s.cf.fs (fdiv s.cf.fs d) d) := by
  subst hd
  rfl

theorem exec_cfInitFs (s : State) : exec .cfInitFs s =
    .next (s.retune 0x25#8 (rateValid s.opa) s.opa s.cf.freq (fdiv s.opa s.cf.freq)) := rfl

/-- A value that is no NaN is finite unless it is an infinity. -/
theorem isFinite_eq_not_isInf {x : F64} (h : isNaN x = false) : isFinite x = !isInf x := by
  simp only [isNaN, decide_eq_false_iff_not] at h
  rw [isFinite, isInf, ← decide_not, decide_eq_decide]
  omega

/-- The operand check of CF.SETDLY refuses a NaN, a negative and an infinity (42_comb.md R167). -/
theorem delayOperand_eq (x : F64) :
    (fle Config.zero x && isFinite x) = (fle Config.zero x && !isInf x) := by
  cases h : fle Config.zero x with
  | false => rfl
  | true => rw [isFinite_eq_not_isInf (fle_not_nan _ _ h).2]

end Sys2Proof.Machine
end

section
/-! PROOF. CF.SETFREQ, CF.SETDLY and CF.INITFS (42_comb.md R166, R167, R168). -/

namespace Sys2Proof.Machine

/-- Settles O37: the new delay is the quotient of rate and frequency. -/
theorem cfSetFreqResult : Obligations.CfSetFreqResult := by
  unfold Obligations.CfSetFreqResult
  intro s
  rw [exec_cfSetFreq s]
  exact ⟨fun h => congrArg _ (retune_of_bad_operand h), fun h hd => congrArg _ (retune_of_long_delay h hd),
    fun h hd => ⟨_, congrArg _ (retune_of_storable h hd), retune_eq .., grownFor_retune ..⟩⟩

/-- Settles O38: the new delay is the operand, -0.0 as +0.0. -/
theorem cfSetDlyResult : Obligations.CfSetDlyResult := by
  unfold Obligations.CfSetDlyResult
  intro s d
  rw [exec_cfSetDly s d rfl, delayOperand_eq]
  have hok (h0 : fle Config.zero s.opa = true) (hinf : isInf s.opa = false) :
      (fle Config.zero s.opa && !isInf s.opa) = true := by
    rw [h0, hinf]
    rfl
  exact ⟨fun h => congrArg _ (retune_of_bad_operand (Bool.and_eq_false_iff.2
      (h.imp_right (Bool.not_eq_false' _).mpr))),
    fun h0 hinf hd => congrArg _ (retune_of_long_delay (hok h0 hinf) hd),
    fun h0 hinf hd => ⟨_, congrArg _ (retune_of_storable (hok h0 hinf) hd), retune_eq .., grownFor_retune ..⟩⟩

/-- Settles O39: the new delay is the quotient of the new rate and the frequency. -/
theorem cfInitFsResult : Obligations.CfInitFsResult := by
  unfold Obligations.CfInitFsResult
  intro s
  rw [exec_cfInitFs s]
  exact ⟨fun h => congrArg _ (retune_of_bad_operand (Bool.and_eq_false_iff.2 h)),
    fun hfin h hd => congrArg _ (retune_of_long_delay (Bool.and_eq_true_iff.2 ⟨hfin, h⟩) hd),
    fun hfin h hd => ⟨_, congrArg _ (retune_of_storable (Bool.and_eq_true_iff.2 ⟨hfin, h⟩) hd),
      retune_eq .., grownFor_retune ..⟩⟩

end Sys2Proof.Machine
end

section
/-! PROOF. CF.SETFBK and CF.SETTOPO (42_comb.md R169, R170, R171). -/

namespace Sys2Proof.Machine

/-- Of two comparable values the second is at most the first exactly when the first is not below it. -/
theorem fle_eq_not_flt {x y : F64} (hx : isNaN x = false) (hy : isNaN y = false) : fle y x = !flt x y := by
  simp [fle, flt, hx, hy, ← decide_not]

theorem zero_not_nan : isNaN Config.zero = false := by decide

theorem kMax_not_nan : isNaN Config.kMax = false := by decide

/-- A value above K_MAX is not below zero. -/
theorem flt_zero_of_kMax_lt {x : F64} (h : flt Config.kMax x = true) : flt x Config.zero = false := by
  have hx := (flt_not_nan _ _ h).2
  have hk : orderKey Config.zero < orderKey Config.kMax := by decide
  simp only [flt, hx, kMax_not_nan, zero_not_nan, Bool.not_false, Bool.and_self, Bool.true_and, decide_eq_true_eq,
    decide_eq_false_iff_not] at h ⊢
  omega

theorem clampK_of_neg {x : F64} (h : flt x Config.zero = true) : clampK x = Config.zero := if_pos h

theorem clampK_of_gt {x : F64} (h : flt Config.kMax x = true) : clampK x = Config.kMax := by
  rw [clampK, flt_zero_of_kMax_lt h, h]
  rfl

theorem clampK_of_inside {x : F64} (h0 : fle Config.zero x = true) (h1 : fle x Config.kMax = true) :
    clampK x = x := by
  have hx := (fle_not_nan _ _ h0).2
  rw [fle_eq_not_flt hx zero_not_nan, Bool.not_eq_true'] at h0
  rw [fle_eq_not_flt kMax_not_nan hx, Bool.not_eq_true'] at h1
  rw [clampK, h0, h1]
  rfl

/-- The clamped intensity lies in the closed interval from zero to K_MAX. -/
theorem clampK_mem {x : F64} (hx : isNaN x = false) :
    fle Config.zero (clampK x) = true ∧ fle (clampK x) Config.kMax = true := by
  cases h0 : flt x Config.zero with
  | true =>
    rw [clampK_of_neg h0]
    decide
  | false =>
    cases h1 : flt Config.kMax x with
    | true =>
      rw [clampK_of_gt h1]
      decide
    | false =>
      have hlo : fle Config.zero x = true := by rw [fle_eq_not_flt hx zero_not_nan, h0]; rfl
      have hhi : fle x Config.kMax = true := by rw [fle_eq_not_flt kMax_not_nan hx, h1]; rfl
      rw [clampK_of_inside hlo hhi]
      exact ⟨hlo, hhi⟩

theorem exec_cfSetFbk_of_nan (s : State) (h : isNaN s.opa = true) :
    exec .cfSetFbk s = .next (s.faulted .operand 0x24#8) :=
  congrArg Host.Outcome.next <| check_fail (by rw [State.opaF64, h]; decide) (by decide)

theorem exec_cfSetFbk_of_not_nan (s : State) (h : isNaN s.opa = false) :
    exec .cfSetFbk s = .next { s with cf := { s.cf with k := clampK s.opa } } :=
  congrArg Host.Outcome.next <| check_pass (by rw [State.opaF64, h]; rfl)

/-- CF.SETTOPO with one of the two topologies (42_comb.md R170). -/
theorem exec_cfSetTopo_of_topology (s : State) (h : s.opa.toInt = 0 ∨ s.opa.toInt = 1) :
    exec .cfSetTopo s = .next { s with cf := { s.cf with fb := decide (s.opa.toInt = 1) } } :=
  congrArg Host.Outcome.next <| check_pass ((Bool.or_eq_true _ _).mpr (h.imp decide_eq_true decide_eq_true))

theorem exec_cfSetTopo_of_other (s : State) (h0 : s.opa.toInt ≠ 0) (h1 : s.opa.toInt ≠ 1) :
    exec .cfSetTopo s = .next (s.faulted .operand 0x26#8) :=
  congrArg Host.Outcome.next <| check_fail (by simp [State.opaInt, h0, h1]) (by decide)

/-- Settles O40: the clamp answers one of its bounds outside them and its operand between them, and the topology is the
operand read as an integer. -/
theorem cfSetFbkAndTopoResults : Obligations.CfSetFbkAndTopoResults := by
  unfold Obligations.CfSetFbkAndTopoResults
  refine fun s => ⟨exec_cfSetFbk_of_nan s, fun h => ?_, fun h => ?_, fun h => ?_, exec_cfSetTopo_of_other s⟩
  · obtain ⟨hlo, hhi⟩ := clampK_mem h
    exact ⟨_, exec_cfSetFbk_of_not_nan s h, hlo, hhi, clampK_of_neg, clampK_of_gt, clampK_of_inside⟩
  · rw [exec_cfSetTopo_of_topology s (.inl h), h]
    rfl
  · rw [exec_cfSetTopo_of_topology s (.inr h), h]
    rfl

end Sys2Proof.Machine
end

section
/-! SUPPORT. The smoother commands on a channel that exists (43_smooth.md R203 to R208), and one advance of a
channel in each range of SM_REM (R202). -/

namespace Sys2Proof.Machine

/-- Writing back the channel that is there changes nothing. -/
theorem set_of_getElem? {α : Type} {l : List α} {i : Nat} {a : α} (h : l[i]? = some a) : l.set i a = l := by
  obtain ⟨hi, rfl⟩ := List.getElem?_eq_some_iff.1 h
  exact List.set_getElem_self hi

/-! ## The commands on their channel -/

section
variable {c : BitVec 4} {s : State} {ch : SmChannel} (h : s.sm[c.toNat]? = some ch)
include h

theorem exec_smInit : exec (.smInit c) s =
    .next (s.check (rateValid s.opa) .operand 0x30#8 (s.setChannel c { ch with fs := s.opa })) :=
  congrArg Host.Outcome.next (withChannel_some s c _ _ ch h)

theorem exec_smSetTime : exec (.smSetTime c) s =
    .next (s.check (ch.timeValid s.opa) .operand 0x31#8
      (s.setChannel c (ch.startRamp ch.tgt (ch.stepCount s.opa)))) :=
  congrArg Host.Outcome.next (withChannel_some s c _ _ ch h)

theorem exec_smSetTgt : exec (.smSetTgt c) s =
    .next (s.check (isFinite s.opa) .operand 0x32#8 (s.setChannel c (ch.startRamp s.opa ch.steps))) :=
  congrArg Host.Outcome.next (withChannel_some s c _ _ ch h)

theorem exec_smNext : exec (.smNext c) s =
    .next { s with sm := s.sm.set c.toNat ch.step, res := ch.step.cur } :=
  congrArg Host.Outcome.next (withChannel_some s c _ _ ch h)

theorem exec_smCur : exec (.smCur c) s = .next { s with res := ch.cur } :=
  congrArg Host.Outcome.next (withChannel_some s c _ _ ch h)

theorem exec_smNextBlk (n : BitVec 20) : exec (.smNextBlk c n) s =
    .next (s.check (s.blockFits n) .dmemRange 0x35#8
      ((blockLoop (smoothElem s.opb.toNat) n.toNat 0 (s, ch)).1.setChannel c
        (blockLoop (smoothElem s.opb.toNat) n.toNat 0 (s, ch)).2)) :=
  congrArg Host.Outcome.next (withChannel_some s c _ _ ch h)

end

/-! ## One advance -/

/-- `sm_step()`'s next value before the last step: the sum of SM_CUR and SM_INC, or SM_TGT where the sum has passed
it (43_smooth.md R202). -/
def SmChannel.approach (ch : SmChannel) : F64 :=
  if (flt Config.zero ch.inc = true ∧ flt ch.tgt (fadd ch.cur ch.inc) = true) ∨
      (flt ch.inc Config.zero = true ∧ flt (fadd ch.cur ch.inc) ch.tgt = true)
    then ch.tgt else fadd ch.cur ch.inc

theorem SmChannel.step_of_rem_eq_zero {ch : SmChannel} (h : ch.rem.toNat = 0) : ch.step = ch :=
  if_pos (BitVec.eq_of_toNat_eq h)

theorem SmChannel.step_of_rem_eq_one {ch : SmChannel} (h : ch.rem.toNat = 1) :
    ch.step = { ch with cur := ch.tgt, rem := 0#32 } := by
  have hrem : ch.rem = 1#32 := BitVec.eq_of_toNat_eq h
  simp [SmChannel.step, hrem]

theorem SmChannel.step_of_two_le_rem {ch : SmChannel} (h : 2 ≤ ch.rem.toNat) :
    ch.step = { ch with cur := ch.approach, rem := BitVec.ofNat 32 (ch.rem.toNat - 1) } := by
  have h0 : ch.rem ≠ 0#32 := by bv_omega
  have h1 : ch.rem ≠ 1#32 := by bv_omega
  have hrem : ch.rem - 1#32 = BitVec.ofNat 32 (ch.rem.toNat - 1) := by bv_omega
  rw [SmChannel.step, if_neg h0, if_neg h1, hrem, SmChannel.approach]
  by_cases hup : flt Config.zero ch.inc = true ∧ flt ch.tgt (fadd ch.cur ch.inc) = true
  · simp [hup]
  · simp [hup]

end Sys2Proof.Machine
end

section
/-! PROOF. SM.INIT, SM.SETTIME, SM.SETTGT, SM.NEXT and SM.CUR (43_smooth.md R203 to R207). -/

namespace Sys2Proof.Machine

/-- Settles O42: SM.INIT's rate check fails on either of its two conditions. -/
theorem smInitAndCurResults : Obligations.SmInitAndCurResults := by
  unfold Obligations.SmInitAndCurResults
  intro c s ch hch
  rw [exec_smInit hch]
  exact ⟨fun hbad => congrArg _ (check_fail ((Bool.not_eq_true _).mpr (Bool.and_eq_false_iff.2 hbad)) (by decide)),
    fun hfin hpos => congrArg _ (check_pass (Bool.and_eq_true_iff.2 ⟨hfin, hpos⟩)), exec_smCur hch⟩

theorem SmChannel.timeValid_iff (ch : SmChannel) (ms : F64) : ch.timeValid ms = true ↔
    isFinite ms = true ∧ isFinite (ch.rawSteps ms) = true ∧ rnd (ch.rawSteps ms) ≤ 2 ^ 32 - 1 := by
  simp only [SmChannel.timeValid, Bool.and_eq_true, decide_eq_true_eq, and_assoc]

/-- A step count in range is not cut by the 32 bits of SM_S. -/
theorem SmChannel.stepCount_toNat {ch : SmChannel} {ms : F64} (h : rnd (ch.rawSteps ms) ≤ 2 ^ 32 - 1) :
    ((ch.stepCount ms).toNat : Int) = max 1 (rnd (ch.rawSteps ms)) := by
  rw [SmChannel.stepCount, BitVec.toNat_ofNat]
  omega

/-- Settles O43: the ramp restarts with the rounded count, which fits SM_S when the time passes its check. -/
theorem smSetTimeResult : Obligations.SmSetTimeResult := by
  unfold Obligations.SmSetTimeResult
  intro c s ch hch t
  rw [exec_smSetTime hch]
  refine ⟨fun hbad => congrArg _ (check_fail ?_ (by decide)), fun hms ht hle =>
    ⟨ch.stepCount s.opa, SmChannel.stepCount_toNat hle, congrArg _ (check_pass ?_)⟩⟩
  · rw [ch.timeValid_iff, not_and_or, not_and_or, Bool.not_eq_true, Bool.not_eq_true, not_le]
    exact hbad
  · exact (ch.timeValid_iff s.opa).2 ⟨hms, ht, hle⟩

/-- Settles O44: a finite target starts a ramp of SM_S steps. -/
theorem smSetTgtResult : Obligations.SmSetTgtResult := by
  unfold Obligations.SmSetTgtResult
  intro c s ch hch
  rw [exec_smSetTgt hch]
  exact ⟨fun hbad => congrArg _ (check_fail ((Bool.not_eq_true _).mpr hbad) (by decide)),
    fun hfin => congrArg _ (check_pass hfin)⟩

/-- Settles O45: the three ranges of SM_REM are the three cases of one advance. -/
theorem smNextResult : Obligations.SmNextResult := by
  unfold Obligations.SmNextResult
  intro c s ch hch sum
  rw [exec_smNext hch]
  refine ⟨fun h => ?_, fun h => ?_, fun h => ⟨ch.approach, ?_, ?_, ?_, ?_⟩⟩
  · rw [SmChannel.step_of_rem_eq_zero h, set_of_getElem? hch]
  · rw [SmChannel.step_of_rem_eq_one h]
  · rw [SmChannel.step_of_two_le_rem h]
  · exact fun hinc hpast => if_pos (.inl ⟨hinc, hpast⟩)
  · exact fun hinc hpast => if_pos (.inr ⟨hinc, hpast⟩)
  · intro hup hdown
    refine if_neg ?_
    simpa only [not_or, not_and_or, Bool.not_eq_true] using And.intro hup hdown

end Sys2Proof.Machine
end

section
/-! PROOF. SM.NEXTBLK (43_smooth.md R208). -/

namespace Sys2Proof.Machine

/-- SM.NEXT commands one after another answer the values of as many advances of their channel. -/
theorem runAll_smNext (c : BitVec 4) (x : Word) (n : Nat) (s : State) (ch : SmChannel)
    (h : s.sm[c.toNat]? = some ch) :
    (runAll (List.replicate n (x, Instr.smNext c)) s).1 = (List.iterate SmChannel.step ch.step n).map SmChannel.cur ∧
    (runAll (List.replicate n (x, Instr.smNext c)) s).2.sm = s.sm.set c.toNat (SmChannel.step^[n] ch) := by
  induction n generalizing s ch with
  | zero => exact ⟨rfl, (set_of_getElem? h).symm⟩
  | succ n ih =>
    have hexec : exec (.smNext c) { s with opa := x } =
        .next { s with opa := x, sm := s.sm.set c.toNat ch.step, res := ch.step.cur } := exec_smNext h
    have hlt : c.toNat < s.sm.length := (List.getElem?_eq_some_iff.1 h).1
    obtain ⟨hvals, hsm⟩ := ih { s with opa := x, sm := s.sm.set c.toNat ch.step, res := ch.step.cur } ch.step
      (List.getElem?_set_self hlt)
    simp only [List.replicate_succ, runAll, hexec]
    exact ⟨congrArg (ch.step.cur :: ·) hvals, hsm.trans (List.set_set ..)⟩

/-- The loop of `n` advances: the channel has advanced `n` times, and the block holds the values it took. -/
theorem smoothElem_loop (a n : Nat) (s : State) (ch : SmChannel) :
    ∃ m, blockLoop (smoothElem a) n 0 (s, ch) = ({ s with dmem := m }, SmChannel.step^[n] ch) ∧
      BlockWritten s.dmem a n (fun i => (SmChannel.step^[i] ch.step).cur) m := by
  induction n with
  | zero => exact ⟨s.dmem, rfl, blockWritten_zero ..⟩
  | succ n ih =>
    obtain ⟨m, hloop, hm⟩ := ih
    have hnext : SmChannel.step^[n] ch.step = (SmChannel.step^[n] ch).step := Function.iterate_succ_apply' ..
    refine ⟨_, ?_, hm.succ⟩
    rw [blockLoop_succ, hloop, Nat.zero_add, Function.iterate_succ_apply, hnext]
    rfl

/-- Settles O46: the block loop and the commands one by one both advance the channel LEN times. -/
theorem smNextBlkIsRepeatedNext : Obligations.SmNextBlkIsRepeatedNext := by
  unfold Obligations.SmNextBlkIsRepeatedNext
  intro c n s ch hch
  obtain ⟨hvals, hsm⟩ := runAll_smNext c s.opa n.toNat s ch hch
  obtain ⟨m, hloop, hin, hout⟩ := smoothElem_loop s.opb.toNat n.toNat s ch
  rw [exec_smNextBlk hch, hloop]
  refine ⟨fun h => congrArg _ (check_block_fail h), fun hfit => ?_⟩
  simp only [hvals, hsm]
  refine ⟨_, congrArg _ (check_block_pass hfit), rfl, ?_, fun i hi => ?_, hout⟩
  · rw [List.length_map, List.length_iterate]
  · rw [List.getElem?_map, List.getElem?_iterate _ _ _ _ hi]
    exact hin i hi

end Sys2Proof.Machine
end

section
/-! PROOF. The rounding `rnd` of a step count (43_smooth.md R201). -/

namespace Sys2Proof.Machine

/-- The quotient `num / den` rounded as `rnd` rounds an absolute value: half of `den` is added before the division. -/
def roundHalfUp (num den : Nat) : Nat := (2 * num + den) / (2 * den)

theorem rnd_eq (t : F64) : rnd t =
    if signBit t then -(roundHalfUp (magUnits t) unitsPerOne : Int) else roundHalfUp (magUnits t) unitsPerOne := rfl

/-- The remainder that `roundHalfUp` leaves lies from minus half of `den`, inclusive, to half of it, exclusive. -/
theorem roundHalfUp_bounds (num : Nat) {den : Nat} (h : 0 < den) :
    -(den : Int) ≤ 2 * (num - roundHalfUp num den * den) ∧ 2 * ((num : Int) - roundHalfUp num den * den) < den := by
  have hdiv := Nat.div_add_mod (2 * num + den) (2 * den)
  have hlt := Nat.mod_lt (2 * num + den) (Nat.mul_pos two_pos h)
  have hq : 2 * den * ((2 * num + den) / (2 * den)) = 2 * (roundHalfUp num den * den) := by
    rw [roundHalfUp, Nat.mul_assoc, Nat.mul_comm den]
  rw [hq] at hdiv
  rw [← Int.natCast_mul]
  omega

/-- `roundHalfUp` answers a nearest integer, and of two equally near the one farther from zero: an integer below it is
at least as far, and farther when it is negative; an integer above it is farther. -/
theorem roundHalfUp_nearest (num : Nat) {den : Nat} (h : 0 < den) (z : Int) :
    |(num : Int) - roundHalfUp num den * den| ≤ |num - z * den| ∧
    (|(num : Int) - roundHalfUp num den * den| = |num - z * den| → |z| ≤ roundHalfUp num den) := by
  obtain ⟨hlo, hhi⟩ := roundHalfUp_bounds num h
  generalize roundHalfUp num den = q at *
  simp only [abs_eq_max_neg]
  obtain hz | rfl | hz := lt_trichotomy z q
  · have hstep : z * den ≤ (q - 1) * den := Int.mul_le_mul_of_nonneg_right (by omega) (by omega)
    have hfar (hz0 : z ≤ -1) : z * den ≤ -1 * den := Int.mul_le_mul_of_nonneg_right hz0 (by omega)
    rw [Int.sub_mul] at hstep
    generalize z * (den : Int) = zd at *
    generalize (q : Int) * den = qd at *
    refine ⟨by omega, fun _ => by omega⟩
  · exact ⟨le_rfl, fun _ => by omega⟩
  · have hstep : (q + 1) * (den : Int) ≤ z * den := Int.mul_le_mul_of_nonneg_right (by omega) (by omega)
    rw [Int.add_mul] at hstep
    generalize z * (den : Int) = zd at *
    generalize (q : Int) * den = qd at *
    refine ⟨by omega, fun _ => by omega⟩

/-- Settles O51: the sign is put aside, and the absolute value is rounded half up. -/
theorem rndIsNearestHalfAway : Obligations.RndIsNearestHalfAway := by
  unfold Obligations.RndIsNearestHalfAway
  intro t _ z
  rw [rnd_eq, units]
  cases signBit t with
  | false =>
    obtain ⟨hle, htie⟩ := roundHalfUp_nearest (magUnits t) unitsPerOne_pos z
    exact ⟨hle, fun h => (htie h).trans (le_abs_self _)⟩
  | true =>
    obtain ⟨hle, htie⟩ := roundHalfUp_nearest (magUnits t) unitsPerOne_pos (-z)
    have hflip (w : Int) : |-(magUnits t : Int) - w * unitsPerOne| = |magUnits t - -w * unitsPerOne| := by
      rw [← abs_neg]
      congr 1
      ring
    rw [abs_neg] at htie
    simp only [if_true, hflip, neg_neg, abs_neg]
    exact ⟨hle, fun h => (htie h).trans (le_abs_self _)⟩

end Sys2Proof.Machine
end

section
/-! SUPPORT. The register map read both ways: an offset reaches a register exactly when the AUC has the register and
the offset is its own (10_state.md R29, R37, R38, R44); and the accesses that reach nothing (20_memory.md R64). -/

namespace Sys2Proof.Machine

/-- A register that is neither a smoother mirror nor a DMEM word is at a fixed offset. -/
theorem mem_fixedRegs_or (r : HostReg) :
    r ∈ fixedRegs ∨ (∃ c f, r = .sm c f) ∨ ∃ i, r = .dmem i := by
  cases r with
  | sm c f => exact .inr (.inl ⟨c, f, rfl⟩)
  | dmem i => exact .inr (.inr ⟨i, rfl⟩)
  | _ => exact .inl (by decide)

/-- The six fields lie at six places within a channel's 64 bytes of mirrors. -/
theorem smField_offset (f : SmField) :
    f.offset < 0x40 ∧ (smFields.find? fun g => g.offset == f.offset) = some f := by
  cases f <;> decide

/-- The mirror found at an offset has that offset. -/
theorem offset_of_smRegAt {off : Nat} {r : HostReg} (hoff : 0x100 ≤ off) (h : smRegAt off = some r) :
    r.offset = off := by
  obtain ⟨f, hf, rfl⟩ := Option.map_eq_some_iff.1 h
  have hmod : f.offset = (off - 0x100) % 0x40 := by simpa using List.find?_some hf
  simp only [HostReg.offset, hmod]
  omega

/-- A channel's mirror is found at its offset. -/
theorem smRegAt_offset (c : Nat) (f : SmField) : smRegAt (HostReg.sm c f).offset = some (.sm c f) := by
  obtain ⟨hlt, hfind⟩ := smField_offset f
  have hmod : ((HostReg.sm c f).offset - 0x100) % 0x40 = f.offset := by simp only [HostReg.offset]; omega
  have hdiv : ((HostReg.sm c f).offset - 0x100) / 0x40 = c := by simp only [HostReg.offset]; omega
  rw [smRegAt, hmod, hdiv, hfind]
  rfl

/-- What is mapped at an offset is present and has that offset. -/
theorem present_offset_of_regAt {p : Params} {off : Nat} {r : HostReg} (h : regAt p off = some r) :
    r.present p = true ∧ r.offset = off := by
  obtain ⟨hr, hpres⟩ := Option.filter_eq_some_iff.1 h
  refine ⟨hpres, ?_⟩
  split at hr
  · simpa using List.find?_some hr
  · split at hr
    · exact offset_of_smRegAt (by omega) hr
    · split at hr
      · cases hr
        simp only [HostReg.offset]
        omega
      · cases hr

/-- A register the AUC has is mapped at its offset: the mirrors of up to sixteen channels end below DMEM. -/
theorem regAt_offset {p : Params} (hn : p.nsm ≤ 16) {r : HostReg} (h : r.present p = true) :
    regAt p r.offset = some r := by
  refine Option.filter_eq_some_iff.2 ⟨?_, h⟩
  obtain hfix | ⟨c, f, rfl⟩ | ⟨i, rfl⟩ := mem_fixedRegs_or r
  · obtain ⟨hlt, -, hfind⟩ := offset_of_mem_fixedRegs r hfix
    rw [if_pos hlt, hfind]
  · have hc : c < p.nsm := of_decide_eq_true h
    obtain ⟨hf, -⟩ := smField_offset f
    rw [if_neg (by simp only [HostReg.offset]; omega), if_pos (by simp only [HostReg.offset]; omega), smRegAt_offset]
  · have hdiv : ((HostReg.dmem i).offset - 0x10000) / 8 = i := by simp only [HostReg.offset]; omega
    rw [if_neg (by simp only [HostReg.offset]; omega), if_neg (by simp only [HostReg.offset]; omega),
      if_pos (by simp only [HostReg.offset]; omega), hdiv]

/-- The register map, both ways. -/
theorem regAt_eq_some_iff {p : Params} (hn : p.nsm ≤ 16) (off : Nat) (r : HostReg) :
    regAt p off = some r ↔ r.present p = true ∧ r.offset = off := by
  refine ⟨present_offset_of_regAt, ?_⟩
  rintro ⟨hpres, rfl⟩
  exact regAt_offset hn hpres

/-- When an access reaches a register (60_exceptions.md R235). -/
theorem accessTarget_eq_some_iff {p : Params} {a : Access} {r : HostReg} :
    accessTarget p a = some r ↔
      (a.width = 64 ∧ a.offset.toNat % 8 = 0) ∧ regAt p a.offset.toNat = some r := by
  simp [accessTarget]

/-- Everything an access that reaches a register must be: the 64-bit access at the register's offset. -/
theorem eq_of_accessTarget {p : Params} {a : Access} {r : HostReg} (h : accessTarget p a = some r) :
    a = { width := 64, offset := BitVec.ofNat 64 r.offset, kind := a.kind } := by
  obtain ⟨⟨hw, -⟩, hr⟩ := accessTarget_eq_some_iff.1 h
  obtain ⟨-, hoff⟩ := present_offset_of_regAt hr
  rw [hoff, BitVec.ofNat_toNat, BitVec.setWidth_eq, ← hw]

/-- A 64-bit aligned access at the offset of a register of the AUC reaches it. -/
theorem accessTarget_of_present {p : Params} (hn : p.nsm ≤ 16) {a : Access} {r : HostReg}
    (hgood : a.width = 64 ∧ a.offset.toNat % 8 = 0) (hr : r.present p = true ∧ r.offset = a.offset.toNat) :
    accessTarget p a = some r :=
  accessTarget_eq_some_iff.2 ⟨hgood, (regAt_eq_some_iff hn _ r).2 hr⟩

/-- An access that is not 64 bits wide and aligned, or is at no register's offset, reaches nothing. -/
theorem accessTarget_of_no_register {p : Params} {a : Access}
    (h : ¬ (a.width = 64 ∧ a.offset.toNat % 8 = 0) ∨
      ∀ r : HostReg, ¬ (r.present p = true ∧ r.offset = a.offset.toNat)) :
    accessTarget p a = none := by
  rw [Option.eq_none_iff_forall_ne_some]
  intro r hr
  obtain ⟨hgood, hreg⟩ := accessTarget_eq_some_iff.1 hr
  obtain hbad | hno := h
  · exact hbad hgood
  · exact hno r (present_offset_of_regAt hreg)

end Sys2Proof.Machine
end

section
/-! PROOF. Which host accesses are BUS faults (60_exceptions.md R235). -/

namespace Sys2Proof.Machine

/-- A BUS fault leaves the state of the fault rule (60_exceptions.md R231). -/
theorem raise_bus (s : State) : s.raise .bus 0#8 = s.faulted .bus 0#8 :=
  raise_eq_faulted s .bus 0#8 fun _ => rfl

section
variable {s : State} {a : Access} {v : Word} {r : HostReg} {rest : List HostEvent}

/-- A host read takes the event and reads. -/
theorem step_read (hp : s.pending = .access a :: rest) (hk : a.kind = .read) :
    step s = .next (State.hostRead { s with pending := rest } a) := by
  simpa [hk] using step_cases s _ rest hp

/-- A read that reaches nothing records a zero and faults. -/
theorem step_read_unmapped (hp : s.pending = .access a :: rest) (hk : a.kind = .read)
    (ht : accessTarget s.params a = none) :
    step s = .next ((State.faulted { s with pending := rest } .bus 0#8).recordRead 0#64) := by
  simp only [step_read hp hk, State.hostRead, ht, raise_bus]

/-- A read that reaches a register records its value. -/
theorem step_read_mapped (hp : s.pending = .access a :: rest) (hk : a.kind = .read)
    (ht : accessTarget s.params a = some r) :
    step s = .next ((State.readReg { s with pending := rest } r).2.recordRead
      (State.readReg { s with pending := rest } r).1) := by
  simp only [step_read hp hk, State.hostRead, ht]

/-- A write that reaches nothing faults. -/
theorem step_write_unmapped (hp : s.pending = .access a :: rest) (hk : a.kind = .write v)
    (ht : accessTarget s.params a = none) :
    step s = .next (State.faulted { s with pending := rest } .bus 0#8) := by
  simpa [hk, ht, raise_bus] using step_cases s _ rest hp

/-- A write that reaches a register other than CMD writes it. -/
theorem step_write_mapped (hp : s.pending = .access a :: rest) (hk : a.kind = .write v)
    (ht : accessTarget s.params a = some r) (hr : r ≠ .cmd) :
    step s = .next (State.writeReg { s with pending := rest } r v) := by
  simpa [hk, ht, hr] using step_cases s _ rest hp

end

/-- A write to a read-only register faults. -/
theorem writeReg_of_readOnly (s : State) {r : HostReg} (v : Word) (h : r.writable = false) :
    s.writeReg r v = s.faulted .bus 0#8 := by
  rw [← raise_bus]
  cases r <;> simp [HostReg.writable, State.writeReg] at h ⊢

/-- Settles O57: the register map tells what an access reaches; one that reaches nothing, and a write to a read-only
register, faults. -/
theorem busFaults : Obligations.BusFaults := by
  unfold Obligations.BusFaults
  intro s a rest hn hp good at_ fault
  refine ⟨fun h => ?_, fun hgood r v hr hro hk => ?_, fun hgood hr hk => ?_, fun hgood v t hr hk h => ?_⟩
  · have ht : accessTarget s.params a = none := accessTarget_of_no_register h
    exact ⟨fun hk => step_read_unmapped hp hk ht, fun v hk => step_write_unmapped hp hk ht⟩
  · have ht : accessTarget s.params a = some r := accessTarget_of_present hn hgood hr
    have hcmd : r ≠ .cmd := by rintro rfl; cases hro
    rw [step_write_mapped hp hk ht hcmd, writeReg_of_readOnly _ v hro]
  · exact step_read_mapped hp hk (accessTarget_of_present hn hgood hr)
  · cases (step_write_mapped hp hk (accessTarget_of_present hn hgood hr) (by decide)).symm.trans h
    rfl

end Sys2Proof.Machine
end

section
/-! SUPPORT. The faults of one step, said once: an event raises one fault and does nothing else, or it raises none and
leaves the fault record, or it is one of the two events that clear STATUS (60_exceptions.md R231, R232, R260). -/

namespace Sys2Proof.Machine

/-- Where a fault with cause `c` and FOP `fop` comes from: a BUS fault from an access, with FOP 0, and any other from a
CMD write, with the word's OP (60_exceptions.md R231). -/
abbrev FaultSource (e : HostEvent) (c : Cause) (fop : BitVec 8) : Prop :=
  (c = .bus ∧ fop = 0#8) ∨
  (c ≠ .none ∧ c ≠ .bus ∧ ∃ w : Word, e = writeTo .cmd w ∧ fop = BitVec.ofNat 8 (w.toNat % 2 ^ 8))

/-- The events that clear STATUS (60_exceptions.md R232). -/
abbrev ClearsStatus (e : HostEvent) : Prop :=
  (∃ v : Word, e = writeTo .status v ∧ v.getLsbD 0 = true) ∨ e = .reset

/-- What the event `e`, taken from the state `s` and leading to `t`, does to the fault record and the run's faults. -/
inductive FaultOutcome (e : HostEvent) (s t : State) : Prop
  /-- It raises one fault and does nothing else, but that a read gives the host a zero. -/
  | faulted (c : Cause) (fop : BitVec 8) (source : FaultSource e c fop)
      (next : { t with hostReads := s.hostReads } = s.faulted c fop)
  /-- It raises none. -/
  | kept (log : t.faultLog = s.faultLog) (status : t.status = s.status)
  /-- It clears STATUS, and raises none. -/
  | cleared (log : t.faultLog = s.faultLog) (event : ClearsStatus e)

/-- A command that decodes has the word's OP. -/
theorem op_of_decode {nsm : Nat} {w : Word} {i : Instr} (h : decode nsm w = .ok i) :
    i.op = BitVec.ofNat 8 (w.toNat % 2 ^ 8) := by
  by_cases hdef : IsDefinedOp (w.toNat % 2 ^ 8)
  · obtain ⟨r, hmem, hop, hdec⟩ := decode_of_defined nsm w hdef
    rw [h] at hdec
    split at hdec
    · cases hdec
      rw [(build_of_mem_opRows r hmem _ _).1, hop, fieldOp_eq_ofNat]
    · cases hdec
  · cases h.symm.trans (decode_of_undefined nsm w hdef)

/-- A command's own faults have a cause, and are no BUS faults (60_exceptions.md R234). -/
theorem ne_none_bus_of_mem_faultsOf {i : Instr} {c : Cause} (h : c ∈ faultsOf i) : c ≠ .none ∧ c ≠ .bus := by
  constructor <;> rintro rfl <;> cases i <;> simp [faultsOf] at h

/-- A host read leaves all but DMEM's free draws. -/
theorem readReg_control (s : State) (r : HostReg) : (s.readReg r).2.control = s.control := by
  cases r with
  | dmem i => exact memRead_control s i
  | _ => rfl

/-- A command that runs. -/
theorem exec_faultOutcome {i : Instr} {s t : State} {w : Word} (hop : i.op = BitVec.ofNat 8 (w.toNat % 2 ^ 8))
    (h : exec i s = .next t) : FaultOutcome (writeTo .cmd w) s t := by
  cases outcome_of_exec h with
  | faulted c hc ht =>
    obtain ⟨hnone, hbus⟩ : c ≠ .none ∧ c ≠ .bus := by
      obtain hmem | ⟨rfl, -⟩ := hc
      · exact ne_none_bus_of_mem_faultsOf hmem
      · decide
    rw [raise_eq_faulted s c i.op fun hb => absurd hb hbus] at ht
    refine .faulted c i.op (.inr ⟨hnone, hbus, w, rfl, hop⟩) ?_
    rw [ht]
    rfl
  | completed hctl _ => exact .kept (congrArg Control.faultLog hctl) (congrArg Control.status hctl)

/-- A word written to CMD. -/
theorem runCommand_faultOutcome {s t : State} {w : Word} (h : runCommand w s = .next t) :
    FaultOutcome (writeTo .cmd w) s t := by
  rcases runCommand_cases w s with ⟨i, hdec, hrun⟩ | ⟨e, hdec, -⟩
  · exact exec_faultOutcome (op_of_decode hdec) (hrun.symm.trans h)
  · cases (runCommand_of_decode_error w s e hdec).symm.trans h
    exact .faulted _ _ (.inr ⟨by cases e <;> decide, by cases e <;> decide, w, rfl, rfl⟩) rfl

/-- A host read. -/
theorem hostRead_faultOutcome (e : HostEvent) (s : State) (a : Access) : FaultOutcome e s (s.hostRead a) := by
  unfold State.hostRead
  cases accessTarget s.params a with
  | none => exact .faulted .bus 0#8 (.inl ⟨rfl, rfl⟩) rfl
  | some r =>
    have hctl := readReg_control s r
    exact .kept (congrArg Control.faultLog hctl) (congrArg Control.status hctl)

/-- A write to a register other than CMD: a read-only one faults, and of the others STATUS alone has a part in the
fault record. -/
theorem writeReg_faultOutcome (s : State) (r : HostReg) (v : Word) :
    FaultOutcome (writeTo r v) s (s.writeReg r v) := by
  cases r with
  | status =>
    cases hv : v.getLsbD 0 with
    | true => exact .cleared rfl (.inl ⟨v, rfl, hv⟩)
    | false => exact .kept rfl (if_neg (ne_true_of_eq_false hv))
  | opa | opb | ctrl | cmd | dmem _ => exact .kept rfl rfl
  | _ => exact .faulted .bus 0#8 (.inl ⟨rfl, rfl⟩) rfl

/-- A write that reaches a register is the one that `writeTo` names. -/
theorem eq_writeTo_of_accessTarget {p : Params} {a : Access} {r : HostReg} {v : Word} (hk : a.kind = .write v)
    (ht : accessTarget p a = some r) : HostEvent.access a = writeTo r v := by
  rw [eq_of_accessTarget ht, hk]
  rfl

/-- Every step that takes an event. -/
theorem step_faultOutcome {s t : State} {e : HostEvent} {rest : List HostEvent} (hp : s.pending = e :: rest)
    (h : step s = .next t) : FaultOutcome e { s with pending := rest } t := by
  rcases step_cases s e rest hp with
    ⟨rfl, hs⟩ | ⟨a, rfl, ⟨-, hs⟩ | ⟨v, hk, ⟨-, hs⟩ | ⟨ht, hs⟩ | ⟨r, ht, -, hs⟩⟩⟩
  · cases hs.symm.trans h
    exact .cleared rfl (.inr rfl)
  · cases hs.symm.trans h
    exact hostRead_faultOutcome _ _ a
  · cases hs.symm.trans h
    exact .faulted .bus 0#8 (.inl ⟨rfl, rfl⟩) rfl
  · rw [eq_writeTo_of_accessTarget hk ht]
    exact runCommand_faultOutcome (hs.symm.trans h)
  · cases hs.symm.trans h
    rw [eq_writeTo_of_accessTarget hk ht]
    exact writeReg_faultOutcome _ r v

end Sys2Proof.Machine
end

section
/-! PROOF. The life of STATUS (60_exceptions.md R232, R238). -/

namespace Sys2Proof.Machine

/-- A host write to STATUS clears it when bit 0 is set, and does nothing else. -/
theorem step_writeTo_status {s : State} {v : Word} {rest : List HostEvent}
    (hp : s.pending = writeTo .status v :: rest) :
    step s = .next { s with
      pending := rest
      status := if v.getLsbD 0 then { err := false, cause := .none, fop := 0#8 } else s.status } :=
  step_writeTo_fixed s .status v rest (by decide) (by decide) hp

/-- A fault changes STATUS only while ERR is clear. -/
theorem faulted_status_cases (s : State) (c : Cause) (fop : BitVec 8) :
    (s.faulted c fop).status = s.status ∨
    (s.status.err = false ∧ (s.faulted c fop).status = { err := true, cause := c, fop := fop }) := by
  cases he : s.status.err with
  | true => exact .inl (if_pos he)
  | false => exact .inr ⟨rfl, if_neg (ne_true_of_eq_false he)⟩

/-- Settles O8: a fault is kept only while ERR is clear, and the events that clear STATUS are the host's write with bit
0 set and reset. -/
theorem statusLifecycle : Obligations.StatusLifecycle := by
  unfold Obligations.StatusLifecycle
  refine ⟨fun s t e rest hp h => ?_, fun s v rest hp => step_writeTo_status hp⟩
  cases step_faultOutcome hp h with
  | faulted c fop _ ht =>
    have hst : t.status = (State.faulted { s with pending := rest } c fop).status :=
      (congrArg State.status ht :)
    have hlog : t.faultLog = ⟨c, fop⟩ :: s.faultLog := (congrArg State.faultLog ht :)
    rw [hst]
    obtain hkeep | ⟨he, hset⟩ := faulted_status_cases { s with pending := rest } c fop
    · exact .inl hkeep
    · exact .inr (.inl ⟨he, _, hlog, hset⟩)
  | kept _ hst => exact .inl hst
  | cleared _ he => exact .inr (.inr he)

end Sys2Proof.Machine
end

section
/-! PROOF. The interrupt output (10_state.md R36, R42, 60_exceptions.md R236). -/

namespace Sys2Proof.Machine

/-- The state of the fault rule has ERR set, whether or not it was set before. -/
theorem faulted_err (s : State) (c : Cause) (fop : BitVec 8) : (s.faulted c fop).status.err = true := by
  obtain he | he := Bool.eq_false_or_eq_true s.status.err <;> simp [State.faulted, he]

/-- Settles O9: a clearing write leaves ERR clear, and a step that adds to the run's faults leaves ERR set and IE as
it was. -/
theorem irqFollowsErrAndIe : Obligations.IrqFollowsErrAndIe := by
  unfold Obligations.IrqFollowsErrAndIe
  refine ⟨fun s => Bool.and_eq_true_iff, fun s v rest hp => ?_, fun s t v rest hp hv h => ?_,
    fun s t e rest hp hie h hlog => ?_⟩
  · exact step_writeTo_fixed s .ctrl v rest (by decide) (by decide) hp
  · cases (step_writeTo_status hp).symm.trans h
    simp [State.irq, hv]
  · cases step_faultOutcome hp h with
    | faulted c fop _ ht =>
      have herr : t.status.err = true := (congrArg (·.status.err) ht).trans (faulted_err _ c fop)
      have hkeep : t.ie = s.ie := (congrArg State.ie ht :)
      rw [State.irq, herr, hkeep, hie]
      rfl
    | kept hkeep _ => exact absurd hkeep hlog
    | cleared hkeep _ => exact absurd hkeep hlog

end Sys2Proof.Machine
end

section
/-! SUPPORT. STATUS and CTRL never influence a command (60_exceptions.md R231): every operation a command is made of
commutes with setting them, so a command run with other values of them differs in them alone. -/

namespace Sys2Proof.Machine

/-- The state with STATUS and CTRL set. -/
def State.withFlags (s : State) (st : Status) (ie : Bool) : State := { s with status := st, ie := ie }

/-! ## The elements of the block loops, and the loops -/

section
variable (st : Status) (ie : Bool)

theorem memRead_withFlags (s : State) (a : Nat) :
    (s.withFlags st ie).memRead a = ((s.memRead a).1, (s.memRead a).2.withFlags st ie) := by
  show State.memRead { s with status := st, ie := ie } a = _
  cases h : cellGet s.dmem a <;> simp only [State.memRead, State.withFlags, h]

/-- A change of the loop's state that commutes with every element commutes with the loop. -/
theorem blockLoop_commutes {σ : Type} (g : σ → σ) (body : Nat → σ → σ) (h : ∀ i x, body i (g x) = g (body i x))
    (n i : Nat) (x : σ) : blockLoop body n i (g x) = g (blockLoop body n i x) := by
  induction n generalizing i x with
  | zero => rfl
  | succ n ih => rw [blockLoop, blockLoop, h, ih]

/-- A loop over states. -/
theorem blockLoop_withFlags (body : Nat → State → State)
    (h : ∀ i s, body i (s.withFlags st ie) = (body i s).withFlags st ie) (n : Nat) (s : State) :
    blockLoop body n 0 (s.withFlags st ie) = (blockLoop body n 0 s).withFlags st ie :=
  blockLoop_commutes (fun s => s.withFlags st ie) body h n 0 s

/-- A loop that carries something beside the state. -/
theorem blockLoop_pair_withFlags {σ : Type} (body : Nat → State × σ → State × σ)
    (h : ∀ i x, body i (x.1.withFlags st ie, x.2) = ((body i x).1.withFlags st ie, (body i x).2))
    (n : Nat) (s : State) (y : σ) :
    blockLoop body n 0 (s.withFlags st ie, y) =
      ((blockLoop body n 0 (s, y)).1.withFlags st ie, (blockLoop body n 0 (s, y)).2) :=
  blockLoop_commutes (fun x => (x.1.withFlags st ie, x.2)) body h n 0 (s, y)

theorem pushElem_withFlags (a i : Nat) (s : State) :
    pushElem a i (s.withFlags st ie) = (pushElem a i s).withFlags st ie := by
  rw [pushElem, memRead_withFlags]
  rfl

theorem pullAddElem_withFlags (a i : Nat) (s : State) :
    pullAddElem a i (s.withFlags st ie) = (pullAddElem a i s).withFlags st ie := by
  have h := memRead_withFlags st ie { s with cb := s.cb.advanceRead } (a + i)
  exact congrArg (fun r => r.2.memWrite (a + i) (fadd r.1 s.cb.advanceRead.atRead)) h

theorem modulateElem_withFlags (a cap i : Nat) (x : State × Nat) :
    modulateElem a cap i (x.1.withFlags st ie, x.2) =
      ((modulateElem a cap i x).1.withFlags st ie, (modulateElem a cap i x).2) := by
  rw [modulateElem, memRead_withFlags]
  rfl

theorem procElem_withFlags (a i : Nat) (s : State) :
    procElem a i (s.withFlags st ie) = (procElem a i s).withFlags st ie := by
  rw [procElem, memRead_withFlags]
  rfl

end

/-! ## The commands -/

/-- `u` is `t` but for STATUS, and for CTRL, which holds `ie`. -/
def SameButFlags (ie : Bool) (t u : State) : Prop := u = { t with status := u.status, ie := ie }

section
variable {st : Status} {ie : Bool} {s : State}

theorem SameButFlags.of_eq {t u : State} (h : u = t.withFlags st ie) : SameButFlags ie t u := by
  rw [h]
  rfl

theorem SameButFlags.raise (c : Cause) (op : BitVec 8) :
    SameButFlags ie (s.raise c op) ((s.withFlags st ie).raise c op) := rfl

theorem SameButFlags.check {ok : Bool} {c : Cause} {op : BitVec 8} {t u : State} (h : SameButFlags ie t u) :
    SameButFlags ie (s.check ok c op t) ((s.withFlags st ie).check ok c op u) := by
  cases ok with
  | true => exact h
  | false => exact .raise c op

theorem SameButFlags.withChannel {c : BitVec 4} {op : BitVec 8} {f g : SmChannel → State}
    (h : ∀ ch, SameButFlags ie (f ch) (g ch)) :
    SameButFlags ie (s.withChannel c op f) ((s.withFlags st ie).withChannel c op g) := by
  rcases withChannel_cases s c op f with ⟨ch, hch, e⟩ | ⟨hn, e⟩
  · rw [e, withChannel_some (s.withFlags st ie) c op g ch hch]
    exact h ch
  · rw [e, State.withChannel, show (s.withFlags st ie).sm[c.toNat]? = none from hn]
    exact .raise .reservedField op

end

/-- The modulation, under either of its two commands. -/
theorem modulate_sameButFlags (st : Status) (ie : Bool) (op : BitVec 8) (n : BitVec 20) (s : State) :
    SameButFlags ie (modulate op n s) (modulate op n (s.withFlags st ie)) :=
  .check <| .check <| .of_eq <|
    congrArg Prod.fst (blockLoop_pair_withFlags st ie _ (modulateElem_withFlags st ie _ _) n.toNat s _)

/-- Every command answers, from a state with other values in STATUS and CTRL, the same next state but for them. -/
theorem exec_sameButFlags (st : Status) (ie : Bool) (i : Instr) (s : State) :
    ∃ t u, exec i s = .next t ∧ exec i (s.withFlags st ie) = .next u ∧ SameButFlags ie t u := by
  cases i with
  | cbResize => exact ⟨_, _, rfl, rfl, .check <| .check rfl⟩
  | cbPush => exact ⟨_, _, rfl, rfl, rfl⟩
  | cbPushBlk n =>
    exact ⟨_, _, rfl, rfl, .check <| .of_eq <| blockLoop_withFlags st ie _ (pushElem_withFlags st ie _) n.toNat s⟩
  | cbPull => exact ⟨_, _, rfl, rfl, rfl⟩
  | cbPullBlk n =>
    exact ⟨_, _, rfl, rfl, .check <| .of_eq <| blockLoop_withFlags st ie (pullElem _) (fun _ _ => rfl) n.toNat s⟩
  | cbPullBlkAdd n =>
    exact ⟨_, _, rfl, rfl, .check <| .of_eq <| blockLoop_withFlags st ie _ (pullAddElem_withFlags st ie _) n.toNat s⟩
  | cbPullDly => exact ⟨_, _, rfl, rfl, .check rfl⟩
  | cbPullDlyBlk n =>
    exact ⟨_, _, rfl, rfl, .check <| .check <| .of_eq <| congrArg Prod.fst <|
      blockLoop_pair_withFlags st ie (pullDelayElem _ _) (fun _ _ => rfl) n.toNat s _⟩
  | cbPullDlyBlkI n =>
    exact ⟨_, _, rfl, rfl, .check <| .check <| .of_eq <| congrArg Prod.fst <|
      blockLoop_pair_withFlags st ie (interpElem _ _ _) (fun _ _ => rfl) n.toNat s _⟩
  | cbModDlyBlk n => exact ⟨_, _, rfl, rfl, modulate_sameButFlags st ie _ n s⟩
  | cbModDlyBlkD n => exact ⟨_, _, rfl, rfl, modulate_sameButFlags st ie _ n s⟩
  | cbWrDist => exact ⟨_, _, rfl, rfl, rfl⟩
  | cbRstRd => exact ⟨_, _, rfl, rfl, rfl⟩
  | cfProc => exact ⟨_, _, rfl, rfl, rfl⟩
  | cfProcBlk n =>
    exact ⟨_, _, rfl, rfl, .check <| .of_eq <| blockLoop_withFlags st ie _ (procElem_withFlags st ie _) n.toNat s⟩
  | cfSetFreq => exact ⟨_, _, rfl, rfl, .check <| .check rfl⟩
  | cfSetDly => exact ⟨_, _, rfl, rfl, .check <| .check rfl⟩
  | cfSetFbk => exact ⟨_, _, rfl, rfl, .check rfl⟩
  | cfInitFs => exact ⟨_, _, rfl, rfl, .check <| .check rfl⟩
  | cfSetTopo => exact ⟨_, _, rfl, rfl, .check rfl⟩
  | smInit c => exact ⟨_, _, rfl, rfl, .withChannel fun _ => .check rfl⟩
  | smSetTime c => exact ⟨_, _, rfl, rfl, .withChannel fun _ => .check rfl⟩
  | smSetTgt c => exact ⟨_, _, rfl, rfl, .withChannel fun _ => .check rfl⟩
  | smNext c => exact ⟨_, _, rfl, rfl, .withChannel fun _ => rfl⟩
  | smCur c => exact ⟨_, _, rfl, rfl, .withChannel fun _ => rfl⟩
  | smNextBlk c n =>
    exact ⟨_, _, rfl, rfl, .withChannel fun ch => .check <| .of_eq <|
      congrArg (fun r => r.1.setChannel c r.2) <|
        blockLoop_pair_withFlags st ie (smoothElem _) (fun _ _ => rfl) n.toNat s ch⟩

end Sys2Proof.Machine
end

section
/-! PROOF. The fault rule (60_exceptions.md R231). -/

namespace Sys2Proof.Machine

/-- Settles O7: a step raises one fault and does nothing else, or raises none; and a command commutes with setting
STATUS and CTRL. -/
theorem faultChangesOnlyStatus : Obligations.FaultChangesOnlyStatus := by
  unfold Obligations.FaultChangesOnlyStatus
  refine ⟨fun s t e rest hp h => ?_, fun i s t st ie h => ?_⟩
  · cases step_faultOutcome hp h with
    | faulted c fop source ht => exact .inr ⟨c, fop, source, ht⟩
    | kept hlog _ => exact .inl hlog
    | cleared hlog _ => exact .inl hlog
  · obtain ⟨t', u, ht, hu, hsame⟩ := exec_sameButFlags st ie i s
    cases ht.symm.trans h
    exact ⟨u, hu, hsame⟩

end Sys2Proof.Machine
end

section
/-! PROOF. No command writes OPA, OPB or CTRL (10_state.md R32, R33, 70_reset_and_hazards.md R269). -/

namespace Sys2Proof.Machine

/-- Settles O10: a command that faults changes only the fault record, and one that completes changes at most RES
outside the units and DMEM. -/
theorem commandsKeepOperandRegisters : Obligations.CommandsKeepOperandRegisters := by
  unfold Obligations.CommandsKeepOperandRegisters
  intro i s t h
  cases outcome_of_exec h with
  | faulted c _ ht => simp [ht]
  | completed hctl _ =>
    exact ⟨congrArg Control.opa hctl, congrArg Control.opb hctl, congrArg Control.ie hctl,
      congrArg Control.params hctl, congrArg Control.pending hctl, congrArg Control.hostReads hctl⟩

end Sys2Proof.Machine
end

section
/-! PROOF. The encoder and the decoder undo each other (30_encoding.md R88, R89, R92). -/

namespace Sys2Proof

/-- Every command has its row, which uses the fields the command has. -/
theorem exists_row (i : Instr) : ∃ r, rowOf i.op = some r ∧
    r.build (i.channel?.getD 0#4) (i.len?.getD 0#20) = i ∧
    r.usesCh = i.channel?.isSome ∧ r.usesLen = i.len?.isSome := by
  cases i <;> exact ⟨_, rfl, rfl, rfl, rfl⟩

/-- The row of a well-formed command allows the command's channel. -/
theorem chAllowed_of_wellFormed {nsm : Nat} {i : Instr} {r : OpRow} (hr : r.usesCh = i.channel?.isSome)
    (h : i.wellFormed nsm = true) : chAllowed r nsm (i.channel?.getD 0#4) = true := by
  unfold Instr.wellFormed at h
  cases hc : i.channel? with
  | none => simp [chAllowed, hr, hc]
  | some c => simpa [chAllowed, hr, hc] using h

/-- The row of a command allows the command's block length. -/
theorem lenAllowed_len {i : Instr} {r : OpRow} (hr : r.usesLen = i.len?.isSome) :
    lenAllowed r (i.len?.getD 0#20) = true := by
  cases hn : i.len? <;> simp [lenAllowed, hr, hn]

/-- Settles O1: the fields of the command word are the command's, and the row of its OP allows them and builds it. -/
theorem decodeOfEncode : Obligations.DecodeOfEncode := by
  unfold Obligations.DecodeOfEncode
  intro nsm i h
  obtain ⟨r, hrow, hbuild, hch, hlen⟩ := exists_row i
  obtain ⟨hop, hfch, hflen, hrsv⟩ := fields_enc i.op (i.channel?.getD 0#4) (i.len?.getD 0#20)
  simp only [decode, encode, hop, hfch, hflen, hrsv, hrow, hbuild, chAllowed_of_wellFormed hch h, lenAllowed_len hlen]
  rfl

/-- A word with RSV 0 is put together again from its OP, CH and LEN. -/
theorem enc_fields (w : Word) (h : w.toNat / 2 ^ 32 = 0) : enc (fieldOp w) (fieldCh w) (fieldLen w) = w := by
  apply BitVec.eq_of_toNat_eq
  rw [enc_toNat, fieldOp_toNat, fieldCh_toNat, fieldLen_toNat]
  omega

/-- A field is what a command that uses it holds, and 0 where the command does not use it. -/
theorem field_getD {n : Nat} {used : Bool} {x : BitVec n} (h : ¬ used = true → x.toNat = 0) :
    (if used = true then some x else none).getD 0#n = x := by
  by_cases hu : used = true
  · rw [if_pos hu]; rfl
  · rw [if_neg hu]
    exact BitVec.eq_of_toNat_eq (h hu).symm

/-- Settles O2: a word decodes only with an OP that has a row and with legal fields; the row's command has the word's OP,
and the word's CH and LEN where it has such a field, and a field it does not have is 0 in the word. -/
theorem decodedWordIsItsEncoding : Obligations.DecodedWordIsItsEncoding := by
  unfold Obligations.DecodedWordIsItsEncoding
  intro nsm w i h
  by_cases hdef : IsDefinedOp (w.toNat % 2 ^ 8)
  case neg => cases h.symm.trans (decode_of_undefined nsm w hdef)
  obtain ⟨r, hmem, hop, hdec⟩ := decode_of_defined nsm w hdef
  by_cases hleg : LegalFields nsm w
  case neg => cases h.symm.trans (hdec.trans (if_neg hleg))
  cases h.symm.trans (hdec.trans (if_pos hleg))
  obtain ⟨hbop, hbch, hblen⟩ := build_of_mem_opRows r hmem (fieldCh w) (fieldLen w)
  obtain ⟨hch, hlen⟩ := uses_of_mem_opRows r hmem
  rw [hop, fieldOp_toNat] at hch hlen
  obtain ⟨hrsv, hnsm, hch0, hlen0⟩ := hleg
  have hgetCh : (r.build (fieldCh w) (fieldLen w)).channel?.getD 0#4 = fieldCh w := by
    rw [hbch]
    exact field_getD fun hu => (fieldCh_toNat w).trans (hch0 (mt hch.2 hu))
  have hgetLen : (r.build (fieldCh w) (fieldLen w)).len?.getD 0#20 = fieldLen w := by
    rw [hblen]
    exact field_getD fun hu => (fieldLen_toNat w).trans (hlen0 (mt hlen.2 hu))
  constructor
  · rw [Instr.wellFormed, hbch]
    by_cases hu : r.usesCh = true
    · rw [if_pos hu]
      exact decide_eq_true ((fieldCh_toNat w).trans_lt (hnsm (hch.1 hu)))
    · rw [if_neg hu]
  · rw [encode, hbop, hop, hgetCh, hgetLen, enc_fields w hrsv]

end Sys2Proof
end

section
/-! SUPPORT. The footprint of a command: what it can change of the units and of DMEM, said once (00_scope.md R2,
20_memory.md R60, R61). -/

namespace Sys2Proof.Machine

/-! ## Writes of DMEM -/

/-- `m'` comes from the memory `m` by writes of words whose indices satisfy `P`. -/
inductive PutsIn (P : Nat → Prop) (m : List WordCell) : List WordCell → Prop
  | refl : PutsIn P m m
  | put {m' : List WordCell} (h : PutsIn P m m') (x : Nat) (v : Word) (hx : P x) : PutsIn P m (cellPut m' x v)

theorem PutsIn.trans {P : Nat → Prop} {m m' m'' : List WordCell} (h : PutsIn P m m') (h' : PutsIn P m' m'') :
    PutsIn P m m'' := by
  induction h' with
  | refl => exact h
  | put _ x v hx ih => exact .put ih x v hx

/-- Where nothing may be written, nothing is. -/
theorem PutsIn.eq {P : Nat → Prop} {m m' : List WordCell} (h : PutsIn P m m') (hP : ∀ x, ¬ P x) : m' = m := by
  cases h with
  | refl => rfl
  | put _ x _ hx => exact absurd hx (hP x)

/-- A word that may not be written lists what it did. -/
theorem PutsIn.cellGet_eq {P : Nat → Prop} {m m' : List WordCell} (h : PutsIn P m m') {x : Nat} (hx : ¬ P x) :
    cellGet m' x = cellGet m x := by
  induction h with
  | refl => rfl
  | put _ y v hy ih =>
    have hne : x ≠ y := by rintro rfl; exact hx hy
    rw [cellGet_cellPut, if_neg hne, ih]

/-- Writes inside DMEM keep its canonical form. -/
theorem PutsIn.wf {P : Nat → Prop} {m m' : List WordCell} {words : Nat} (h : PutsIn P m m')
    (hP : ∀ x, P x → x < words) (hm : Memory.wf words m) : Memory.wf words m' := by
  induction h with
  | refl => exact hm
  | put _ x v hx ih => exact memory_wf_cellPut words _ x v ih (hP x hx)

/-! ## The footprint -/

/-- The DMEM words the command `i` may write when it is run from `s`: those of its block, inside DMEM. -/
def InBlock (i : Instr) (s : State) (x : Nat) : Prop :=
  ∃ n, dmemBlock i = some n ∧ s.opb.toNat + n.toNat ≤ s.params.dmemWords ∧
    s.opb.toNat ≤ x ∧ x < s.opb.toNat + n.toNat

/-- What a part of the command `i` that leads from `s` to `t` may change, when DMEM may be written where `P` says:
nothing of another unit or another channel. -/
structure Footprint (i : Instr) (P : Nat → Prop) (s t : State) : Prop where
  cb : unitOf i ≠ .cb → t.cb = s.cb
  cf : unitOf i ≠ .cf → t.cf = s.cf
  sm : unitOf i ≠ .sm → t.sm = s.sm
  channels : t.sm.length = s.sm.length
  channel : ∀ c, i.channel? = some c → ∀ j, j ≠ c.toNat → t.sm[j]? = s.sm[j]?
  dmem : PutsIn P s.dmem t.dmem

section
variable {i : Instr} {P : Nat → Prop} {s t u : State}

theorem Footprint.trans (h : Footprint i P s t) (h' : Footprint i P t u) : Footprint i P s u where
  cb hi := (h'.cb hi).trans (h.cb hi)
  cf hi := (h'.cf hi).trans (h.cf hi)
  sm hi := (h'.sm hi).trans (h.sm hi)
  channels := h'.channels.trans h.channels
  channel c hc j hj := (h'.channel c hc j hj).trans (h.channel c hc j hj)
  dmem := h.dmem.trans h'.dmem

/-- A part that leaves the units and DMEM. -/
theorem Footprint.none (hcb : t.cb = s.cb) (hcf : t.cf = s.cf) (hsm : t.sm = s.sm) (hd : t.dmem = s.dmem) :
    Footprint i P s t :=
  ⟨fun _ => hcb, fun _ => hcf, fun _ => hsm, by rw [hsm], fun _ _ _ _ => by rw [hsm], by rw [hd]; exact .refl⟩

/-- A part that writes the circular buffer. -/
theorem Footprint.ofCb (hi : unitOf i = .cb) (hcf : t.cf = s.cf) (hsm : t.sm = s.sm) (hd : t.dmem = s.dmem) :
    Footprint i P s t :=
  ⟨fun h => absurd hi h, fun _ => hcf, fun _ => hsm, by rw [hsm], fun _ _ _ _ => by rw [hsm], by rw [hd]; exact .refl⟩

/-- A part that writes the comb filter. -/
theorem Footprint.ofCf (hi : unitOf i = .cf) (hcb : t.cb = s.cb) (hsm : t.sm = s.sm) (hd : t.dmem = s.dmem) :
    Footprint i P s t :=
  ⟨fun _ => hcb, fun h => absurd hi h, fun _ => hsm, by rw [hsm], fun _ _ _ _ => by rw [hsm], by rw [hd]; exact .refl⟩

/-- A part that writes the command's channel. -/
theorem Footprint.setChannel {c : BitVec 4} (hi : unitOf i = .sm) (hc : i.channel? = some c) (ch : SmChannel) :
    Footprint i P s (s.setChannel c ch) where
  cb _ := rfl
  cf _ := rfl
  sm h := absurd hi h
  channels := List.length_set
  channel d hd j hj := by
    cases hc.symm.trans hd
    exact List.getElem?_set_ne (Ne.symm hj)
  dmem := .refl

/-- A write of one word of DMEM. -/
theorem Footprint.memWrite (x : Nat) (v : Word) (hx : P x) : Footprint i P s (s.memWrite x v) :=
  ⟨fun _ => rfl, fun _ => rfl, fun _ => rfl, rfl, fun _ _ _ _ => rfl, .put .refl x v hx⟩

/-- A check, before a part that may count on it. -/
theorem Footprint.check {ok : Bool} {c : Cause} {op : BitVec 8} (h : ok = true → Footprint i P s t) :
    Footprint i P s (s.check ok c op t) := by
  rcases check_cases s ok c op t with ⟨hok, e⟩ | ⟨-, e⟩
  · rw [e]; exact h hok
  · rw [e]; exact .none rfl rfl rfl rfl

/-- The channel selection of a smoother command. -/
theorem Footprint.withChannel {c : BitVec 4} {op : BitVec 8} {f : SmChannel → State}
    (h : ∀ ch, Footprint i P s (f ch)) : Footprint i P s (s.withChannel c op f) := by
  rcases withChannel_cases s c op f with ⟨ch, -, e⟩ | ⟨-, e⟩
  · rw [e]; exact h ch
  · rw [e]; exact .none rfl rfl rfl rfl

/-- A block loop over states. -/
theorem Footprint.loop {body : Nat → State → State} {n : Nat}
    (h : ∀ k x, k < n → Footprint i P x (body k x)) : Footprint i P s (blockLoop body n 0 s) :=
  blockLoop_induct (fun _ y => Footprint i P s y) body n s (.none rfl rfl rfl rfl)
    fun k y hk hy => hy.trans (h k y hk)

/-- A block loop that carries something beside the state. -/
theorem Footprint.loopFst {σ : Type} {body : Nat → State × σ → State × σ} {n : Nat} {y : σ}
    (h : ∀ k x, k < n → Footprint i P x.1 (body k x).1) : Footprint i P s (blockLoop body n 0 (s, y)).1 :=
  blockLoop_induct (fun _ y => Footprint i P s y.1) body n (s, y) (.none rfl rfl rfl rfl)
    fun k y hk hy => hy.trans (h k y hk)

end

/-! ## The elements of the block loops -/

theorem pushElem_footprint {i : Instr} {P : Nat → Prop} (hi : unitOf i = .cb) (a k : Nat) (s : State) :
    Footprint i P s (pushElem a k s) :=
  .ofCb hi (memRead_cf s _) (memRead_sm s _) (memRead_dmem s _)

theorem pullElem_footprint {i : Instr} {P : Nat → Prop} (hi : unitOf i = .cb) (a k : Nat) (s : State)
    (hk : P (a + k)) : Footprint i P s (pullElem a k s) :=
  .trans (t := { s with cb := s.cb.advanceRead }) (.ofCb hi rfl rfl rfl) (.memWrite _ _ hk)

theorem pullAddElem_footprint {i : Instr} {P : Nat → Prop} (hi : unitOf i = .cb) (a k : Nat) (s : State)
    (hk : P (a + k)) : Footprint i P s (pullAddElem a k s) :=
  .trans (t := (State.memRead { s with cb := s.cb.advanceRead } (a + k)).2)
    (.ofCb hi (memRead_cf _ _) (memRead_sm _ _) (memRead_dmem _ _)) (.memWrite _ _ hk)

theorem modulateElem_footprint {i : Instr} {P : Nat → Prop} (hi : unitOf i = .cb) (a cap k : Nat)
    (x : State × Nat) : Footprint i P x.1 (modulateElem a cap k x).1 :=
  .ofCb hi (memRead_cf x.1 _) (memRead_sm x.1 _) (memRead_dmem x.1 _)

theorem procElem_footprint {i : Instr} {P : Nat → Prop} (hi : unitOf i = .cf) (a k : Nat) (s : State)
    (hk : P (a + k)) : Footprint i P s (procElem a k s) :=
  .trans (t := { (s.memRead (a + k)).2 with cf := ((s.memRead (a + k)).2.cf.step (s.memRead (a + k)).1).2 })
    (.ofCf hi (memRead_cb _ _) (memRead_sm _ _) (memRead_dmem _ _)) (.memWrite _ _ hk)

/-! ## The commands -/

/-- A word of a block that passed its check is one the command may write. -/
theorem inBlock_of_fits {i : Instr} {s : State} {n : BitVec 20} (hi : dmemBlock i = some n)
    (h : s.blockFits n = true) {k : Nat} (hk : k < n.toNat) : InBlock i s (s.blockBase + k) := by
  have hfit := (blockFits_iff s n).1 h
  refine ⟨n, hi, hfit, ?_, ?_⟩ <;> unfold State.blockBase <;> omega

/-- The modulation, under either of its two commands. -/
theorem modulate_footprint {i : Instr} {P : Nat → Prop} (hi : unitOf i = .cb) (op : BitVec 8) (n : BitVec 20)
    (s : State) : Footprint i P s (modulate op n s) :=
  .check fun _ => .check fun _ => .loopFst fun _ _ _ => modulateElem_footprint hi ..

/-- Every command keeps to its unit, its channel and its block. -/
theorem exec_footprint (i : Instr) (s : State) : ∃ t, exec i s = .next t ∧ Footprint i (InBlock i s) s t := by
  cases i with
  | cbResize => exact ⟨_, rfl, .check fun _ => .check fun _ => .ofCb rfl rfl rfl rfl⟩
  | cbPush => exact ⟨_, rfl, .ofCb rfl rfl rfl rfl⟩
  | cbPushBlk n => exact ⟨_, rfl, .check fun _ => .loop fun _ _ _ => pushElem_footprint rfl ..⟩
  | cbPull => exact ⟨_, rfl, .ofCb rfl rfl rfl rfl⟩
  | cbPullBlk n =>
    exact ⟨_, rfl, .check fun h => .loop fun _ _ hk => pullElem_footprint rfl _ _ _ (inBlock_of_fits rfl h hk)⟩
  | cbPullBlkAdd n =>
    exact ⟨_, rfl, .check fun h => .loop fun _ _ hk => pullAddElem_footprint rfl _ _ _ (inBlock_of_fits rfl h hk)⟩
  | cbPullDly => exact ⟨_, rfl, .check fun _ => .none rfl rfl rfl rfl⟩
  | cbPullDlyBlk n =>
    exact ⟨_, rfl, .check fun h => .check fun _ => .loopFst fun _ _ hk => .memWrite _ _ (inBlock_of_fits rfl h hk)⟩
  | cbPullDlyBlkI n =>
    exact ⟨_, rfl, .check fun h => .check fun _ => .loopFst fun _ _ hk => .memWrite _ _ (inBlock_of_fits rfl h hk)⟩
  | cbModDlyBlk n => exact ⟨_, rfl, modulate_footprint rfl _ n s⟩
  | cbModDlyBlkD n => exact ⟨_, rfl, modulate_footprint rfl _ n s⟩
  | cbWrDist => exact ⟨_, rfl, .none rfl rfl rfl rfl⟩
  | cbRstRd => exact ⟨_, rfl, .ofCb rfl rfl rfl rfl⟩
  | cfProc => exact ⟨_, rfl, .ofCf rfl rfl rfl rfl⟩
  | cfProcBlk n =>
    exact ⟨_, rfl, .check fun h => .loop fun _ _ hk => procElem_footprint rfl _ _ _ (inBlock_of_fits rfl h hk)⟩
  | cfSetFreq => exact ⟨_, rfl, .check fun _ => .check fun _ => .ofCf rfl rfl rfl rfl⟩
  | cfSetDly => exact ⟨_, rfl, .check fun _ => .check fun _ => .ofCf rfl rfl rfl rfl⟩
  | cfSetFbk => exact ⟨_, rfl, .check fun _ => .ofCf rfl rfl rfl rfl⟩
  | cfInitFs => exact ⟨_, rfl, .check fun _ => .check fun _ => .ofCf rfl rfl rfl rfl⟩
  | cfSetTopo => exact ⟨_, rfl, .check fun _ => .ofCf rfl rfl rfl rfl⟩
  | smInit c => exact ⟨_, rfl, .withChannel fun _ => .check fun _ => .setChannel rfl rfl _⟩
  | smSetTime c => exact ⟨_, rfl, .withChannel fun _ => .check fun _ => .setChannel rfl rfl _⟩
  | smSetTgt c => exact ⟨_, rfl, .withChannel fun _ => .check fun _ => .setChannel rfl rfl _⟩
  | smNext c =>
    exact ⟨_, rfl, .withChannel fun ch => .trans (.setChannel rfl rfl ch.step) (.none rfl rfl rfl rfl)⟩
  | smCur c => exact ⟨_, rfl, .withChannel fun _ => .none rfl rfl rfl rfl⟩
  | smNextBlk c n =>
    exact ⟨_, rfl, .withChannel fun ch => .check fun h =>
      .trans (.loopFst fun _ _ hk => .memWrite _ _ (inBlock_of_fits rfl h hk)) (.setChannel rfl rfl _)⟩

/-- The footprint of a command whose next state is known. -/
theorem footprint_of_exec {i : Instr} {s t : State} (h : exec i s = .next t) : Footprint i (InBlock i s) s t := by
  obtain ⟨u, hu, hf⟩ := exec_footprint i s
  cases hu.symm.trans h
  exact hf

end Sys2Proof.Machine
end

section
/-! PROOF. Units, smoother channels and DMEM are isolated from the commands that are not theirs (00_scope.md R2,
20_memory.md R60, R61). -/

namespace Sys2Proof.Machine

/-- Settles O12: the units and channels part of a command's footprint. -/
theorem unitsAreIsolated : Obligations.UnitsAreIsolated := by
  unfold Obligations.UnitsAreIsolated
  intro i s t h
  obtain ⟨hcb, hcf, hsm, hlen, hch, -⟩ := footprint_of_exec h
  exact ⟨hcb, hcf, hsm, hlen, hch⟩

/-- Settles O13: the DMEM part of a command's footprint, whose writes lie in the command's block. -/
theorem dmemOutsideBlockUnchanged : Obligations.DmemOutsideBlockUnchanged := by
  unfold Obligations.DmemOutsideBlockUnchanged
  intro i s t h
  have hd := (footprint_of_exec h).dmem
  refine ⟨fun hi => hd.eq ?_, fun n hi x hx => hd.cellGet_eq ?_⟩
  · rintro x ⟨n, hn, -⟩
    cases hi.symm.trans hn
  · rintro ⟨n', hn, -, hlo, hhi⟩
    cases hi.symm.trans hn
    omega

end Sys2Proof.Machine
end

section
/-! SUPPORT. What a step can do to the units and DMEM, said once: it runs a command, or it is the reset pulse, or it
leaves the units and writes at most a word of DMEM (20_memory.md R65, R66). -/

namespace Sys2Proof.Machine

/-- What a step from `s` to `t` does to the parameters, the units and DMEM. -/
inductive StepOutcome (s t : State) : Prop
  /-- It runs a command. -/
  | command (i : Instr) (rest : List HostEvent) (run : exec i { s with pending := rest } = .next t)
  /-- It is the reset pulse. -/
  | reset (rest : List HostEvent) (event : s.pending = .reset :: rest)
      (next : t = State.hardReset { s with pending := rest })
  /-- It is a host access that runs no command, or nothing. -/
  | host (params : t.params = s.params) (cb : t.cb = s.cb) (cf : t.cf = s.cf) (sm : t.sm = s.sm)
      (dmem : PutsIn (· < s.params.dmemWords) s.dmem t.dmem)

/-- A host read leaves the units and DMEM. -/
theorem StepOutcome.hostRead (s : State) (rest : List HostEvent) (a : Access) :
    StepOutcome s (State.hostRead { s with pending := rest } a) := by
  unfold State.hostRead
  cases accessTarget s.params a with
  | none => exact .host rfl rfl rfl rfl .refl
  | some r =>
    cases r with
    | dmem i =>
      exact .host (memRead_params _ i) (memRead_cb _ i) (memRead_cf _ i) (memRead_sm _ i)
        ((memRead_dmem { s with pending := rest } i).symm ▸ .refl)
    | _ => exact .host rfl rfl rfl rfl .refl

/-- A host write to a register of the AUC other than CMD leaves the units, and writes DMEM at most at its own word. -/
theorem StepOutcome.writeReg {s : State} (rest : List HostEvent) {r : HostReg} (v : Word)
    (hr : r.present s.params = true) : StepOutcome s (State.writeReg { s with pending := rest } r v) := by
  cases r with
  | dmem i => exact .host rfl rfl rfl rfl (.put .refl i v (of_decide_eq_true hr))
  | _ => exact .host rfl rfl rfl rfl .refl

/-- Everything a step can do to the units and DMEM. -/
theorem step_outcome {s t : State} (h : step s = .next t) : StepOutcome s t := by
  cases hp : s.pending with
  | nil =>
    cases (step_idle s hp).symm.trans h
    exact .host rfl rfl rfl rfl .refl
  | cons e rest =>
    rcases step_cases s e rest hp with
      ⟨rfl, hs⟩ | ⟨a, rfl, ⟨-, hs⟩ | ⟨v, -, ⟨-, hs⟩ | ⟨-, hs⟩ | ⟨r, ht, -, hs⟩⟩⟩
    · cases hs.symm.trans h
      exact .reset rest hp rfl
    · cases hs.symm.trans h
      exact .hostRead s rest a
    · cases hs.symm.trans h
      exact .host rfl rfl rfl rfl .refl
    · rcases runCommand_cases v { s with pending := rest } with ⟨i, -, hrun⟩ | ⟨e, -, hrun⟩
      · exact .command i rest (hrun.symm.trans (hs.symm.trans h))
      · cases hrun.symm.trans (hs.symm.trans h)
        exact .host rfl rfl rfl rfl .refl
    · cases hs.symm.trans h
      obtain ⟨-, hr⟩ := accessTarget_eq_some_iff.1 ht
      exact .writeReg rest v (present_offset_of_regAt hr).1

/-- No command changes the parameters. -/
theorem params_of_exec {i : Instr} {s t : State} (h : exec i s = .next t) : t.params = s.params := by
  obtain ⟨-, -, -, hp, -⟩ := commandsKeepOperandRegisters i s t h
  exact hp

/-- No step changes the parameters (00_scope.md R7). -/
theorem params_of_step {s t : State} (h : step s = .next t) : t.params = s.params := by
  cases step_outcome h with
  | command i rest run => exact (params_of_exec run :)
  | reset rest _ next => rw [next]; rfl
  | host params _ _ _ _ => exact params

end Sys2Proof.Machine
end

section
/-! PROOF. Every step keeps DMEM canonical (20_memory.md R60) and the fault record legal (60_exceptions.md R230, R231). -/

namespace Sys2Proof.Machine

/-- Settles O21: every write of a step, a command's or the host's, lies inside DMEM. -/
theorem stepKeepsDmemCanonical : Obligations.StepKeepsDmemCanonical := by
  unfold Obligations.StepKeepsDmemCanonical
  intro s t hwf h
  rw [params_of_step h]
  cases step_outcome h with
  | command i rest run =>
    refine (footprint_of_exec run).dmem.wf ?_ hwf
    rintro x ⟨n, -, hfit, -, hx⟩
    exact hx.trans_le hfit
  | reset rest _ next =>
    rw [next]
    exact ⟨List.Pairwise.nil, fun _ hc => absurd hc List.not_mem_nil⟩
  | host _ _ _ _ dmem => exact dmem.wf (fun _ => id) hwf

/-- The empty fault record is legal. -/
theorem status_inv_clear : Status.clear.Inv := by decide

/-- The record of a fault with a cause is legal when a BUS fault has FOP 0. -/
theorem status_inv_fault {c : Cause} {fop : BitVec 8} (hc : c ≠ .none) (hbus : c = .bus → fop = 0#8) :
    Status.Inv { err := true, cause := c, fop := fop } :=
  ⟨fun h => Bool.noConfusion h, fun _ => hc, hbus⟩

/-- Settles O22: a fault is recorded over a clear record with its own cause and FOP, and the two events that clear
STATUS leave the empty record. -/
theorem stepKeepsStatusInvariant : Obligations.StepKeepsStatusInvariant := by
  unfold Obligations.StepKeepsStatusInvariant
  intro s t hinv h
  cases hp : s.pending with
  | nil =>
    cases (step_idle s hp).symm.trans h
    exact hinv
  | cons e rest =>
    cases step_faultOutcome hp h with
    | faulted c fop source next =>
      have hst : t.status = (State.faulted { s with pending := rest } c fop).status := (congrArg State.status next :)
      obtain hkeep | ⟨-, hset⟩ := faulted_status_cases { s with pending := rest } c fop
      · rw [hst, hkeep]
        exact hinv
      · rw [hst, hset]
        obtain ⟨rfl, rfl⟩ | ⟨hnone, hbus, -⟩ := source
        · exact status_inv_fault (by decide) fun _ => rfl
        · exact status_inv_fault hnone fun hb => absurd hb hbus
    | kept _ status =>
      rw [status]
      exact hinv
    | cleared _ event =>
      have hclear : t.status = Status.clear := by
        obtain ⟨v, rfl, hv⟩ | rfl := event
        · cases (step_writeTo_status hp).symm.trans h
          exact if_pos hv
        · rcases step_cases s _ rest hp with ⟨-, hs⟩ | ⟨a, ha, -⟩
          · cases hs.symm.trans h
            rfl
          · cases ha
      rw [hclear]
      exact status_inv_clear

end Sys2Proof.Machine
end

section
/-! PROOF. Every step keeps the circular buffer's invariant (10_state.md R23, R24). -/

namespace Sys2Proof.Machine

/-! ## The operations on a delay line -/

/-- A line of `n` at most MAXCAP words, rounded up to a power of two, stays within MAXCAP. -/
theorem np2_le_maxCap {p : Params} {n : Nat} (h : n ≤ p.maxCap) : np2 n ≤ p.maxCap := np2_le n p.maxCapLog2 h

/-- A cleared line with both cursors 0. -/
theorem lineInv_cleared {p : Params} {n : Nat} (h : n ≤ p.maxCap) : LineInv p (np2 n) 0 0 [] :=
  ⟨isPow2_np2 n, np2_le_maxCap h, isPow2_pos _ (isPow2_np2 n), isPow2_pos _ (isPow2_np2 n), store_wf_nil _⟩

/-- A line of 128 words fits every AUC (00_scope.md R7). -/
theorem initCap_le_maxCap {p : Params} (hp : p.Legal) : Config.initCap ≤ p.maxCap := by
  obtain ⟨⟨hlo, -⟩, -⟩ := hp
  exact Nat.pow_le_pow_right (by decide : 0 < 2) hlo

/-- The line after reset. -/
theorem lineInv_reset {p : Params} (hp : p.Legal) : LineInv p Config.initCap 0 0 [] :=
  ⟨by decide, initCap_le_maxCap hp, by decide, by decide, store_wf_nil _⟩

section
variable {p : Params} {cap wc rc : Nat} {store : List WordCell}

/-- The write cursor moves, and a word is written there. -/
theorem LineInv.write (h : LineInv p cap wc rc store) (v : Word) :
    LineInv p cap (adv cap wc) rc (storeWrite store (adv cap wc) v) := by
  obtain ⟨hpow, hcap, -, hrc, hst⟩ := h
  exact ⟨hpow, hcap, adv_lt cap wc hpow, hrc, store_wf_storeWrite cap store _ v hst (adv_lt cap wc hpow)⟩

/-- A word inside the line is written in place. -/
theorem LineInv.put (h : LineInv p cap wc rc store) {i : Nat} (hi : i < cap) (v : Word) :
    LineInv p cap wc rc (storeWrite store i v) := by
  obtain ⟨hpow, hcap, hwc, hrc, hst⟩ := h
  exact ⟨hpow, hcap, hwc, hrc, store_wf_storeWrite cap store i v hst hi⟩

/-- The read cursor moves. -/
theorem LineInv.read (h : LineInv p cap wc rc store) : LineInv p cap wc (adv cap rc) store := by
  obtain ⟨hpow, hcap, hwc, -, hst⟩ := h
  exact ⟨hpow, hcap, hwc, adv_lt cap rc hpow, hst⟩

/-- The read cursor is set to the write cursor. -/
theorem LineInv.restart (h : LineInv p cap wc rc store) : LineInv p cap wc wc store := by
  obtain ⟨hpow, hcap, hwc, -, hst⟩ := h
  exact ⟨hpow, hcap, hwc, hwc, hst⟩

end

/-! ## The commands -/

/-- A check, before a part that may count on it. -/
theorem cbInv_check {p : Params} {s t : State} {ok : Bool} {c : Cause} {op : BitVec 8} (hs : s.cb.Inv p)
    (ht : ok = true → t.cb.Inv p) : (s.check ok c op t).cb.Inv p := by
  rcases check_cases s ok c op t with ⟨hok, e⟩ | ⟨-, e⟩
  · rw [e]; exact ht hok
  · rw [e]; exact hs

/-- A block loop. -/
theorem cbInv_loop {p : Params} {body : Nat → State → State} {n : Nat} {s : State} (hs : s.cb.Inv p)
    (h : ∀ i y, y.cb.Inv p → (body i y).cb.Inv p) : (blockLoop body n 0 s).cb.Inv p :=
  blockLoop_induct (fun _ y => y.cb.Inv p) body n s hs fun i y _ hy => h i y hy

theorem pushElem_cbInv {p : Params} {s : State} (a i : Nat) (h : s.cb.Inv p) : (pushElem a i s).cb.Inv p := by
  simp only [pushElem, memRead_cb]
  exact LineInv.write h _

theorem pullAddElem_cbInv {p : Params} {s : State} (a i : Nat) (h : s.cb.Inv p) :
    (pullAddElem a i s).cb.Inv p := by
  simp only [pullAddElem, memWrite_cb, memRead_cb]
  exact LineInv.read h

/-- One element of the modulation keeps the buffer's invariant and its pointer inside the buffer. -/
theorem modulateElem_cbInv {p : Params} {cap : Nat} (a i : Nat) (x : State × Nat)
    (h : x.1.cb.Inv p ∧ x.1.cb.cap = cap ∧ x.2 < cap) :
    (modulateElem a cap i x).1.cb.Inv p ∧ (modulateElem a cap i x).1.cb.cap = cap ∧
      (modulateElem a cap i x).2 < cap := by
  obtain ⟨hinv, rfl, hlt⟩ := h
  simp only [modulateElem, memRead_cb]
  exact ⟨LineInv.put hinv hlt _, trivial, adv_lt _ _ hinv.1⟩

theorem modulate_cbInv {p : Params} (op : BitVec 8) (n : BitVec 20) {s : State} (h : s.cb.Inv p) :
    (modulate op n s).cb.Inv p := by
  refine cbInv_check h fun _ => cbInv_check h fun hdl => ?_
  obtain ⟨hpow, -, hwc, -⟩ := id h
  obtain ⟨h0, hlt⟩ := (delayInRange_iff _ _).1 hdl
  have hstart : didx s.cb.wc s.opaInt.toNat s.cb.cap < s.cb.cap := didx_lt _ _ _ hwc (by omega)
  obtain ⟨hinv, -⟩ := blockLoop_induct
    (fun _ (x : State × Nat) => x.1.cb.Inv p ∧ x.1.cb.cap = s.cb.cap ∧ x.2 < s.cb.cap)
    (modulateElem s.blockBase s.cb.cap) n.toNat (s, didx s.cb.wc s.opaInt.toNat s.cb.cap) ⟨h, rfl, hstart⟩
    fun i x _ hx => modulateElem_cbInv _ i x hx
  exact hinv

/-- Every command keeps the circular buffer's invariant. -/
theorem cbInv_of_exec {i : Instr} {s t : State} (h : exec i s = .next t) (hs : s.cb.Inv s.params) :
    t.cb.Inv s.params := by
  by_cases hi : unitOf i = .cb
  case neg => rwa [(footprint_of_exec h).cb hi]
  cases i with
  | cbResize =>
    cases h
    refine cbInv_check hs fun _ => cbInv_check hs fun hle => lineInv_cleared ?_
    exact Int.toNat_le.2 (of_decide_eq_true hle)
  | cbPush => cases h; exact LineInv.write hs _
  | cbPushBlk n => cases h; exact cbInv_check hs fun _ => cbInv_loop hs fun i _ => pushElem_cbInv _ i
  | cbPull => cases h; exact LineInv.read hs
  | cbPullBlk n =>
    cases h
    exact cbInv_check hs fun _ => cbInv_loop (body := pullElem _) hs fun _ _ hy => LineInv.read hy
  | cbPullBlkAdd n => cases h; exact cbInv_check hs fun _ => cbInv_loop hs fun i _ => pullAddElem_cbInv _ i
  | cbPullDly => cases h; exact cbInv_check hs fun _ => hs
  | cbPullDlyBlk n =>
    cases h
    refine cbInv_check hs fun _ => cbInv_check hs fun _ => ?_
    rwa [blockLoop_keeps (fun x => x.1.cb) (pullDelayElem _ _) fun _ _ => rfl]
  | cbPullDlyBlkI n =>
    cases h
    refine cbInv_check hs fun _ => cbInv_check hs fun _ => ?_
    rwa [interpBlock, blockLoop_keeps (fun x => x.1.cb) (interpElem _ _ _) fun _ _ => rfl]
  | cbModDlyBlk n => cases h; exact modulate_cbInv _ n hs
  | cbModDlyBlkD n => cases h; exact modulate_cbInv _ n hs
  | cbWrDist => cases h; exact hs
  | cbRstRd => cases h; exact LineInv.restart hs
  | _ => cases hi

/-- Settles O18: each command's operations on the buffer keep its invariant, reset starts it, and nothing else touches
it. -/
theorem stepKeepsCircularBufferInvariant : Obligations.StepKeepsCircularBufferInvariant := by
  unfold Obligations.StepKeepsCircularBufferInvariant
  intro s t hp hs h
  refine ⟨params_of_step h, ?_⟩
  rw [params_of_step h]
  cases step_outcome h with
  | command i rest run => exact (cbInv_of_exec run hs :)
  | reset rest _ next => rw [next]; exact lineInv_reset hp
  | host _ cb _ _ _ => rwa [cb]

end Sys2Proof.Machine
end

section
/-! SUPPORT. What the four operations answer: NaN only as the canonical NaN, and the sign and the magnitude of what is
not NaN (00_scope.md R11, R12). -/

namespace Sys2Proof.Machine

/-! ## Signs and comparisons with zero -/

theorem orderKey_zero : orderKey Config.zero = 0 := by decide

theorem magBits_le_infMag {x : F64} (h : isNaN x = false) : magBits x ≤ infMag := by
  simpa [isNaN] using h

theorem not_nan_of_isInf {x : F64} (h : isInf x = true) : isNaN x = false := by
  have hx : magBits x = infMag := of_decide_eq_true h
  simp [isNaN, hx]

theorem not_isInf_of_isFinite {x : F64} (h : isFinite x = true) : isInf x = false := by
  have hx := (isFinite_iff x).1 h
  simp [isInf]
  omega

/-- The positive values: not NaN, a clear sign bit, and not a zero. -/
theorem flt_zero_left_iff (x : F64) :
    flt Config.zero x = true ↔ isNaN x = false ∧ signBit x = false ∧ magBits x ≠ 0 := by
  have hkey : 0 < orderKey x ↔ signBit x = false ∧ magBits x ≠ 0 := by
    unfold orderKey
    cases signBit x with
    | false => simp [Nat.pos_iff_ne_zero]
    | true => simp
  rw [flt, orderKey_zero, zero_not_nan, Bool.and_eq_true, decide_eq_true_eq, hkey]
  simp

/-- The negative values: not NaN, a set sign bit, and not a zero. -/
theorem flt_zero_right_iff (x : F64) :
    flt x Config.zero = true ↔ isNaN x = false ∧ signBit x = true ∧ magBits x ≠ 0 := by
  have hkey : orderKey x < 0 ↔ signBit x = true ∧ magBits x ≠ 0 := by
    unfold orderKey
    cases signBit x with
    | false => simp
    | true => simp [Nat.pos_iff_ne_zero]
  rw [flt, orderKey_zero, zero_not_nan, Bool.and_eq_true, decide_eq_true_eq, hkey]
  simp

theorem rateValid_iff (x : F64) : rateValid x = true ↔ isFinite x = true ∧ signBit x = false ∧ magBits x ≠ 0 := by
  rw [rateValid, Bool.and_eq_true, flt_zero_left_iff]
  exact ⟨fun ⟨h, _, hs⟩ => ⟨h, hs⟩, fun ⟨h, hs⟩ => ⟨h, isNaN_of_isFinite x h, hs⟩⟩

theorem magUnitsOf_eq_zero_iff (m : Nat) : magUnitsOf m = 0 ↔ m = 0 :=
  ⟨fun h => strictMono_magUnitsOf.injective (h.trans (by rfl)), by rintro rfl; rfl⟩

theorem magUnits_eq_zero_iff (x : F64) : magUnits x = 0 ↔ magBits x = 0 := magUnitsOf_eq_zero_iff _

/-- The absolute value of the units. -/
theorem natAbs_units (x : F64) : (units x).natAbs = magUnits x := by
  unfold units
  split <;> simp

theorem units_eq_zero_iff (x : F64) : units x = 0 ↔ magBits x = 0 := by
  rw [← Int.natAbs_eq_zero, natAbs_units, magUnits_eq_zero_iff]

/-! ## The operations -/

/-- Everything a product can be: NaN, or a magnitude with the sign of the operands. -/
theorem fmul_cases (a b : F64) : fmul a b = Config.canonicalNaN ∨
    ∃ mag ≤ infMag, fmul a b = packBits (signBit a != signBit b) mag := by
  unfold fmul
  split_ifs
  · exact .inl rfl
  · exact .inl rfl
  · exact .inr ⟨_, le_rfl, rfl⟩
  · exact .inr ⟨_, roundMag_le _ _, rfl⟩

/-- Everything a quotient can be: NaN, or a magnitude with the sign of the operands. -/
theorem fdiv_cases (a b : F64) : fdiv a b = Config.canonicalNaN ∨
    ∃ mag ≤ infMag, fdiv a b = packBits (signBit a != signBit b) mag := by
  unfold fdiv
  split_ifs
  · exact .inl rfl
  · exact .inl rfl
  · exact .inr ⟨_, le_rfl, rfl⟩
  · exact .inr ⟨_, Nat.zero_le _, rfl⟩
  · exact .inl rfl
  · exact .inr ⟨_, le_rfl, rfl⟩
  · exact .inr ⟨_, roundMag_le _ _, rfl⟩

/-- The product of two finite values. -/
theorem fmul_finite {a b : F64} (ha : isFinite a = true) (hb : isFinite b = true) :
    fmul a b = packBits (signBit a != signBit b) (roundMag (magUnits a * magUnits b) unitsPerOne) := by
  simp [fmul, isNaN_of_isFinite a ha, isNaN_of_isFinite b hb, not_isInf_of_isFinite ha, not_isInf_of_isFinite hb]

/-- The quotient of two finite values, the second not a zero. -/
theorem fdiv_finite {a b : F64} (ha : isFinite a = true) (hb : isFinite b = true) (h0 : magBits b ≠ 0) :
    fdiv a b = packBits (signBit a != signBit b) (roundMag (magUnits a * unitsPerOne) (magUnits b)) := by
  simp [fdiv, isNaN_of_isFinite a ha, isNaN_of_isFinite b hb, not_isInf_of_isFinite ha, not_isInf_of_isFinite hb, h0]

/-- The quotient of a nonzero finite value and a zero is infinite. -/
theorem fdiv_by_zero {a b : F64} (ha : isFinite a = true) (ha0 : magBits a ≠ 0) (hb : magBits b = 0) :
    fdiv a b = packBits (signBit a != signBit b) infMag := by
  have hnan : isNaN b = false := by simp [isNaN, hb]
  have hinf : isInf b = false := by simp only [isInf, hb]; decide
  simp [fdiv, isNaN_of_isFinite a ha, hnan, not_isInf_of_isFinite ha, hinf, ha0, hb]

/-- A nonzero finite value has a quotient by every value that is not NaN. -/
theorem fdiv_of_dividend {a b : F64} (ha : isFinite a = true) (ha0 : magBits a ≠ 0) (hb : isNaN b = false) :
    ∃ mag ≤ infMag, fdiv a b = packBits (signBit a != signBit b) mag := by
  refine (fdiv_cases a b).resolve_left fun h => ?_
  have hnan : isNaN (fdiv a b) = true := by rw [h]; decide
  refine Bool.false_ne_true (Eq.trans ?_ hnan)
  simp only [fdiv, isNaN_of_isFinite a ha, hb, not_isInf_of_isFinite ha, ha0, Bool.or_self, Bool.false_eq_true, if_false]
  split_ifs
  · exact (isNaN_packBits _ 0 (Nat.zero_le _)).symm
  · exact (isNaN_packBits _ _ le_rfl).symm
  · exact (isNaN_packBits _ _ (roundMag_le _ _)).symm

/-- Every value that is not NaN has a quotient by a nonzero finite value. -/
theorem fdiv_by_finite {a b : F64} (ha : isNaN a = false) (hb : isFinite b = true) (hb0 : magBits b ≠ 0) :
    isNaN (fdiv a b) = false := by
  simp only [fdiv, isNaN_of_isFinite b hb, ha, not_isInf_of_isFinite hb, hb0, Bool.or_self, Bool.false_eq_true, if_false]
  split_ifs
  · exact isNaN_packBits _ _ le_rfl
  · exact isNaN_packBits _ _ (roundMag_le _ _)

/-- A zero divided by a nonzero finite value is a zero. -/
theorem magBits_fdiv_zero {a b : F64} (ha : magBits a = 0) (hb : isFinite b = true) (hb0 : magBits b ≠ 0) :
    magBits (fdiv a b) = 0 := by
  have hfin : isFinite a = true := (isFinite_iff a).2 (by rw [ha]; decide)
  rw [fdiv_finite hfin hb hb0, (magUnits_eq_zero_iff a).2 ha, Nat.zero_mul, roundMag_zero,
    magBits_packBits _ 0 (by decide)]

end Sys2Proof.Machine
end

section
/-! PROOF. A result that is NaN is the canonical NaN (00_scope.md R12). -/

namespace Sys2Proof.Machine

/-- A sum that is NaN is the canonical one: an infinite operand and a rounding are not NaN. -/
theorem fadd_nan {a b : F64} (h : isNaN (fadd a b) = true) : fadd a b = Config.canonicalNaN := by
  obtain hr | ⟨hr, hinf⟩ | ⟨hr, hinf⟩ | ⟨-, hr⟩ | ⟨-, hr⟩ := fadd_cases a b
  · exact hr
  · rw [hr, not_nan_of_isInf hinf] at h; cases h
  · rw [hr, not_nan_of_isInf hinf] at h; cases h
  · rw [hr, isNaN_packBits _ 0 (Nat.zero_le _)] at h; cases h
  · rw [hr, isNaN_packBits _ _ (roundMag_le _ _)] at h; cases h

/-- A value that is NaN is no packed magnitude up to that of an infinity. -/
theorem eq_nan_of_cases {r : F64} {neg : Bool} (h : isNaN r = true)
    (hr : r = Config.canonicalNaN ∨ ∃ mag ≤ infMag, r = packBits neg mag) : r = Config.canonicalNaN := by
  refine hr.resolve_right ?_
  rintro ⟨mag, hmag, rfl⟩
  rw [isNaN_packBits _ mag hmag] at h
  cases h

/-- Settles O50: each operation answers NaN only by its NaN branches, which answer the canonical one. -/
theorem naNResultsAreCanonical : Obligations.NaNResultsAreCanonical := by
  unfold Obligations.NaNResultsAreCanonical
  intro a b r hr hnan
  simp only [List.mem_cons, List.not_mem_nil, or_false] at hr
  obtain rfl | rfl | rfl | rfl := hr
  · exact fadd_nan hnan
  · exact fadd_nan hnan
  · exact eq_nan_of_cases hnan (fmul_cases a b)
  · exact eq_nan_of_cases hnan (fdiv_cases a b)

end Sys2Proof.Machine
end

section
/-! PROOF. Every step keeps the comb filter's invariant (10_state.md R25, R26, 42_comb.md R161, R162). -/

namespace Sys2Proof.Machine

/-! ## Delays that can be stored -/

theorem maxCap_bounds {p : Params} (hp : p.Legal) : 0 < p.maxCap ∧ p.maxCap ≤ 2 ^ 32 := by
  obtain ⟨⟨-, hhi⟩, -⟩ := hp
  exact ⟨Nat.two_pow_pos _, Nat.pow_le_pow_right (by decide) hhi⟩

/-- The limit of a comb delay is a whole number that binary64 holds exactly. -/
theorem units_delayLimit {p : Params} (hp : p.Legal) :
    units (f64OfNat (p.maxCap - 1)) = ((p.maxCap - 1) * unitsPerOne : Nat) ∧
    isFinite (f64OfNat (p.maxCap - 1)) = true := by
  have hcap := (maxCap_bounds hp).2
  obtain ⟨hu, hfin, -⟩ := units_f64OfNat (p.maxCap - 1) (by omega)
  exact ⟨hu, hfin⟩

/-- A magnitude at or below a finite value is finite. -/
theorem isFinite_of_fle {x y : F64} (hx : signBit x = false) (hy : isFinite y = true) (h : fle x y = true) :
    isFinite x = true := by
  have hle : orderKey x ≤ orderKey y := of_decide_eq_true (Bool.and_eq_true_iff.1 h).2
  have hxkey : orderKey x = magBits x := by rw [orderKey, hx]; rfl
  have hykey : orderKey y ≤ magBits y := by unfold orderKey; split <;> omega
  have hy' := (isFinite_iff y).1 hy
  rw [isFinite_iff]
  omega

/-- A delay that can be stored is at most MAXCAP - 1. -/
theorem units_le_of_storable {p : Params} {d : F64} (hp : p.Legal) (h : delayStorable p d = true) :
    units d ≤ ((p.maxCap - 1) * unitsPerOne : Nat) := by
  obtain ⟨hd, hlim⟩ := fle_not_nan _ _ h
  rw [← (units_delayLimit hp).1]
  exact (fle_iff _ _ hd hlim).1 h

/-- The ceiling of a delay of at most `n` whole ones. -/
theorem fceil_le {d : F64} {n : Nat} (h : units d ≤ (n * unitsPerOne : Nat)) : fceil d ≤ n := by
  have hu : (0 : Int) < unitsPerOne := Int.ofNat_lt.2 unitsPerOne_pos
  have hdiv : -(n : Int) ≤ -units d / unitsPerOne := by
    rw [Int.le_ediv_iff_mul_le hu, Int.neg_mul]
    exact Int.neg_le_neg (by exact_mod_cast h)
  unfold fceil
  omega

/-- The line a storable delay needs has at most MAXCAP words. -/
theorem need_le_maxCap {p : Params} {d : F64} (hp : p.Legal) (h : delayStorable p d = true) :
    (fceil d).toNat + 1 ≤ p.maxCap := by
  have hpos := (maxCap_bounds hp).1
  have hceil := fceil_le (units_le_of_storable hp h)
  omega

/-! ## The quotients of a rate -/

/-- The delay a rate and a positive frequency give, when it can be stored: finite, with a clear sign bit. -/
theorem quotient_storable {p : Params} {fs f : F64} (hp : p.Legal) (hfs : rateValid fs = true)
    (hf : flt Config.zero f = true) (h : delayStorable p (fdiv fs f) = true) :
    isFinite (fdiv fs f) = true ∧ signBit (fdiv fs f) = false := by
  obtain ⟨hfin, hsign, hpos⟩ := (rateValid_iff fs).1 hfs
  obtain ⟨hnan, hfsign, -⟩ := (flt_zero_left_iff f).1 hf
  obtain ⟨mag, hmag, hq⟩ := fdiv_of_dividend hfin hpos hnan
  have hs : signBit (fdiv fs f) = false := by
    rw [hq, signBit_packBits _ _ (hmag.trans_lt infMag_lt), hsign, hfsign]
    rfl
  exact ⟨isFinite_of_fle hs (units_delayLimit hp).2 h, hs⟩

/-- The frequency a rate and a delay not below +0.0 give: above zero, or +0.0 where the quotient underflows. -/
theorem quotient_frequency {fs d : F64} (hfs : rateValid fs = true) (hd : isFinite d = true)
    (hsign : signBit d = false) : flt Config.zero (fdiv fs d) = true ∨ fdiv fs d = Config.zero := by
  obtain ⟨hfin, hfsign, hpos⟩ := (rateValid_iff fs).1 hfs
  obtain ⟨mag, hmag, hq⟩ := fdiv_of_dividend hfin hpos (isNaN_of_isFinite d hd)
  rw [hfsign, hsign] at hq
  obtain rfl | hmag0 := Nat.eq_zero_or_pos mag
  · exact .inr hq
  · have hlt := hmag.trans_lt infMag_lt
    refine .inl ((flt_zero_left_iff _).2 ?_)
    rw [hq, isNaN_packBits _ _ hmag, signBit_packBits _ _ hlt, magBits_packBits _ _ hlt]
    exact ⟨rfl, rfl, hmag0.ne'⟩

/-- A rate over a frequency of zero is no delay that can be stored. -/
theorem not_storable_of_zero_frequency {p : Params} {fs : F64} (hp : p.Legal) (hfs : rateValid fs = true) :
    delayStorable p (fdiv fs Config.zero) = false := by
  obtain ⟨hfin, hsign, hpos⟩ := (rateValid_iff fs).1 hfs
  have hq : fdiv fs Config.zero = packBits false infMag := by
    rw [fdiv_by_zero hfin hpos (by decide), hsign]
    rfl
  by_contra h
  rw [Bool.not_eq_false, hq] at h
  have := isFinite_of_fle (by decide) (units_delayLimit hp).2 h
  exact absurd this (by decide)

/-! ## The operations on the comb -/

/-- One step writes the line at its advanced cursor. -/
theorem CfUnit.Inv.step {p : Params} {u : CfUnit} (h : u.Inv p) (x : F64) : (u.step x).2.Inv p := by
  obtain ⟨hline, hrest⟩ := h
  by_cases hfb : u.fb = true
  · have hstep : (u.step x).2 = { u.feed x with
        store := storeWrite (u.feed x).store (u.feed x).wc ((u.feed x).output x) } := if_pos hfb
    rw [hstep]
    exact ⟨(hline.write x).put (adv_lt _ _ hline.1) _, hrest⟩
  · have hstep : (u.step x).2 = u.feed x := if_neg hfb
    rw [hstep]
    exact ⟨hline.write x, hrest⟩

/-- A line grown for a storable delay is a line again, and holds the delay. -/
theorem retune_line {p : Params} {u : CfUnit} {fs freq d : F64} (hp : p.Legal)
    (h : LineInv p u.cap u.wc u.rc u.store) (hd : delayStorable p d = true) :
    LineInv p (u.retune fs freq d).cap (u.retune fs freq d).wc (u.retune fs freq d).rc (u.retune fs freq d).store ∧
    (fceil d).toNat + 1 ≤ (u.retune fs freq d).cap := by
  simp only [CfUnit.retune, CfUnit.grow]
  split
  case isTrue _ => exact ⟨lineInv_cleared (need_le_maxCap hp hd), le_np2 _⟩
  case isFalse hlong => exact ⟨h, Nat.le_of_not_lt hlong⟩

/-- A comb given a rate, a frequency and a delay that belong together. -/
theorem CfUnit.Inv.retune {p : Params} {u : CfUnit} {fs freq d : F64} (hp : p.Legal) (h : u.Inv p)
    (hfs : rateValid fs = true) (hfin : isFinite d = true) (hsign : signBit d = false)
    (hd : delayStorable p d = true)
    (hfreq : flt Config.zero freq = true ∨ (freq = Config.zero ∧ fdiv fs d = Config.zero))
    (hrel : d = fdiv fs freq ∨ freq = fdiv fs d) : (u.retune fs freq d).Inv p := by
  obtain ⟨hline, -, -, -, hk, -⟩ := h
  obtain ⟨hline', hfit⟩ := retune_line (fs := fs) (freq := freq) hp hline hd
  rw [retune_eq]
  exact ⟨hline', hfs, ⟨hfin, hsign, hd, hfit⟩, hfreq, hk, hrel⟩

/-- A check, before a part that may count on it. -/
theorem cfInv_check {p : Params} {s t : State} {ok : Bool} {c : Cause} {op : BitVec 8} (hs : s.cf.Inv p)
    (ht : ok = true → t.cf.Inv p) : (s.check ok c op t).cf.Inv p := by
  rcases check_cases s ok c op t with ⟨hok, e⟩ | ⟨-, e⟩
  · rw [e]; exact ht hok
  · rw [e]; exact hs

theorem procElem_cfInv {p : Params} {s : State} (a i : Nat) (h : s.cf.Inv p) : (procElem a i s).cf.Inv p := by
  simp only [procElem, memWrite_cf, memRead_cf]
  exact h.step _

/-- CF.SETFREQ gives the rate's quotient by a positive frequency (42_comb.md R166). -/
theorem cfInv_setFreq {s : State} (hp : s.params.Legal) (hs : s.cf.Inv s.params) :
    (s.retune 0x22#8 (flt Config.zero s.opa) s.cf.fs s.opa (fdiv s.cf.fs s.opa)).cf.Inv s.params := by
  refine cfInv_check hs fun hf => cfInv_check hs fun hd => ?_
  obtain ⟨-, hfs, -⟩ := id hs
  obtain ⟨hfin, hsign⟩ := quotient_storable hp hfs hf hd
  exact hs.retune hp hfs hfin hsign hd (.inl hf) (.inl rfl)

/-- CF.INITFS keeps the frequency, which a delay that can be stored shows to be positive (42_comb.md R168). -/
theorem cfInv_initFs {s : State} (hp : s.params.Legal) (hs : s.cf.Inv s.params) :
    (s.retune 0x25#8 (rateValid s.opa) s.opa s.cf.freq (fdiv s.opa s.cf.freq)).cf.Inv s.params := by
  refine cfInv_check hs fun hfs => cfInv_check hs fun hd => ?_
  obtain ⟨-, -, -, hfreq, -⟩ := id hs
  have hf : flt Config.zero s.cf.freq = true := by
    refine hfreq.resolve_right fun hzero => ?_
    rw [hzero.1, not_storable_of_zero_frequency hp hfs] at hd
    cases hd
  obtain ⟨hfin, hsign⟩ := quotient_storable hp hfs hf hd
  exact hs.retune hp hfs hfin hsign hd (.inl hf) (.inl rfl)

/-- A finite delay not below zero, with -0.0 taken as +0.0, has a clear sign bit (42_comb.md R167). -/
theorem storedDelay_sign {x : F64} (h : fle Config.zero x = true) :
    signBit (if feq x Config.zero = true then Config.zero else x) = false := by
  have hx := (fle_not_nan _ _ h).2
  have hkey : 0 ≤ orderKey x := by simpa [fle, hx, zero_not_nan, orderKey_zero] using h
  split
  · rfl
  · next hne =>
    simp only [feq, hx, zero_not_nan, orderKey_zero, Bool.not_false, Bool.and_self, Bool.true_and,
      decide_eq_true_eq] at hne
    cases hs : signBit x with
    | false => rfl
    | true =>
      simp only [orderKey, hs, if_true] at hkey hne
      omega

/-- CF.SETDLY gives the rate's quotient by the delay (42_comb.md R167). -/
theorem cfInv_setDly {s : State} {d : F64} (hp : s.params.Legal) (hs : s.cf.Inv s.params)
    (hd : d = if feq s.opa Config.zero = true then Config.zero else s.opa) :
    (s.retune 0x23#8 (fle Config.zero s.opa && isFinite s.opa) s.cf.fs (fdiv s.cf.fs d) d).cf.Inv s.params := by
  refine cfInv_check hs fun hok => cfInv_check hs fun hst => ?_
  obtain ⟨h0, -⟩ := Bool.and_eq_true_iff.1 hok
  obtain ⟨-, hfs, -⟩ := id hs
  have hsign : signBit d = false := by rw [hd]; exact storedDelay_sign h0
  have hfin : isFinite d = true := isFinite_of_fle hsign (units_delayLimit hp).2 hst
  refine hs.retune hp hfs hfin hsign hst ?_ (.inr rfl)
  exact (quotient_frequency hfs hfin hsign).imp_right fun h => ⟨h, h⟩

/-- Every command keeps the comb filter's invariant. -/
theorem cfInv_of_exec {i : Instr} {s t : State} (h : exec i s = .next t) (hp : s.params.Legal)
    (hs : s.cf.Inv s.params) : t.cf.Inv s.params := by
  by_cases hi : unitOf i = .cf
  case neg => rwa [(footprint_of_exec h).cf hi]
  cases i with
  | cfProc => cases h; exact hs.step _
  | cfProcBlk n =>
    cases h
    exact cfInv_check hs fun _ =>
      blockLoop_induct (fun _ y => y.cf.Inv s.params) _ _ s hs fun i _ _ => procElem_cfInv _ i
  | cfSetFreq => cases (exec_cfSetFreq s).symm.trans h; exact cfInv_setFreq hp hs
  | cfSetDly => cases (exec_cfSetDly s _ rfl).symm.trans h; exact cfInv_setDly hp hs rfl
  | cfSetFbk =>
    cases h
    refine cfInv_check hs fun hok => ?_
    obtain ⟨hline, hfs, hdelay, hfreq, -, hrel⟩ := hs
    exact ⟨hline, hfs, hdelay, hfreq, clampK_mem ((Bool.not_eq_true' _).mp hok), hrel⟩
  | cfInitFs => cases (exec_cfInitFs s).symm.trans h; exact cfInv_initFs hp hs
  | cfSetTopo => cases h; exact cfInv_check hs fun _ => hs
  | _ => cases hi

/-- The delay after reset, 1.0, can be stored in every AUC. -/
theorem delayStorable_one {p : Params} (hp : p.Legal) : delayStorable p Config.one = true := by
  obtain ⟨hlim, hfin⟩ := units_delayLimit hp
  have hcap := initCap_le_maxCap hp
  have hone : units Config.one = (1 * unitsPerOne : Nat) := by decide +kernel
  have hinit : Config.initCap = 128 := rfl
  refine (fle_iff _ _ (by decide) (isNaN_of_isFinite _ hfin)).2 ?_
  rw [hone, hlim]
  exact Int.ofNat_le.2 (Nat.mul_le_mul_right _ (by omega))

/-- The comb filter after reset. -/
theorem cfInv_reset {p : Params} (hp : p.Legal) : CfUnit.reset.Inv p :=
  ⟨lineInv_reset hp, by decide, ⟨by decide, by decide, delayStorable_one hp, by decide +kernel⟩, .inl (by decide),
    by decide, .inl (by decide +kernel)⟩

/-- Settles O19: each command keeps the relation of rate, delay and frequency, reset starts it, and nothing else touches
the comb. -/
theorem stepKeepsCombInvariant : Obligations.StepKeepsCombInvariant := by
  unfold Obligations.StepKeepsCombInvariant
  intro s t hp hs h
  rw [params_of_step h]
  cases step_outcome h with
  | command i rest run => exact (cfInv_of_exec run hp hs :)
  | reset rest _ next => rw [next]; exact cfInv_reset hp
  | host _ _ cf _ _ => rwa [cf]

end Sys2Proof.Machine
end

section
/-! PROOF. The comb's frequency is positive at every rate of at least 2^-1042 (10_state.md R25, 42_comb.md R167). -/

namespace Sys2Proof.Machine

/-- A quotient of at least one unit is not rounded to zero. -/
theorem roundMag_pos {num den : Nat} (hden : 0 < den) (h : den ≤ num) : 0 < roundMag num den := by
  have hq : 1 ≤ num / den := (Nat.one_le_div_iff hden).2 h
  refine Nat.lt_min.2 ⟨by decide, ?_⟩
  obtain hk | hk := Nat.eq_zero_or_pos (Nat.log2 (num / den) - 52)
  · rw [hk, Nat.zero_mul, Nat.zero_add, Nat.pow_zero, Nat.mul_one]
    exact Nat.lt_of_lt_of_le hq (roundNearestEven_ge num den)
  · exact Nat.add_pos_left (Nat.mul_pos hk (by decide)) _

/-- Settles O59: a storable delay is below 2^32 whole ones, so the quotient of a rate of at least 2^32 units by it is at
least one unit and does not underflow. -/
theorem combFrequencyIsPositive : Obligations.CombFrequencyIsPositive := by
  unfold Obligations.CombFrequencyIsPositive
  intro s hp ⟨_, hfs, ⟨hfin, hsign, hst, _⟩, hfreq, _⟩ hrate
  refine hfreq.resolve_right fun hzero => ?_
  obtain ⟨-, hq⟩ := hzero
  obtain ⟨hfsfin, hfssign, hfspos⟩ := (rateValid_iff _).1 hfs
  by_cases hd : magBits s.cf.delay = 0
  · rw [fdiv_by_zero hfsfin hfspos hd, hfssign, hsign] at hq
    exact absurd hq (by decide)
  · have hfsu : 2 ^ 32 ≤ magUnits s.cf.fs := by
      have := units_eq_magUnits (units_nonneg_of_signBit hfssign)
      omega
    have hdu : magUnits s.cf.delay ≤ (s.params.maxCap - 1) * unitsPerOne := by
      have hle := units_le_of_storable hp hst
      rw [units_eq_magUnits (units_nonneg_of_signBit hsign)] at hle
      exact Int.ofNat_le.1 hle
    have hcap := (maxCap_bounds hp).2
    have hle : magUnits s.cf.delay ≤ magUnits s.cf.fs * unitsPerOne :=
      hdu.trans (Nat.mul_le_mul_right _ (by omega))
    have hpos := roundMag_pos (Nat.pos_of_ne_zero (mt (magUnits_eq_zero_iff _).1 hd)) hle
    have hmag := congrArg magBits (hq.symm.trans (fdiv_finite hfsfin hfin hd))
    rw [magBits_packBits _ _ (roundMag_lt _ _)] at hmag
    exact hpos.ne hmag

end Sys2Proof.Machine
end

section
/-! SUPPORT. Sums of finite values keep the order of their operands (00_scope.md R11): the sum is the rounding of the
exact sum, and rounding is monotone and leaves the values that need none. -/

namespace Sys2Proof.Machine

/-- The order key of a whole number of units rounded to a binary64. -/
def roundKey (z : Int) : Int := if z < 0 then -(roundMag z.natAbs 1 : Int) else roundMag z.natAbs 1

theorem roundKey_mono {y z : Int} (h : y ≤ z) : roundKey y ≤ roundKey z := by
  unfold roundKey
  by_cases hy : y < 0
  · by_cases hz : z < 0
    · have := roundMag_mono z.natAbs y.natAbs 1 (by omega)
      rw [if_pos hy, if_pos hz]
      omega
    · rw [if_pos hy, if_neg hz]
      omega
  · have := roundMag_mono y.natAbs z.natAbs 1 (by omega)
    rw [if_neg hy, if_neg (by omega)]
    omega

/-- The units of a finite value are rounded to that value. -/
theorem roundKey_units {x : F64} (h : isFinite x = true) : roundKey (units x) = orderKey x := by
  rw [roundKey, natAbs_units, roundMag_magUnits x h, orderKey, units]
  have h0 := magUnits_eq_zero_iff x
  cases signBit x with
  | false => exact if_neg (Int.not_lt.2 (Int.natCast_nonneg _))
  | true =>
    simp only [if_true]
    split <;> omega

/-- The order key of a sum. -/
theorem orderKey_fadd {a b : F64} (ha : isFinite a = true) (hb : isFinite b = true) :
    orderKey (fadd a b) = roundKey (units a + units b) := by
  rw [fadd_finite a b ha hb, roundKey]
  by_cases h0 : units a + units b = 0
  · rw [if_pos h0, h0, orderKey, magBits_packBits _ 0 (by decide)]
    simp [roundMag_zero]
  · have hlt := roundMag_lt (units a + units b).natAbs 1
    rw [if_neg h0, orderKey, magBits_packBits _ _ hlt, signBit_packBits _ _ hlt]
    simp only [decide_eq_true_eq]

theorem fle_iff_orderKey {x y : F64} (hx : isNaN x = false) (hy : isNaN y = false) :
    fle x y = true ↔ orderKey x ≤ orderKey y := by
  simp [fle, hx, hy]

/-- The sum of a finite value and an infinity is the infinity. -/
theorem fadd_isInf {a b : F64} (ha : isFinite a = true) (hb : isInf b = true) : fadd a b = b := by
  simp [fadd, isNaN_of_isFinite a ha, not_nan_of_isInf hb, not_isInf_of_isFinite ha, hb]

/-- A value that is not NaN is finite or an infinity. -/
theorem isFinite_or_isInf {x : F64} (h : isNaN x = false) : isFinite x = true ∨ isInf x = true := by
  rw [isFinite_eq_not_isInf h]
  cases isInf x <;> simp

/-- The sum of a finite value and one that is not NaN is not NaN. -/
theorem fadd_not_nan {a b : F64} (ha : isFinite a = true) (hb : isNaN b = false) : isNaN (fadd a b) = false := by
  obtain hfin | hinf := isFinite_or_isInf hb
  · exact fadd_finite_not_nan a b ha hfin
  · rw [fadd_isInf ha hinf]; exact hb

/-- A finite value is at most a positive infinity and at least a negative one. -/
theorem orderKey_lt_of_isInf {a b : F64} (ha : isFinite a = true) (hb : isInf b = true) :
    (signBit b = false → orderKey a < orderKey b) ∧ (signBit b = true → orderKey b < orderKey a) := by
  have ha' := (isFinite_iff a).1 ha
  have hb' : magBits b = infMag := of_decide_eq_true hb
  have hlt : orderKey a < infMag ∧ -(infMag : Int) < orderKey a := by
    unfold orderKey
    split <;> omega
  have hkey : orderKey b = if signBit b = true then -(infMag : Int) else infMag := by rw [orderKey, hb']
  refine ⟨fun hs => ?_, fun hs => ?_⟩
  · rw [hkey, hs]; exact hlt.1
  · rw [hkey, hs]; exact hlt.2

/-- Adding a positive value does not lead below the other operand. -/
theorem le_fadd_of_pos {a b : F64} (ha : isFinite a = true) (hb : flt Config.zero b = true) :
    orderKey a ≤ orderKey (fadd a b) := by
  obtain ⟨hnan, hsign, -⟩ := (flt_zero_left_iff b).1 hb
  obtain hfin | hinf := isFinite_or_isInf hnan
  · have := units_nonneg_of_signBit hsign
    rw [orderKey_fadd ha hfin, ← roundKey_units ha]
    exact roundKey_mono (by omega)
  · rw [fadd_isInf ha hinf]
    exact ((orderKey_lt_of_isInf ha hinf).1 hsign).le

/-- Adding a negative value does not lead above the other operand. -/
theorem fadd_le_of_neg {a b : F64} (ha : isFinite a = true) (hb : flt b Config.zero = true) :
    orderKey (fadd a b) ≤ orderKey a := by
  obtain ⟨hnan, hsign, -⟩ := (flt_zero_right_iff b).1 hb
  obtain hfin | hinf := isFinite_or_isInf hnan
  · have hneg : units b ≤ 0 := by
      rw [units, hsign]
      exact Int.neg_nonpos_of_nonneg (Int.natCast_nonneg _)
    rw [orderKey_fadd ha hfin, ← roundKey_units ha]
    exact roundKey_mono (by omega)
  · rw [fadd_isInf ha hinf]
    exact ((orderKey_lt_of_isInf ha hinf).2 hsign).le

/-- A difference of finite values tells their order. -/
theorem orderKey_le_of_fsub_pos {a b : F64} (ha : isFinite a = true) (hb : isFinite b = true) :
    (0 < orderKey (fsub a b) → orderKey b ≤ orderKey a) ∧ (orderKey (fsub a b) < 0 → orderKey a ≤ orderKey b) := by
  have hb' : isFinite (fneg b) = true := by rwa [isFinite_fneg]
  rw [orderKey_le_iff, orderKey_le_iff, fsub, orderKey_fadd ha hb', units_fneg]
  have h0 : roundKey 0 = 0 := by simp [roundKey, roundMag_zero]
  constructor <;> intro h <;> by_contra hlt
  · have := roundKey_mono (show units a + -units b ≤ 0 by omega)
    omega
  · have := roundKey_mono (show 0 ≤ units a + -units b by omega)
    omega

end Sys2Proof.Machine
end

section
/-! SUPPORT. One advance of a smoother channel moves SM_CUR towards SM_TGT and never past it (43_smooth.md R202,
R210). -/

namespace Sys2Proof.Machine

theorem flt_iff_orderKey {x y : F64} (hx : isNaN x = false) (hy : isNaN y = false) :
    flt x y = true ↔ orderKey x < orderKey y := by
  simp [flt, hx, hy]

theorem fle_self {x : F64} (hx : isNaN x = false) : fle x x = true := (fle_iff_orderKey hx hx).2 le_rfl

theorem natAbs_orderKey (x : F64) : (orderKey x).natAbs = magBits x := by
  unfold orderKey
  split <;> simp

/-- What lies between finite values is finite. -/
theorem isFinite_of_between {a b x : F64} (ha : isFinite a = true) (hb : isFinite b = true)
    (hax : orderKey a ≤ orderKey x) (hxb : orderKey x ≤ orderKey b) : isFinite x = true := by
  rw [isFinite_iff, ← natAbs_orderKey] at *
  omega

/-- A value that is not NaN is positive, negative or a zero. -/
theorem pos_or_neg_or_zero {x : F64} (h : isNaN x = false) :
    flt Config.zero x = true ∨ flt x Config.zero = true ∨ magBits x = 0 := by
  rw [flt_zero_left_iff, flt_zero_right_iff]
  by_cases h0 : magBits x = 0
  · exact .inr (.inr h0)
  · cases signBit x with
    | false => exact .inl ⟨h, rfl, h0⟩
    | true => exact .inr (.inl ⟨h, rfl, h0⟩)

/-- A positive value is not negative. -/
theorem not_neg_of_pos {x : F64} (h : flt Config.zero x = true) : flt x Config.zero = false := by
  rw [Bool.eq_false_iff, Ne, flt_zero_right_iff, ((flt_zero_left_iff x).1 h).2.1]
  simp

/-- A negative value is not positive. -/
theorem not_pos_of_neg {x : F64} (h : flt x Config.zero = true) : flt Config.zero x = false :=
  Bool.eq_false_iff.2 fun hpos => Bool.eq_false_iff.1 (not_neg_of_pos hpos) h

/-- A zero is neither positive nor negative. -/
theorem not_pos_neg_of_zero {x : F64} (h : magBits x = 0) :
    flt Config.zero x = false ∧ flt x Config.zero = false :=
  ⟨Bool.eq_false_iff.2 fun hpos => ((flt_zero_left_iff x).1 hpos).2.2 h,
    Bool.eq_false_iff.2 fun hneg => ((flt_zero_right_iff x).1 hneg).2.2 h⟩

/-- Before the last step, the value taken lies between SM_CUR and SM_TGT for a nonzero increment, and stays SM_CUR as a
number for a zero one. -/
theorem SmChannel.approach_bounds {ch : SmChannel} (h : ch.Inv) :
    (flt Config.zero ch.inc = true →
      orderKey ch.cur ≤ orderKey ch.approach ∧ orderKey ch.approach ≤ orderKey ch.tgt) ∧
    (flt ch.inc Config.zero = true →
      orderKey ch.approach ≤ orderKey ch.cur ∧ orderKey ch.tgt ≤ orderKey ch.approach) ∧
    (magBits ch.inc = 0 → orderKey ch.approach = orderKey ch.cur) := by
  obtain ⟨-, hcur, htgt, hinc, -, -, -, hup, hdown⟩ := h
  have hc := isNaN_of_isFinite _ hcur
  have ht := isNaN_of_isFinite _ htgt
  have hs := fadd_not_nan hcur hinc
  rw [fle_iff_orderKey hc ht] at hup
  rw [fle_iff_orderKey ht hc] at hdown
  simp only [SmChannel.approach, flt_iff_orderKey ht hs, flt_iff_orderKey hs ht]
  refine ⟨fun hpos => ?_, fun hneg => ?_, fun hzero => ?_⟩
  · have hle := le_fadd_of_pos hcur hpos
    have hup := hup hpos
    simp only [hpos, not_neg_of_pos hpos, Bool.false_eq_true, true_and, false_and, or_false]
    split <;> omega
  · have hle := fadd_le_of_neg hcur hneg
    have hdown := hdown hneg
    simp only [hneg, not_pos_of_neg hneg, Bool.false_eq_true, true_and, false_and, false_or]
    split <;> omega
  · obtain ⟨hpos, hneg⟩ := not_pos_neg_of_zero hzero
    have hfin : isFinite ch.inc = true := (isFinite_iff _).2 (by rw [hzero]; decide)
    simp only [hpos, hneg, Bool.false_eq_true, false_and, or_self, if_false]
    rw [orderKey_fadd hcur hfin, (units_eq_zero_iff _).2 hzero, Int.add_zero, roundKey_units hcur]

/-- The value taken before the last step is finite. -/
theorem SmChannel.isFinite_approach {ch : SmChannel} (h : ch.Inv) : isFinite ch.approach = true := by
  obtain ⟨hup, hdown, hstay⟩ := SmChannel.approach_bounds h
  obtain ⟨-, hcur, htgt, hinc, -⟩ := h
  obtain hpos | hneg | hzero := pos_or_neg_or_zero hinc
  · exact isFinite_of_between hcur htgt (hup hpos).1 (hup hpos).2
  · exact isFinite_of_between htgt hcur (hdown hneg).2 (hdown hneg).1
  · exact isFinite_of_between hcur hcur (hstay hzero).ge (hstay hzero).le

/-- An advance changes SM_CUR and SM_REM only. -/
theorem SmChannel.step_eq (ch : SmChannel) : ch.step = { ch with cur := ch.step.cur, rem := ch.step.rem } := by
  obtain h | h | h : ch.rem.toNat = 0 ∨ ch.rem.toNat = 1 ∨ 2 ≤ ch.rem.toNat := by omega
  · rw [SmChannel.step_of_rem_eq_zero h]
  · rw [SmChannel.step_of_rem_eq_one h]
  · rw [SmChannel.step_of_two_le_rem h]

/-- An advance moves SM_CUR towards SM_TGT, or leaves it, and never past it. -/
theorem SmChannel.step_between {ch : SmChannel} (h : ch.Inv) :
    isFinite ch.step.cur = true ∧
    (flt Config.zero ch.inc = true → fle ch.cur ch.step.cur = true ∧ fle ch.step.cur ch.tgt = true) ∧
    (flt ch.inc Config.zero = true → fle ch.step.cur ch.cur = true ∧ fle ch.tgt ch.step.cur = true) := by
  have hfin := SmChannel.isFinite_approach h
  obtain ⟨hup, hdown, -⟩ := SmChannel.approach_bounds h
  obtain ⟨-, hcur, htgt, -, -, -, -, hheadUp, hheadDown⟩ := h
  have hc := isNaN_of_isFinite _ hcur
  have ht := isNaN_of_isFinite _ htgt
  obtain h | h | h : ch.rem.toNat = 0 ∨ ch.rem.toNat = 1 ∨ 2 ≤ ch.rem.toNat := by omega
  · rw [SmChannel.step_of_rem_eq_zero h]
    exact ⟨hcur, fun hpos => ⟨fle_self hc, hheadUp hpos⟩, fun hneg => ⟨fle_self hc, hheadDown hneg⟩⟩
  · rw [SmChannel.step_of_rem_eq_one h]
    exact ⟨htgt, fun hpos => ⟨hheadUp hpos, fle_self ht⟩, fun hneg => ⟨hheadDown hneg, fle_self ht⟩⟩
  · have ha := isNaN_of_isFinite _ hfin
    rw [SmChannel.step_of_two_le_rem h]
    simp only [fle_iff_orderKey hc ha, fle_iff_orderKey ha ht, fle_iff_orderKey ha hc, fle_iff_orderKey ht ha]
    exact ⟨hfin, hup, hdown⟩

end Sys2Proof.Machine
end

section
/-! PROOF. Ramps: they move towards their target and never pass it, and land on it exactly (43_smooth.md R209, R210). -/

namespace Sys2Proof.Machine

/-- Settles O48: SM.NEXT advances its channel once. -/
theorem rampIsMonotone : Obligations.RampIsMonotone := by
  unfold Obligations.RampIsMonotone
  intro c s t ch hch hinv h
  cases (exec_smNext hch).symm.trans h
  obtain ⟨-, hup, hdown⟩ := SmChannel.step_between hinv
  refine ⟨ch.step, List.getElem?_set_self (List.getElem?_eq_some_iff.1 hch).1, ?_, rfl, hup, hdown⟩
  rw [SmChannel.step_eq]

/-- A channel at rest stays as it is. -/
theorem SmChannel.iterate_step_of_rem_eq_zero {ch : SmChannel} (h : ch.rem.toNat = 0) (k : Nat) :
    SmChannel.step^[k] ch = ch :=
  Function.iterate_fixed (SmChannel.step_of_rem_eq_zero h) k

/-- As many advances as SM_REM counts, or more, end at the bits of SM_TGT. -/
theorem SmChannel.iterate_step_cur {ch : SmChannel} (k : Nat) (h1 : 1 ≤ ch.rem.toNat) (hk : ch.rem.toNat ≤ k) :
    (SmChannel.step^[k] ch).cur = ch.tgt := by
  induction k generalizing ch with
  | zero => omega
  | succ k ih =>
    rw [Function.iterate_succ_apply]
    obtain h | h : ch.rem.toNat = 1 ∨ 2 ≤ ch.rem.toNat := by omega
    · rw [SmChannel.step_of_rem_eq_one h, SmChannel.iterate_step_of_rem_eq_zero rfl]
    · have hrem : (BitVec.ofNat 32 (ch.rem.toNat - 1)).toNat = ch.rem.toNat - 1 := by
        rw [BitVec.toNat_ofNat, Nat.mod_eq_of_lt (by omega)]
      rw [SmChannel.step_of_two_le_rem h]
      exact ih (by simp only [hrem]; omega) (by simp only [hrem]; omega)

/-- Settles O47: the answers of SM.NEXT are SM_CUR after as many advances. -/
theorem rampLandsOnTarget : Obligations.RampLandsOnTarget := by
  unfold Obligations.RampLandsOnTarget
  intro c s ch m hch h1 j hj hjm
  rw [(runAll_smNext c s.opa m s ch hch).1, List.getElem?_map, List.getElem?_iterate _ _ _ _ hjm, Option.map_some,
    ← Function.iterate_succ_apply, SmChannel.iterate_step_cur (j + 1) h1 hj]

end Sys2Proof.Machine
end

section
/-! PROOF. Every step keeps the smoother channels' invariant (10_state.md R27, R28, 43_smooth.md R210). -/

namespace Sys2Proof.Machine

/-! ## The operations on a channel -/

/-- An advance. -/
theorem SmChannel.Inv.step {ch : SmChannel} (h : ch.Inv) : ch.step.Inv := by
  obtain ⟨hfin, hup, hdown⟩ := SmChannel.step_between h
  obtain ⟨hfs, hcur, htgt, hinc, hsteps, hrem, hrest, hhead⟩ := h
  obtain h | h | h : ch.rem.toNat = 0 ∨ ch.rem.toNat = 1 ∨ 2 ≤ ch.rem.toNat := by omega
  · rw [SmChannel.step_of_rem_eq_zero h]
    exact ⟨hfs, hcur, htgt, hinc, hsteps, hrem, hrest, hhead⟩
  · have ht := fle_self (isNaN_of_isFinite _ htgt)
    rw [SmChannel.step_of_rem_eq_one h]
    exact ⟨hfs, htgt, htgt, hinc, hsteps, Nat.zero_le _, fun _ => rfl, fun _ => ht, fun _ => ht⟩
  · rw [SmChannel.step_of_two_le_rem h] at hfin hup hdown ⊢
    have hrem' : (BitVec.ofNat 32 (ch.rem.toNat - 1)).toNat = ch.rem.toNat - 1 := by
      rw [BitVec.toNat_ofNat, Nat.mod_eq_of_lt (by omega)]
    refine ⟨hfs, hfin, htgt, hinc, hsteps, by simp only [hrem']; omega, fun h0 => ?_,
      fun hpos => (hup hpos).2, fun hneg => (hdown hneg).2⟩
    have : ch.rem.toNat - 1 = 0 := hrem'.symm.trans (congrArg BitVec.toNat h0)
    omega

/-- A step count of at least one is a positive binary64. -/
theorem f64OfNat_steps {n : BitVec 32} (h : 1 ≤ n.toNat) :
    isFinite (f64OfNat n.toNat) = true ∧ signBit (f64OfNat n.toNat) = false ∧ magBits (f64OfNat n.toNat) ≠ 0 := by
  obtain ⟨hu, hfin, hsign⟩ := units_f64OfNat n.toNat (by omega)
  refine ⟨hfin, hsign, fun h0 => ?_⟩
  rw [(units_eq_zero_iff _).2 h0] at hu
  have := Nat.mul_pos h unitsPerOne_pos
  omega

/-- A quotient by a positive finite value has the sign of its dividend, and is a zero when the dividend is. -/
theorem fdiv_heading {a b : F64} (ha : isNaN a = false) (hb : isFinite b = true) (hsign : signBit b = false)
    (hb0 : magBits b ≠ 0) :
    (flt Config.zero (fdiv a b) = true → 0 < orderKey a) ∧ (flt (fdiv a b) Config.zero = true → orderKey a < 0) := by
  have hzero := mt fun h => magBits_fdiv_zero (a := a) h hb hb0
  have hs : signBit (fdiv a b) = signBit a := by
    obtain h | ⟨mag, hmag, h⟩ := fdiv_cases a b
    · have := fdiv_by_finite ha hb hb0
      rw [h] at this
      cases this
    · rw [h, signBit_packBits _ _ (hmag.trans_lt infMag_lt), hsign]
      simp
  have hkey := flt_zero_left_iff a
  have hkey' := flt_zero_right_iff a
  rw [flt_iff_orderKey zero_not_nan ha, orderKey_zero] at hkey
  rw [flt_iff_orderKey ha zero_not_nan, orderKey_zero] at hkey'
  rw [flt_zero_left_iff, flt_zero_right_iff, hkey, hkey', hs]
  exact ⟨fun ⟨_, hsa, h0⟩ => ⟨ha, hsa, hzero h0⟩, fun ⟨_, hsa, h0⟩ => ⟨ha, hsa, hzero h0⟩⟩

/-- A ramp of at least one step to a finite target: its increment points from SM_CUR to the target. -/
theorem SmChannel.Inv.startRamp {ch : SmChannel} {v : F64} {n : BitVec 32} (h : ch.Inv) (hv : isFinite v = true)
    (hn : 1 ≤ n.toNat) : (ch.startRamp v n).Inv := by
  obtain ⟨hfs, hcur, -⟩ := h
  obtain ⟨hnfin, hnsign, hn0⟩ := f64OfNat_steps hn
  have hgap : isNaN (fsub v ch.cur) = false := fadd_finite_not_nan v _ hv ((isFinite_fneg _).trans hcur)
  obtain ⟨hpos, hneg⟩ := fdiv_heading hgap hnfin hnsign hn0
  obtain ⟨hle, hge⟩ := orderKey_le_of_fsub_pos hv hcur
  have hc := isNaN_of_isFinite _ hcur
  have ht := isNaN_of_isFinite _ hv
  refine ⟨hfs, hcur, hv, fdiv_by_finite hgap hnfin hn0, hn, le_rfl, fun h0 => ?_,
    fun h => (fle_iff_orderKey hc ht).2 (hle (hpos h)), fun h => (fle_iff_orderKey ht hc).2 (hge (hneg h))⟩
  have h0 : n = 0#32 := h0
  rw [h0] at hn
  exact absurd hn (by decide)

/-- A channel after reset. -/
theorem smInv_reset : SmChannel.reset.Inv := by decide

/-! ## The commands -/

/-- The channels of a state all meet their invariant. -/
def SmInv (s : State) : Prop := ∀ ch ∈ s.sm, ch.Inv

section
variable {s t : State} {c : BitVec 4} {op : BitVec 8}

theorem smInv_check {ok : Bool} {cause : Cause} (hs : SmInv s) (ht : ok = true → SmInv t) :
    SmInv (s.check ok cause op t) := by
  rcases check_cases s ok cause op t with ⟨hok, e⟩ | ⟨-, e⟩
  · rw [e]; exact ht hok
  · rw [e]; exact hs

/-- The channel a smoother command selects meets the invariant. -/
theorem smInv_withChannel {f : SmChannel → State} (hs : SmInv s) (h : ∀ ch, ch.Inv → SmInv (f ch)) :
    SmInv (s.withChannel c op f) := by
  rcases withChannel_cases s c op f with ⟨ch, hch, e⟩ | ⟨-, e⟩
  · rw [e]; exact h ch (hs ch (List.mem_of_getElem? hch))
  · rw [e]; exact hs

theorem smInv_setChannel {ch : SmChannel} (hs : SmInv s) (h : ch.Inv) : SmInv (s.setChannel c ch) := by
  intro d hd
  obtain hmem | rfl := List.mem_or_eq_of_mem_set hd
  · exact hs d hmem
  · exact h

end

/-- Every command keeps the channels' invariant. -/
theorem smInv_of_exec {i : Instr} {s t : State} (h : exec i s = .next t) (hs : SmInv s) : SmInv t := by
  by_cases hi : unitOf i = .sm
  case neg => rwa [SmInv, (footprint_of_exec h).sm hi]
  cases i with
  | smInit c =>
    cases h
    refine smInv_withChannel hs fun ch hch => smInv_check hs fun hfs => smInv_setChannel hs ?_
    obtain ⟨-, hrest⟩ := hch
    exact ⟨hfs, hrest⟩
  | smSetTime c =>
    cases h
    refine smInv_withChannel hs fun ch hch => smInv_check hs fun hok => smInv_setChannel hs ?_
    obtain ⟨-, -, hle⟩ := (ch.timeValid_iff _).1 hok
    have hcount := SmChannel.stepCount_toNat hle
    obtain ⟨-, -, htgt, -⟩ := id hch
    exact hch.startRamp htgt (by omega)
  | smSetTgt c =>
    cases h
    refine smInv_withChannel hs fun ch hch => smInv_check hs fun hok => smInv_setChannel hs ?_
    obtain ⟨-, -, -, -, hsteps, -⟩ := id hch
    exact hch.startRamp hok hsteps
  | smNext c => cases h; exact smInv_withChannel hs fun ch hch => smInv_setChannel (c := c) hs hch.step
  | smCur c => cases h; exact smInv_withChannel hs fun ch hch => hs
  | smNextBlk c n =>
    cases h
    refine smInv_withChannel hs fun ch hch => smInv_check hs fun _ => ?_
    obtain ⟨m, hloop, -⟩ := smoothElem_loop s.blockBase n.toNat s ch
    simp only [hloop]
    exact smInv_setChannel (s := { s with dmem := m }) hs
      (Function.Iterate.rec (fun ch : SmChannel => ch.Inv) hch (fun _ hc => hc.step) n.toNat)
  | _ => cases hi

/-- Settles O20: each command keeps the invariant of the channel it selects, reset starts it, and the number of channels
stays. -/
theorem stepKeepsSmootherInvariant : Obligations.StepKeepsSmootherInvariant := by
  unfold Obligations.StepKeepsSmootherInvariant
  intro s t ⟨hlen, hs⟩ h
  rw [params_of_step h]
  cases step_outcome h with
  | command i rest run => exact ⟨(footprint_of_exec run).channels.trans hlen, smInv_of_exec run hs⟩
  | reset rest _ next =>
    rw [next]
    refine ⟨List.length_replicate, fun ch hch => ?_⟩
    rw [List.eq_of_mem_replicate hch]
    exact smInv_reset
  | host _ _ _ sm _ =>
    rw [sm]
    exact ⟨hlen, hs⟩

end Sys2Proof.Machine
end

section
/-! PROOF. Sums, products and quotients are rounded to nearest, ties to even (00_scope.md R11). -/

namespace Sys2Proof.Machine

/-! ## Rounding a quotient to a whole number -/

/-- Everything the rounding to a whole number can do: down, when the remainder is at most half, or up, when it is at
least half; at half to the even one. -/
theorem roundNearestEven_cases (num den : Nat) :
    (roundNearestEven num den = num / den ∧ 2 * (num % den) ≤ den ∧
      (2 * (num % den) = den → num / den % 2 = 0)) ∨
    (roundNearestEven num den = num / den + 1 ∧ den ≤ 2 * (num % den) ∧
      (2 * (num % den) = den → num / den % 2 = 1)) := by
  unfold roundNearestEven
  simp only
  split_ifs <;> omega

/-- The whole number answered is a nearest one, and of two equally near the even one. -/
theorem roundNearestEven_nearest (num : Nat) {den : Nat} (hden : 0 < den) (z : Int) :
    |(num : Int) - den * roundNearestEven num den| ≤ |(num : Int) - den * z| ∧
    (|(num : Int) - den * roundNearestEven num den| = |(num : Int) - den * z| →
      den * z = den * (roundNearestEven num den : Int) ∨ roundNearestEven num den % 2 = 0) := by
  have hcases := roundNearestEven_cases num den
  have hdiv : (den : Int) * (num / den : Nat) + (num % den : Nat) = num := by exact_mod_cast Nat.div_add_mod num den
  have hlt := Nat.mod_lt num hden
  generalize num / den = q at *
  generalize num % den = r at *
  generalize roundNearestEven num den = a at *
  have hsucc : (den : Int) * ((q + 1 : Nat) : Int) = den * q + den := by push_cast; ring
  -- no whole number is between `q` and `q + 1`
  have hfar : (den : Int) * z ≤ den * q ∨ (den : Int) * q + den ≤ den * z := by
    obtain hz | hz : z ≤ q ∨ (q : Int) + 1 ≤ z := by omega
    · exact .inl (Int.mul_le_mul_of_nonneg_left hz (by omega))
    · refine .inr ?_
      rw [← hsucc]
      exact Int.mul_le_mul_of_nonneg_left (by omega) (by omega)
  generalize (den : Int) * z = dz at *
  simp only [abs_eq_max_neg]
  obtain ⟨rfl, hhalf, htie⟩ | ⟨rfl, hhalf, htie⟩ := hcases
  · generalize (den : Int) * a = dq at *
    exact ⟨by omega, fun h => by omega⟩
  · rw [hsucc]
    generalize (den : Int) * q = dq at *
    exact ⟨by omega, fun h => by omega⟩

/-! ## Rounding a quotient to a binary64 -/

/-- A rounding that is finite, as a significand and a scale. -/
theorem roundMag_finite {num den : Nat} (h : roundMag num den < infMag) :
    ∃ k f, f = roundNearestEven num (den * 2 ^ k) ∧ (k = 0 ∨ 2 ^ (52 + k) ≤ num / den) ∧
      roundMag num den = k * 2 ^ 52 + f ∧ magUnitsOf (roundMag num den) = f * 2 ^ k := by
  obtain ⟨hhi, hlo⟩ := log2_bounds (num / den)
  have hval : roundMag num den = (Nat.log2 (num / den) - 52) * 2 ^ 52 +
      roundNearestEven num (den * 2 ^ (Nat.log2 (num / den) - 52)) := by
    unfold roundMag at h ⊢
    simp only at h ⊢
    omega
  refine ⟨_, _, rfl, hlo, hval, ?_⟩
  rw [hval]
  generalize Nat.log2 (num / den) - 52 = k at *
  have hle := significand_le num den k hhi
  obtain hf | hf := Nat.lt_or_ge (roundNearestEven num (den * 2 ^ k)) (2 ^ 52)
  · obtain rfl | hk := hlo
    · rw [Nat.zero_mul, Nat.zero_add, Nat.pow_zero, Nat.mul_one, Nat.mul_one, magUnitsOf_subnormal]
      simpa using hf
    · exact absurd (significand_ge num den k hk) (Nat.not_le_of_lt hf)
  · exact magUnitsOf_scaled k _ hf hle

/-- A binary64 is a multiple of the scale, or below every value with 53 bits at that scale. -/
theorem magUnitsOf_dvd_or_lt (k m : Nat) : 2 ^ k ∣ magUnitsOf m ∨ magUnitsOf m < 2 ^ (52 + k) := by
  obtain hm | hm := Nat.lt_or_ge m (2 ^ 52)
  · rw [magUnitsOf_subnormal m hm]
    exact .inr (hm.trans_le (Nat.pow_le_pow_right (by decide) (Nat.le_add_right 52 k)))
  · rw [magUnitsOf_normal m hm]
    obtain he | he := Nat.lt_or_ge (m / 2 ^ 52 - 1) k
    · refine .inr ?_
      calc (2 ^ 52 + m % 2 ^ 52) * 2 ^ (m / 2 ^ 52 - 1) < 2 ^ 53 * 2 ^ (m / 2 ^ 52 - 1) :=
            Nat.mul_lt_mul_of_pos_right (by omega) (Nat.two_pow_pos _)
        _ = 2 ^ (53 + (m / 2 ^ 52 - 1)) := (Nat.pow_add ..).symm
        _ ≤ 2 ^ (52 + k) := Nat.pow_le_pow_right (by decide) (by omega)
    · exact .inl ((Nat.pow_dvd_pow 2 he).mul_left _)

/-- A finite rounding is a binary64 nearest to the quotient, and of two equally near the one with an even last bit. -/
theorem roundMag_nearest {num den : Nat} (hden : 0 < den) (h : roundMag num den < infMag) (m : Nat) :
    |(num : Int) - den * magUnitsOf (roundMag num den)| ≤ |(num : Int) - den * magUnitsOf m| ∧
    (|(num : Int) - den * magUnitsOf (roundMag num den)| = |(num : Int) - den * magUnitsOf m| →
      magUnitsOf m = magUnitsOf (roundMag num den) ∨ roundMag num den % 2 = 0) := by
  obtain ⟨k, f, hf, hk, hval, hu⟩ := roundMag_finite h
  have hnear := roundNearestEven_nearest num (Nat.mul_pos hden (Nat.two_pow_pos k))
  have hscale (z : Nat) : ((den * 2 ^ k : Nat) : Int) * (z : Int) = den * ((z * 2 ^ k : Nat) : Int) := by
    push_cast; ring
  rw [hu, hval]
  rw [← hf, hscale] at hnear
  obtain ⟨z, hz⟩ | ⟨hlt, hk⟩ : 2 ^ k ∣ magUnitsOf m ∨ magUnitsOf m < 2 ^ (52 + k) ∧ 2 ^ (52 + k) ≤ num / den := by
    obtain rfl | hk := hk
    · exact .inl (by rw [Nat.pow_zero]; exact one_dvd _)
    · exact (magUnitsOf_dvd_or_lt k m).imp_right fun hlt => ⟨hlt, hk⟩
  · obtain ⟨hle, htie⟩ := hnear z
    rw [hscale, Nat.mul_comm z, ← hz] at hle htie
    refine ⟨hle, fun heq => (htie heq).imp (fun he => ?_) fun he => by omega⟩
    exact Nat.eq_of_mul_eq_mul_left hden (by exact_mod_cast he)
  · have hfar : den * magUnitsOf m < den * (2 ^ 52 * 2 ^ k) := by
      rw [← Nat.pow_add]
      exact Nat.mul_lt_mul_of_pos_left hlt hden
    have hbelow : den * (2 ^ 52 * 2 ^ k) ≤ num := by
      rw [← Nat.pow_add, Nat.mul_comm]
      exact (Nat.le_div_iff_mul_le hden).1 hk
    obtain ⟨hle, -⟩ := hnear (2 ^ 52 : Nat)
    rw [hscale] at hle
    have hstrict : |(num : Int) - den * ((f * 2 ^ k : Nat) : Int)| < |(num : Int) - den * magUnitsOf m| := by
      refine hle.trans_lt ?_
      rw [← Int.natCast_mul, ← Int.natCast_mul, abs_of_nonneg (by omega), abs_of_nonneg (by omega)]
      omega
    exact ⟨hstrict.le, fun heq => absurd heq hstrict.ne⟩

/-! ## With signs -/

/-- What is at least as near as zero to a number not below zero is at least as near as any number below zero, and nearer
than any other than zero. -/
theorem abs_sub_le_abs_sub_neg {n dy dr : Int} (hn : 0 ≤ n) (hy : 0 ≤ dy) (hle0 : |n - dr| ≤ |n|) :
    |n - dr| ≤ |n - -dy| ∧ (|n - dr| = |n - -dy| → dy = 0) := by
  simp only [abs_eq_max_neg] at *
  exact ⟨by omega, fun heq => by omega⟩

/-- A number not below zero: a value of the other sign is no nearer than its absolute value. -/
theorem roundMag_nearest_units {num den : Nat} (hden : 0 < den) (h : roundMag num den < infMag) (y : F64) :
    |(num : Int) - den * magUnitsOf (roundMag num den)| ≤ |(num : Int) - den * units y| ∧
    (|(num : Int) - den * magUnitsOf (roundMag num den)| = |(num : Int) - den * units y| →
      units y = magUnitsOf (roundMag num den) ∨ roundMag num den % 2 = 0) := by
  obtain ⟨hle, htie⟩ := roundMag_nearest hden h (magBits y)
  rw [← magUnits_eq] at hle htie
  unfold units
  cases signBit y with
  | false =>
    simp only [Bool.false_eq_true, if_false]
    exact ⟨hle, fun heq => (htie heq).imp_left fun he => by rw [he]⟩
  | true =>
    obtain ⟨hle0, -⟩ := roundMag_nearest hden h 0
    rw [(magUnitsOf_eq_zero_iff 0).2 rfl, Int.natCast_zero, Int.mul_zero, Int.sub_zero] at hle0
    obtain ⟨hfar, hzero⟩ := abs_sub_le_abs_sub_neg (Int.natCast_nonneg num)
      (Int.mul_nonneg (Int.natCast_nonneg den) (Int.natCast_nonneg (magUnits y))) hle0
    simp only [if_true, Int.mul_neg]
    refine ⟨hfar, fun heq => ?_⟩
    have hy : magUnits y = 0 := by
      have := (Int.mul_eq_zero.1 (hzero heq)).resolve_left (by omega)
      exact_mod_cast this
    rw [hy, Int.natCast_zero, Int.mul_zero, Int.neg_zero] at heq
    rw [hy, Int.natCast_zero, Int.mul_zero] at htie
    refine (htie heq).imp_left fun he => ?_
    rw [hy, ← he]
    rfl

theorem units_packBits_true {mag : Nat} (h : mag < 2 ^ 63) : units (packBits true mag) = -(magUnitsOf mag : Int) := by
  rw [units, signBit_packBits true mag h, magUnits_packBits true mag h]
  rfl

/-- The answer `r` of an operation whose exact result is `num / den` units is a nearest binary64, and of two equally
near the one with an even last bit. -/
def IsNearest (num : Int) (den : Int) (r : F64) : Prop :=
  ∀ y : F64, |num - den * units r| ≤ |num - den * units y| ∧
    (|num - den * units r| = |num - den * units y| → units y = units r ∨ magBits r % 2 = 0)

/-- The packed rounding of a number with its sign is nearest. -/
theorem isNearest_packBits {num : Int} {den : Nat} {neg : Bool} (hden : 0 < den)
    (hsign : num = if neg = true then -(num.natAbs : Int) else num.natAbs)
    (h : isFinite (packBits neg (roundMag num.natAbs den)) = true) :
    IsNearest num den (packBits neg (roundMag num.natAbs den)) := by
  have hlt := roundMag_lt num.natAbs den
  rw [isFinite_iff, magBits_packBits _ _ hlt] at h
  intro y
  rw [magBits_packBits _ _ hlt]
  cases neg with
  | false =>
    rw [units_packBits_false _ hlt, show num = num.natAbs from hsign]
    exact roundMag_nearest_units hden h y
  | true =>
    obtain ⟨hle, htie⟩ := roundMag_nearest_units hden h (fneg y)
    have hflip (u : Int) : |num - den * -u| = |(num.natAbs : Int) - den * u| := by
      rw [show num = -(num.natAbs : Int) from hsign, ← abs_neg, Int.natAbs_neg, Int.natAbs_natCast]
      exact congrArg abs (by ring)
    have hy : units y = -units (fneg y) := by rw [units_fneg, Int.neg_neg]
    rw [units_packBits_true hlt, hy, hflip, hflip]
    exact ⟨hle, fun heq => (htie heq).imp_left fun he => by rw [he]⟩

/-- A number with its sign changed, or as it is. -/
def signed (neg : Bool) (z : Int) : Int := if neg then -z else z

theorem natAbs_signed (neg : Bool) (z : Int) : (signed neg z).natAbs = z.natAbs := by
  cases neg <;> simp [signed]

/-! ## The operations -/

theorem isNearest_fadd {a b : F64} (ha : isFinite a = true) (hb : isFinite b = true)
    (h : isFinite (fadd a b) = true) : IsNearest (units a + units b) 1 (fadd a b) := by
  rw [fadd_finite a b ha hb] at h ⊢
  have hpack (neg : Bool) := isNearest_packBits (num := units a + units b) (den := 1) (neg := neg) Nat.one_pos
  split at h
  case isTrue h0 =>
    have hr := hpack (signBit a && signBit b)
    rw [h0, Int.natAbs_zero, roundMag_zero] at hr
    rw [if_pos h0, h0]
    exact hr (by simp) h
  case isFalse h0 =>
    rw [if_neg h0]
    refine hpack _ ?_ h
    simp only [decide_eq_true_eq]
    split <;> omega

theorem isNearest_fmul {a b : F64} (ha : isFinite a = true) (hb : isFinite b = true)
    (h : isFinite (fmul a b) = true) : IsNearest (units a * units b) unitsPerOne (fmul a b) := by
  have habs : (units a * units b).natAbs = magUnits a * magUnits b := by
    rw [Int.natAbs_mul, natAbs_units, natAbs_units]
  rw [fmul_finite ha hb, ← habs] at h ⊢
  refine isNearest_packBits unitsPerOne_pos ?_ h
  rw [habs, units, units]
  cases signBit a <;> cases signBit b <;> simp

theorem isNearest_fdiv {a b : F64} (ha : isFinite a = true) (hb : isFinite b = true) (hb0 : units b ≠ 0)
    (h : isFinite (fdiv a b) = true) : IsNearest (units a * unitsPerOne) (units b) (fdiv a b) := by
  have hmb : magBits b ≠ 0 := mt (units_eq_zero_iff b).2 hb0
  have hden : 0 < magUnits b := Nat.pos_of_ne_zero (mt (magUnits_eq_zero_iff b).1 hmb)
  rw [fdiv_finite ha hb hmb] at h ⊢
  generalize unitsPerOne = one at *
  -- with the sign of the divisor moved to the dividend, the denominator is positive
  have habs : (signed (signBit b) (units a * one)).natAbs = magUnits a * one := by
    rw [natAbs_signed, Int.natAbs_mul, natAbs_units, Int.natAbs_natCast]
  rw [← habs] at h ⊢
  have hnear : IsNearest (signed (signBit b) (units a * one)) (magUnits b) _ := isNearest_packBits hden ?_ h
  case refine_1 =>
    rw [habs, signed, units]
    cases signBit a <;> cases signBit b <;> simp
  have hflip (u : Int) : |units a * one - units b * u| = |signed (signBit b) (units a * one) - magUnits b * u| := by
    rw [signed, show units b = if signBit b then -(magUnits b : Int) else magUnits b from rfl]
    cases signBit b with
    | false => rfl
    | true =>
      rw [← abs_neg]
      exact congrArg abs (by simp only [if_true]; ring)
  intro y
  rw [hflip, hflip]
  exact hnear y

/-- Settles O49: each operation packs the rounding of its exact result, with the sign of that result. -/
theorem arithmeticRoundsToNearestEven : Obligations.ArithmeticRoundsToNearestEven := by
  unfold Obligations.ArithmeticRoundsToNearestEven
  intro a b y ha hb _
  refine ⟨fun h => ?_, fun h => isNearest_fmul ha hb h y, fun hb0 h => isNearest_fdiv ha hb hb0 h y⟩
  simpa only [Int.one_mul] using isNearest_fadd ha hb h y

end Sys2Proof.Machine
end

section
/-! SUPPORT. The words a block command reads, in order: a listed word is what it lists, and each word that no write has
reached draws the next free value (20_memory.md R62, R72). -/

namespace Sys2Proof.Machine

/-- How many free values have been drawn when the first `k` words of the block at `a` have been read from `s`. -/
def State.drawsBefore (s : State) (a : Nat) : Nat → Nat
  | 0 => s.draws
  | k + 1 => s.drawsBefore a k + if cellGet s.dmem (a + k) = none then 1 else 0

/-- What element `i` of the block at `a` reads when the elements before it have been read from `s`. -/
def State.blockWord (s : State) (a i : Nat) : Word :=
  (cellGet s.dmem (a + i)).getD (Config.dmemDraw (s.drawsBefore a i))

theorem blockWord_of_listed {s : State} {a i : Nat} {v : Word} (h : cellGet s.dmem (a + i) = some v) :
    s.blockWord a i = v := by
  rw [State.blockWord, h]
  rfl

/-- Element `i` is read in a state that still lists its word as `s` does and has drawn for the elements before it. -/
theorem memRead_block {s t : State} {a i : Nat} (hd : cellGet t.dmem (a + i) = cellGet s.dmem (a + i))
    (hn : t.draws = s.drawsBefore a i) :
    t.memRead (a + i) = (s.blockWord a i, { t with draws := s.drawsBefore a (i + 1) }) := by
  rcases memRead_cases t (a + i) with ⟨v, hv, h⟩ | ⟨hv, h⟩
  · rw [hd] at hv
    have hsame : s.drawsBefore a (i + 1) = t.draws := by simp [State.drawsBefore, hv, hn]
    rw [h, blockWord_of_listed hv, hsame]
  · rw [hd] at hv
    simp [h, State.blockWord, State.drawsBefore, hv, hn]

/-- Two loops of one length whose elements keep a relation keep it. -/
theorem blockLoop_related {σ τ : Type} (R : σ → τ → Prop) (f : Nat → σ → σ) (g : Nat → τ → τ)
    (h : ∀ i x y, R x y → R (f i x) (g i y)) (n i : Nat) (x : σ) (y : τ) (hxy : R x y) :
    R (blockLoop f n i x) (blockLoop g n i y) := by
  induction n generalizing i x y with
  | zero => exact hxy
  | succ n ih => exact ih (i + 1) _ _ (h i x y hxy)

end Sys2Proof.Machine
end

section
/-! PROOF. CB.PUSHBLK (40_cbuf.md R105). -/

namespace Sys2Proof.Machine

/-- Indices closer together than the capacity stay apart in the buffer. -/
theorem mod_ne_mod_of_lt {i j cap : Nat} (hij : i < j) (hj : j < i + cap) : i % cap ≠ j % cap := by
  intro h
  have hdvd := Nat.dvd_of_mod_eq_zero (Nat.sub_mod_eq_zero_of_mod_eq h.symm)
  exact absurd (Nat.le_of_dvd (by omega) hdvd) (by omega)

/-- The buffer after the pushes of `v 0` to `v (n - 1)`. -/
def CbUnit.pushes (u : CbUnit) (v : Nat → Word) (n : Nat) : CbUnit := blockLoop (fun i u => u.push (v i)) n 0 u

theorem pushes_succ (u : CbUnit) (v : Nat → Word) (n : Nat) : u.pushes v (n + 1) = (u.pushes v n).push (v n) := by
  rw [CbUnit.pushes, blockLoop_succ, Nat.zero_add]
  rfl

/-- Pushes move the write cursor and write the words it passes; the last CB_CAP of them stay, in order. -/
theorem pushes_spec (u : CbUnit) (v : Nat → Word) (n : Nat) (hpow : IsPow2 u.cap) (hwc : u.wc < u.cap)
    (hr : Rising u.store) :
    ∃ m, u.pushes v n = { u with wc := (u.wc + n) % u.cap, store := m } ∧ Rising m ∧
      (∀ i, i < n → n ≤ i + u.cap → storeRead m ((u.wc + 1 + i) % u.cap) = v i) ∧
      (∀ j, (∀ i, i < n → j ≠ (u.wc + 1 + i) % u.cap) → storeRead m j = storeRead u.store j) := by
  induction n with
  | zero =>
    refine ⟨u.store, ?_, hr, fun _ hi => absurd hi (Nat.not_lt_zero _), fun _ _ => rfl⟩
    rw [Nat.add_zero, Nat.mod_eq_of_lt hwc]
    rfl
  | succ n ih =>
    obtain ⟨m, hpush, hm, hlast, hother⟩ := ih
    have hidx : adv u.cap ((u.wc + n) % u.cap) = (u.wc + 1 + n) % u.cap := by
      rw [adv_add_mod _ _ _ hpow]; congr 1; omega
    refine ⟨storeWrite m ((u.wc + 1 + n) % u.cap) (v n), ?_, rising_storeWrite _ _ _ hm, fun i hi hn => ?_,
      fun j hj => ?_⟩
    · rw [pushes_succ, hpush]
      simp only [CbUnit.push, hidx]
      congr 2; omega
    · rw [storeRead_storeWrite _ _ _ _ hm]
      obtain hlt | rfl := Nat.lt_succ_iff_lt_or_eq.1 hi
      · rw [if_neg (mod_ne_mod_of_lt (by omega) (by omega)), hlast i hlt (by omega)]
      · rw [if_pos rfl]
    · rw [storeRead_storeWrite _ _ _ _ hm, if_neg (hj n (Nat.lt_succ_self n)),
        hother j fun i hi => hj i (Nat.lt_succ_of_lt hi)]

/-- The loop of CB.PUSHBLK pushes the words of the block. -/
theorem pushElem_loop (a n : Nat) (s : State) : blockLoop (pushElem a) n 0 s =
    { s with cb := s.cb.pushes (s.blockWord a) n, draws := s.drawsBefore a n } := by
  induction n with
  | zero => rfl
  | succ n ih =>
    have hread := memRead_block (s := s) (a := a) (i := n)
      (t := { s with cb := s.cb.pushes (s.blockWord a) n, draws := s.drawsBefore a n }) rfl rfl
    rw [blockLoop_succ, ih, Nat.zero_add, pushElem, hread, pushes_succ]

theorem exec_cbPushBlk {n : BitVec 20} {s : State} (h : s.opb.toNat + n.toNat ≤ s.params.dmemWords) :
    exec (.cbPushBlk n) s = .next { s with
      cb := s.cb.pushes (s.blockWord s.opb.toNat) n.toNat, draws := s.drawsBefore s.opb.toNat n.toNat } :=
  congrArg Host.Outcome.next ((check_block_pass h).trans (pushElem_loop ..))

/-- Settles O25: the block check, then the pushes of the words of the block. -/
theorem cbPushBlkResult : Obligations.CbPushBlkResult := by
  unfold Obligations.CbPushBlkResult
  refine fun n s => ⟨fun h => congrArg Host.Outcome.next (check_block_fail h), fun hfit hinv => ?_⟩
  obtain ⟨hpow, _, hwc, _, hrising, _⟩ := hinv
  obtain ⟨m, hpush, -, hlast, hother⟩ := pushes_spec s.cb (s.blockWord s.opb.toNat) n.toNat hpow hwc hrising
  have hexec := exec_cbPushBlk hfit
  rw [hpush] at hexec
  exact ⟨_, hexec, rfl, fun i v hi hn hv => (hlast i hi hn).trans (blockWord_of_listed hv), hother⟩

end Sys2Proof.Machine
end

section
/-! PROOF. CB.PULLBLKADD (40_cbuf.md R108). -/

namespace Sys2Proof.Machine

/-- The loop of `n` additions: the read cursor has advanced `n` times, and the block holds the sums of its words and the
samples it passed. -/
theorem pullAddElem_loop (a n : Nat) (s : State) (hpow : IsPow2 s.cb.cap) (hrc : s.cb.rc < s.cb.cap) :
    ∃ m, blockLoop (pullAddElem a) n 0 s =
        { s with cb := { s.cb with rc := (s.cb.rc + n) % s.cb.cap }, dmem := m, draws := s.drawsBefore a n } ∧
      BlockWritten s.dmem a n
        (fun i => fadd (s.blockWord a i) (storeRead s.cb.store ((s.cb.rc + 1 + i) % s.cb.cap))) m := by
  induction n with
  | zero =>
    refine ⟨s.dmem, ?_, blockWritten_zero ..⟩
    rw [Nat.add_zero, Nat.mod_eq_of_lt hrc]
    rfl
  | succ n ih =>
    obtain ⟨m, hloop, hm⟩ := ih
    refine ⟨_, ?_, hm.succ⟩
    have hsame : cellGet m (a + n) = cellGet s.dmem (a + n) := hm.2 _ (.inr le_rfl)
    have hrd : s.cb.rc + 1 + n = s.cb.rc + (n + 1) := by omega
    rw [blockLoop_succ, hloop, Nat.zero_add, pullAddElem, memRead_block (s := s) hsame rfl, hrd,
      ← adv_add_mod s.cb.cap s.cb.rc n hpow]
    rfl

/-- Settles O28: the block check, then the loop of additions. -/
theorem cbPullBlkAddResult : Obligations.CbPullBlkAddResult := by
  unfold Obligations.CbPullBlkAddResult
  refine fun n s => ⟨fun h => congrArg Host.Outcome.next (check_block_fail h), fun hfit hinv => ?_⟩
  obtain ⟨hpow, _, _, hrc, _⟩ := hinv
  obtain ⟨m, hloop, hin, hout⟩ := pullAddElem_loop s.opb.toNat n.toNat s hpow hrc
  exact ⟨_, congrArg Host.Outcome.next ((check_block_pass hfit).trans hloop), rfl,
    fun i hi => ⟨s.blockWord s.opb.toNat i, fun v => blockWord_of_listed, hin i hi⟩, hout⟩

end Sys2Proof.Machine
end

section
/-! PROOF. CB.MODDLYBLK and CB.MODDLYBLKD (40_cbuf.md R111, R112). -/

namespace Sys2Proof.Machine

/-- The storage after the words from index `p % cap` on, in order and round the end, have been multiplied by `v 0` to
`v (n - 1)`. -/
def modulated (cap p : Nat) (v : Nat → Word) (n : Nat) (store : List WordCell) : List WordCell :=
  blockLoop (fun i st => storeWrite st ((p + i) % cap) (fmul (storeRead st ((p + i) % cap)) (v i))) n 0 store

theorem modulated_succ (cap p : Nat) (v : Nat → Word) (n : Nat) (store : List WordCell) :
    modulated cap p v (n + 1) store = storeWrite (modulated cap p v n store) ((p + n) % cap)
      (fmul (storeRead (modulated cap p v n store) ((p + n) % cap)) (v n)) := by
  rw [modulated, blockLoop_succ, Nat.zero_add]
  rfl

/-- The word at index `j`, multiplied at each of its visits. -/
def modulatedWord (cap p : Nat) (v : Nat → Word) (n j : Nat) (x : Word) : Word :=
  blockLoop (fun i acc => if j = (p + i) % cap then fmul acc (v i) else acc) n 0 x

theorem storeRead_modulated (cap p : Nat) (v : Nat → Word) (n j : Nat) (store : List WordCell) (h : Rising store) :
    storeRead (modulated cap p v n store) j = modulatedWord cap p v n j (storeRead store j) := by
  refine (blockLoop_related (fun st acc => Rising st ∧ storeRead st j = acc) _ _ ?_ n 0 store _ ⟨h, rfl⟩).2
  rintro i st acc ⟨hst, rfl⟩
  refine ⟨rising_storeWrite _ _ _ hst, ?_⟩
  rw [storeRead_storeWrite _ _ _ _ hst]
  split
  · next hj => rw [hj]
  · rfl

/-- A word that is not visited stays. -/
theorem modulatedWord_of_not_visited {cap p n j : Nat} {v : Nat → Word} {x : Word}
    (h : ∀ i, i < n → j ≠ (p + i) % cap) : modulatedWord cap p v n j x = x :=
  blockLoop_induct (fun _ acc => acc = x) _ n x rfl fun i _ hi hacc => (if_neg (h i hi)).trans hacc

/-- The products over a list of factors. -/
theorem modulatedWord_eq_foldl {cap p j : Nat} {v : Nat → Word} (xs : List Word) (x : Word)
    (h : ∀ (i : Nat) (w : Word), xs[i]? = some w → v i = w) :
    modulatedWord cap p v xs.length j x =
      xs.zipIdx.foldl (fun acc q => if j = (p + q.2) % cap then fmul acc q.1 else acc) x := by
  induction xs using List.reverseRecOn with
  | nil => rfl
  | append_singleton xs w ih =>
    have hw : v xs.length = w := h _ _ (by simp)
    have hxs := ih fun i u hu => h i u <| by
      rw [List.getElem?_append_left (List.getElem?_eq_some_iff.1 hu).1, hu]
    rw [List.zipIdx_append, List.foldl_append, ← hxs, List.length_append, List.length_singleton, modulatedWord,
      blockLoop_succ, Nat.zero_add, hw]
    simp [modulatedWord]

/-- The loop of `n` modulations from index `p % cap` on: the pointer has advanced `n` times. -/
theorem modulateElem_loop (a n p : Nat) (s : State) (hpow : IsPow2 s.cb.cap) :
    blockLoop (modulateElem a s.cb.cap) n 0 (s, p % s.cb.cap) =
      ({ s with
          cb := { s.cb with store := modulated s.cb.cap p (s.blockWord a) n s.cb.store }
          draws := s.drawsBefore a n }, (p + n) % s.cb.cap) := by
  induction n with
  | zero => rfl
  | succ n ih =>
    have hread := memRead_block (s := s) (a := a) (i := n) (t := { s with
      cb := { s.cb with store := modulated s.cb.cap p (s.blockWord a) n s.cb.store }
      draws := s.drawsBefore a n }) rfl rfl
    rw [blockLoop_succ, ih, Nat.zero_add, modulateElem, hread, modulated_succ, ← adv_add_mod s.cb.cap p n hpow]

/-- The modulation from a delay inside the line. -/
theorem modulate_of_inRange (op : BitVec 8) {n : BitVec 20} {s : State} {dl : Nat}
    (hfit : s.opb.toNat + n.toNat ≤ s.params.dmemWords) (hpow : IsPow2 s.cb.cap) (hw : s.cb.wc < s.cb.cap)
    (hdl : dl < s.cb.cap) (hopa : s.opa.toInt = (dl : Int)) :
    modulate op n s = { s with
      cb := { s.cb with
        store := modulated s.cb.cap (s.cb.wc + s.cb.cap - dl) (s.blockWord s.opb.toNat) n.toNat s.cb.store }
      draws := s.drawsBefore s.opb.toNat n.toNat } := by
  have hoff : s.opaInt.toNat = dl := by rw [State.opaInt, hopa, Int.toNat_natCast]
  have hloop := modulateElem_loop s.opb.toNat n.toNat (s.cb.wc + s.cb.cap - dl) s hpow
  rw [← didx_eq_mod s.cb.wc dl s.cb.cap hw hdl.le, ← hoff] at hloop
  rw [← hoff]
  exact (check_block_pass hfit).trans ((check_delay_pass hdl hopa).trans (congrArg Prod.fst hloop))

/-- Settles O30: the two commands are one modulation; its checks, then its products in order. -/
theorem cbModulateResult : Obligations.CbModulateResult := by
  unfold Obligations.CbModulateResult
  refine fun n s => ⟨fun h => ?_, fun hfit => ⟨fun hd => ?_, fun dl hinv hdl hopa => ?_⟩⟩
  · exact ⟨congrArg Host.Outcome.next (check_block_fail h), congrArg Host.Outcome.next (check_block_fail h)⟩
  · exact ⟨congrArg Host.Outcome.next ((check_block_pass hfit).trans (check_delay_fail hd)),
      congrArg Host.Outcome.next ((check_block_pass hfit).trans (check_delay_fail hd))⟩
  · obtain ⟨hpow, _, hwc, _, hrising, _⟩ := hinv
    refine ⟨_, congrArg Host.Outcome.next (modulate_of_inRange 0x0A#8 hfit hpow hwc hdl hopa),
      congrArg Host.Outcome.next (modulate_of_inRange 0x0B#8 hfit hpow hwc hdl hopa), rfl,
      fun xs hlen hxs j => ?_, fun j hj => ?_⟩
    · rw [storeRead_modulated _ _ _ _ _ _ hrising, ← hlen]
      exact modulatedWord_eq_foldl xs _ fun i w hw => blockWord_of_listed (hxs i w hw)
    · rw [storeRead_modulated _ _ _ _ _ _ hrising, modulatedWord_of_not_visited hj]

end Sys2Proof.Machine
end

section
/-! PROOF. With an integral delay the interpolating read is the integer read (41_interp.md R146). -/

namespace Sys2Proof.Machine

/-- The two loops write the same words when the fraction is a zero and their pointers start together. -/
theorem interpElem_loop_dmem {a cap n p q : Nat} {frac : F64} {s t : State} (hfrac : feq frac Config.zero = true)
    (hcb : s.cb = t.cb) (hd : s.dmem = t.dmem) :
    (blockLoop (interpElem a cap frac) n 0 (s, { lower := p, higher := q })).1.dmem =
      (blockLoop (pullDelayElem a cap) n 0 (t, p)).1.dmem := by
  refine (blockLoop_related (fun (x : State × Streams) (y : State × Nat) =>
    x.1.cb = y.1.cb ∧ x.1.dmem = y.1.dmem ∧ x.2.lower = y.2) _ _ ?_ n 0 _ _ ⟨hcb, hd, rfl⟩).2.1
  rintro i ⟨x, ps⟩ ⟨y, p⟩ ⟨hcb, hd, rfl⟩
  refine ⟨hcb, ?_, rfl⟩
  have hcb : x.cb = y.cb := hcb
  have hd : x.dmem = y.dmem := hd
  simp only [interpElem, pullDelayElem, if_pos hfrac, memWrite_dmem, hcb, hd]

/-- A whole number below 2^63 read back from its word as an integer. -/
theorem toInt_ofNat_of_lt {n : Nat} (h : n < 2 ^ 63) : (BitVec.ofNat 64 n).toInt = (n : Int) := by
  have hn : (BitVec.ofNat 64 n).toNat = n := by rw [BitVec.toNat_ofNat, Nat.mod_eq_of_lt (by omega)]
  rw [BitVec.toInt_eq_toNat_of_lt (by omega), hn]

/-- Settles O33: both reads start at the index of the delay's integer part and read one sample an element. -/
theorem integralDelayReducesToIntegerRead : Obligations.IntegralDelayReducesToIntegerRead := by
  unfold Obligations.IntegralDelayReducesToIntegerRead
  intro n s d hinv hp hfit h0 hlt hfrac
  have hcap := cap_lt_two_pow_53 hp hinv
  have hlo := splitLo_lt hcap h0 hlt
  obtain ⟨_, _, hwc, _⟩ := hinv
  refine ⟨_, _, exec_cbPullDlyBlkI_of_inRange n { s with opa := d } hfit h0 hlt,
    exec_cbPullDlyBlk_of_inRange n { s with opa := BitVec.ofNat 64 (splitLo d) } (splitLo d) hfit hwc hlo
      (toInt_ofNat_of_lt (by omega)), ?_⟩
  rw [interpBlock, didx_eq_mod s.cb.wc (splitLo d) s.cb.cap hwc hlo.le]
  exact interpElem_loop_dmem hfrac rfl rfl

end Sys2Proof.Machine
end

section
/-! PROOF. CF.PROCBLK completes over every block inside DMEM (42_comb.md R165). -/

namespace Sys2Proof.Machine

/-- The comb after the inputs `x 0` to `x (n - 1)`. -/
def CfUnit.steps (u : CfUnit) (x : Nat → Word) (n : Nat) : CfUnit := blockLoop (fun i u => (u.step (x i)).2) n 0 u

/-- The output of the comb for the input `x i`, after the inputs before it. -/
def CfUnit.response (u : CfUnit) (x : Nat → Word) (i : Nat) : Word := ((u.steps x i).step (x i)).1

theorem steps_succ (u : CfUnit) (x : Nat → Word) (n : Nat) : u.steps x (n + 1) = ((u.steps x n).step (x n)).2 := by
  rw [CfUnit.steps, blockLoop_succ, Nat.zero_add]
  rfl

/-- Steps move the write cursor and write the storage; the rest of the comb stays. -/
theorem steps_eq (u : CfUnit) (x : Nat → Word) (n : Nat) (hpow : IsPow2 u.cap) (hwc : u.wc < u.cap) :
    u.steps x n = { u with wc := (u.wc + n) % u.cap, store := (u.steps x n).store } := by
  induction n with
  | zero =>
    rw [Nat.add_zero, Nat.mod_eq_of_lt hwc]
    rfl
  | succ n ih =>
    have hcap : (u.steps x n).cap = u.cap := by rw [ih]
    have hmod : ((u.steps x n).wc + 1) % (u.steps x n).cap = (u.wc + (n + 1)) % u.cap := by
      rw [ih]; exact Nat.mod_add_mod ..
    rw [steps_succ, CfUnit.step_unit _ _ (by rw [hcap]; exact hpow), hmod, ih]

/-- The loop of CF.PROCBLK feeds the words of the block to the comb and leaves the outputs in their place. -/
theorem procElem_loop_blockWord (a n : Nat) (s : State) :
    ∃ m, blockLoop (procElem a) n 0 s =
        { s with cf := s.cf.steps (s.blockWord a) n, dmem := m, draws := s.drawsBefore a n } ∧
      BlockWritten s.dmem a n (s.cf.response (s.blockWord a)) m := by
  induction n with
  | zero => exact ⟨s.dmem, rfl, blockWritten_zero ..⟩
  | succ n ih =>
    obtain ⟨m, hloop, hm⟩ := ih
    refine ⟨_, ?_, hm.succ⟩
    have hsame : cellGet m (a + n) = cellGet s.dmem (a + n) := hm.2 _ (.inr le_rfl)
    rw [blockLoop_succ, hloop, Nat.zero_add, procElem, memRead_block (s := s) hsame rfl, steps_succ]
    rfl

/-- Settles O36: the loop reads a written word or a free value, and writes every word of the block. -/
theorem cfProcBlkCompletes : Obligations.CfProcBlkCompletes := by
  unfold Obligations.CfProcBlkCompletes
  intro n s ⟨⟨hpow, _, hwc, _⟩, _⟩ hfit
  obtain ⟨m, hloop, hin, hout⟩ := procElem_loop_blockWord s.opb.toNat n.toNat s
  rw [steps_eq s.cf _ _ hpow hwc] at hloop
  exact ⟨_, congrArg Host.Outcome.next ((check_block_pass hfit).trans hloop), rfl, fun i hi => ⟨_, hin i hi⟩, hout⟩

end Sys2Proof.Machine
end

section
/-! PROOF. What is pushed comes back (40_cbuf.md R115). -/

namespace Sys2Proof.Machine

/-- A sample just pushed is the sample at delay 0. -/
theorem pushed_sample_at_delay_zero (s : State) (v : Word) (hinv : s.cb.Inv s.params) :
    (runAll [(v, Instr.cbPush), (0#64, Instr.cbPullDly)] s).1[1]? = some v := by
  obtain ⟨hpow, _, hwc, _, hrising, _⟩ := hinv
  have hlt : (s.cb.wc + 1) % s.cb.cap < s.cb.cap := Nat.mod_lt _ (isPow2_pos _ hpow)
  have hpush := exec_cbPush { s with opa := v } hpow
  have hpull := exec_cbPullDly_of_inRange
    { s with
      opa := 0#64
      cb := { s.cb with
        wc := (s.cb.wc + 1) % s.cb.cap, store := storeWrite s.cb.store ((s.cb.wc + 1) % s.cb.cap) v } }
    0 hlt (isPow2_pos _ hpow) rfl
  rw [runAll, hpush]
  simp only [runAll, hpull, List.getElem?_cons_succ, List.getElem?_cons_zero]
  rw [Nat.sub_zero, Nat.add_mod_right, Nat.mod_mod, storeRead_storeWrite _ _ _ _ hrising, if_pos rfl]

/-- The words a block push leaves in the buffer are those of the block, when the buffer holds them all. -/
theorem storeRead_pushed {n : BitVec 20} {s t : State} (hinv : s.cb.Inv s.params) (hcap : n.toNat ≤ s.cb.cap)
    (hfit : s.opb.toNat + n.toNat ≤ s.params.dmemWords)
    (hdmem : ∀ i, i < n.toNat → ∃ v, cellGet s.dmem (s.opb.toNat + i) = some v)
    (h : exec (.cbPushBlk n) s = .next t) :
    t = { s with cb := { s.cb with wc := (s.cb.wc + n.toNat) % s.cb.cap, store := t.cb.store }, draws := t.draws } ∧
    ∀ i, i < n.toNat →
      some (storeRead t.cb.store ((s.cb.wc + 1 + i) % s.cb.cap)) = cellGet s.dmem (s.opb.toNat + i) := by
  obtain ⟨u, hu, heq, hlast, -⟩ := (cbPushBlkResult n s).2 hfit hinv
  cases hu.symm.trans h
  refine ⟨heq, fun i hi => ?_⟩
  obtain ⟨v, hv⟩ := hdmem i hi
  rw [hv, hlast i v hi (by omega) hv]

/-- Going back `n - 1` samples from the cursor that has passed `n` words, and forward `i` samples, is the place of word
`i`. -/
theorem back_forward_mod {wc n i cap : Nat} (hwc : wc < cap) (h1 : 1 ≤ n) (hn : n ≤ cap) :
    ((wc + n) % cap + cap - (n - 1) + i) % cap = (wc + 1 + i) % cap := by
  obtain h | h := Nat.lt_or_ge (wc + n) cap
  · rw [Nat.mod_eq_of_lt h, show wc + n + cap - (n - 1) + i = wc + 1 + i + cap by omega, Nat.add_mod_right]
  · have hmod : (wc + n) % cap = wc + n - cap := by rw [Nat.mod_eq_sub_mod h, Nat.mod_eq_of_lt (by omega)]
    rw [hmod, show wc + n - cap + cap - (n - 1) + i = wc + 1 + i by omega]

/-- Settles O52: the pushes leave the block's words behind the write cursor in order, where a read of the same block at
delay LEN - 1, or with a read cursor that stood at the write cursor, finds them. -/
theorem pushedSamplesComeBack : Obligations.PushedSamplesComeBack := by
  unfold Obligations.PushedSamplesComeBack
  refine ⟨pushed_sample_at_delay_zero, fun s t n b hinv h1 hcap hfit hbfit hdmem h => ?_⟩
  have htinv : t.cb.Inv t.params := by
    rw [params_of_exec h]
    exact cbInv_of_exec h hinv
  obtain ⟨heq, hword⟩ := storeRead_pushed hinv hcap hfit hdmem h
  have htwc : t.cb.wc = (s.cb.wc + n.toNat) % s.cb.cap := by rw [heq]
  have htcap : t.cb.cap = s.cb.cap := by rw [heq]
  have htrc : t.cb.rc = s.cb.rc := by rw [heq]
  have htfit : b.toNat + n.toNat ≤ t.params.dmemWords := by rwa [params_of_exec h]
  constructor
  · obtain ⟨u, hu, -, hin, -⟩ := ((cbPullDlyBlkResult n { t with opa := BitVec.ofNat 64 (n.toNat - 1), opb := b }).2
      htfit).2 (n.toNat - 1) htinv (by rw [htcap]; omega) (toInt_ofNat_of_lt (by omega))
    refine ⟨u, hu, fun i hi => ?_⟩
    obtain ⟨_, _, hwc, _⟩ := hinv
    rw [hin i hi, ← hword i hi]
    simp only [htwc, htcap, back_forward_mod hwc h1 hcap]
  · intro hrc
    obtain ⟨u, hu, -, hin, -⟩ := (cbPullBlkResult n { t with opb := b }).2 htfit htinv
    refine ⟨u, hu, fun i hi => ?_⟩
    rw [hin i hi, ← hword i hi]
    simp only [htrc, htcap, hrc]

end Sys2Proof.Machine
end

section
/-! PROOF. The distance of the cursors counts the pushes (40_cbuf.md R115). -/

namespace Sys2Proof.Machine

/-- The distance answered after pushes and no pull. -/
theorem distance_after_pushes (xs : List Word) (s : State) (hinv : s.cb.Inv s.params) :
    (runAll (xs.map (fun x => (x, Instr.cbPush)) ++ [(0#64, Instr.cbWrDist)]) s).1[xs.length]? =
      some (BitVec.ofNat 64 ((s.cb.wc + xs.length + s.cb.cap - s.cb.rc) % s.cb.cap)) := by
  induction xs generalizing s with
  | nil =>
    obtain ⟨_, _, _, hrc, _⟩ := hinv
    simp [runAll, exec, execCbWrDist, distance_eq s.cb hrc]
  | cons x xs ih =>
    have hpush := exec_cbPush { s with opa := x } hinv.1
    have hnext := cbInv_of_exec hpush hinv
    have hstep := ih _ hnext
    rw [List.map_cons, List.cons_append, runAll, hpush]
    simp only [List.length_cons, List.getElem?_cons_succ]
    rw [hstep]
    obtain ⟨_, _, _, hrc, _⟩ := hinv
    have hmod : ((s.cb.wc + 1) % s.cb.cap + xs.length + s.cb.cap - s.cb.rc) % s.cb.cap =
        (s.cb.wc + (xs.length + 1) + s.cb.cap - s.cb.rc) % s.cb.cap := by
      rw [Nat.add_assoc, Nat.add_sub_assoc (by omega), Nat.mod_add_mod]
      congr 1; omega
    simp only [hmod]

/-- Settles O53: fewer than CB_CAP pushes from equal cursors are their own remainder. -/
theorem distanceCountsPushes : Obligations.DistanceCountsPushes := by
  unfold Obligations.DistanceCountsPushes
  intro s xs hinv hrc hlt
  rw [distance_after_pushes xs s hinv, hrc, show s.cb.wc + xs.length + s.cb.cap - s.cb.wc = xs.length + s.cb.cap by omega,
    Nat.add_mod_right, Nat.mod_eq_of_lt hlt]

end Sys2Proof.Machine
end

section
/-! SUPPORT. The comb filter with an integer delay, over a line of zeros: the output is the input plus k times the sample
`D` back, and the samples back are those stored before (42_comb.md R163, R172). -/

namespace Sys2Proof.Machine

/-! ## A list of inputs -/

theorem run_concat (u : CfUnit) (xs : List F64) (x : F64) :
    u.run (xs ++ [x]) = ((u.run xs).1 ++ [((u.run xs).2.step x).1], ((u.run xs).2.step x).2) := by
  induction xs generalizing u with
  | nil => rfl
  | cons y ys ih => rw [List.cons_append, CfUnit.run, ih (u.step y).2]; rfl

/-- The outputs for the inputs `x 0` to `x (n - 1)`. -/
theorem run_range (u : CfUnit) (x : Nat → Word) (n : Nat) :
    u.run ((List.range n).map x) = ((List.range n).map (u.response x), u.steps x n) := by
  induction n with
  | zero => rfl
  | succ n ih =>
    rw [List.range_succ, List.map_append, List.map_singleton, run_concat, ih, steps_succ, List.map_append,
      List.map_singleton]
    rfl

/-! ## What the line recalls -/

/-- The line holds `past e` at the place `e` samples back from its write cursor. -/
def CfUnit.Recalls (u : CfUnit) (past : Nat → Word) : Prop :=
  ∀ e, e < u.cap → storeRead u.store ((u.wc + u.cap - e) % u.cap) = past e

/-- The place `k + 1` samples back from the advanced cursor is the place `k` samples back from the cursor. -/
theorem back_index_succ {wc cap k : Nat} (hk : k + 1 ≤ cap) :
    ((wc + 1) % cap + cap - (k + 1)) % cap = (wc + cap - k) % cap := by
  rw [Nat.add_sub_assoc hk, Nat.mod_add_mod]
  congr 1
  omega

/-- The sample back that the tap reads is one the line recalls. -/
theorem CfUnit.Recalls.back {u : CfUnit} {past : Nat → Word} (h : u.Recalls past) (x : F64) {k : Nat}
    (hk : k + 1 < u.cap) : u.back x (k + 1) = past k := by
  rw [CfUnit.back, if_neg (Nat.succ_ne_zero k), back_index_succ hk.le]
  exact h k (by omega)

/-- What a step stores becomes the newest sample, and the others move one further back. -/
theorem CfUnit.Recalls.step {u : CfUnit} {past past' : Nat → Word} {x : F64} (h : u.Recalls past)
    (hpow : IsPow2 u.cap) (hm : Rising u.store)
    (h0 : past' 0 = if u.fb then (u.step x).1 else x) (hsucc : ∀ e, past' (e + 1) = past e) :
    (u.step x).2.Recalls past' := by
  have hlt : (u.wc + 1) % u.cap < u.cap := Nat.mod_lt _ (isPow2_pos _ hpow)
  have hread := u.storeRead_step x hpow hm
  intro e he
  rw [u.step_unit x hpow] at he ⊢
  simp only at he ⊢
  rw [hread]
  cases e with
  | zero => rw [Nat.sub_zero, Nat.add_mod_right, Nat.mod_mod, if_pos rfl, h0]
  | succ e =>
    rw [if_neg (mt (back_index_eq_iff hlt he).1 (Nat.succ_ne_zero e)), back_index_succ he.le, hsucc]
    exact h e (by omega)

/-! ## An integer delay -/

/-- The split of a whole number. -/
theorem split_f64OfNat {D : Nat} (h : D < 2 ^ 53) :
    splitLo (f64OfNat D) = D ∧ splitFrac (f64OfNat D) = Config.zero := by
  obtain ⟨hu, -, -⟩ := units_f64OfNat D h
  have h0 : 0 ≤ units (f64OfNat D) := by rw [hu]; exact Int.natCast_nonneg _
  have hm : magUnits (f64OfNat D) = D * unitsPerOne := by
    rw [units_eq_magUnits h0] at hu
    exact_mod_cast hu
  exact ⟨by rw [splitLo_eq_div h0, hm, Nat.mul_div_cancel _ unitsPerOne_pos],
    splitFrac_eq_zero h0 (by rw [hm, Nat.mul_mod_left])⟩

/-- With an integer delay the tap is the sample that many back. -/
theorem CfUnit.step_output_integral {p : Params} {u : CfUnit} {D : Nat} (hinv : u.Inv p) (hD : D < 2 ^ 53)
    (hdelay : u.delay = f64OfNat D) (x : F64) : (u.step x).1 = fadd x (fmul u.k (u.back x D)) := by
  obtain ⟨hlo, hfrac⟩ := split_f64OfNat hD
  rw [u.step_output p x hinv, hdelay, hlo, hfrac]
  rfl

theorem CfUnit.Inv.steps {p : Params} {u : CfUnit} (h : u.Inv p) (x : Nat → Word) (n : Nat) : (u.steps x n).Inv p :=
  blockLoop_induct (fun _ u => u.Inv p) _ n u h fun _ _ _ hu => hu.step _

/-- The sample that the tap reads at input `j`, when the line kept `kept`: the input itself at delay 0, a sample kept
before, or one of the zeros the line held at first. -/
def tapped (D : Nat) (x kept : Nat → Word) (j : Nat) : Word :=
  if D = 0 then x j else if D ≤ j then kept (j - D) else Config.zero

theorem tapped_of_pos {D : Nat} (hD : 1 ≤ D) (x kept : Nat → Word) (j : Nat) :
    tapped D x kept j = if D ≤ j then kept (j - D) else Config.zero := if_neg (by omega)

theorem tapped_zero (x kept : Nat → Word) (j : Nat) : tapped 0 x kept j = x j := rfl

/-- What a line of zeros recalls after the samples `kept 0` to `kept (j - 1)`. -/
def recalled (kept : Nat → Word) (j e : Nat) : Word := if e < j then kept (j - 1 - e) else Config.zero

/-- Values that satisfy the comb's recurrence are its outputs from a line of zeros. -/
theorem response_eq_of_recurrence {p : Params} {u : CfUnit} {D : Nat} {x y : Nat → Word} (hinv : u.Inv p)
    (hstore : u.store = []) (hD : D < u.cap) (hcap : u.cap < 2 ^ 53) (hdelay : u.delay = f64OfNat D)
    (hy : ∀ j, y j = fadd (x j) (fmul u.k (tapped D x (if u.fb then y else x) j))) (j : Nat) :
    u.response x j = y j := by
  obtain ⟨⟨hpow, _, hwc, _⟩, _⟩ := id hinv
  have hfields (j : Nat) := steps_eq u x j hpow hwc
  -- the output at `j`, from what the line recalls
  have hout (j : Nat) (h : (u.steps x j).Recalls (recalled (if u.fb then y else x) j)) : u.response x j = y j := by
    have hcap' : (u.steps x j).cap = u.cap := by rw [hfields]
    have htap : (u.steps x j).back (x j) D = tapped D x (if u.fb then y else x) j := by
      cases D with
      | zero => rfl
      | succ D =>
        rw [h.back (x j) (by omega), recalled, tapped, if_neg (Nat.succ_ne_zero D), Nat.sub_sub, Nat.add_comm 1 D]
        rfl
    rw [CfUnit.response, CfUnit.step_output_integral (hinv.steps x j) (hD.trans hcap)
      (by rw [hfields]; exact hdelay), htap, hy, hfields]
  have hrecalls (j : Nat) : (u.steps x j).Recalls (recalled (if u.fb then y else x) j) := by
    induction j with
    | zero =>
      intro e _
      show storeRead u.store _ = _
      rw [hstore]
      rfl
    | succ j ih =>
      obtain ⟨⟨hpow', _, _, _, hm', _⟩, _⟩ := id (hinv.steps x j)
      have hfb : (u.steps x j).fb = u.fb := by rw [hfields]
      rw [steps_succ]
      refine ih.step hpow' hm' ?_ fun e => ?_
      · rw [hfb, recalled, if_pos (Nat.succ_pos j), show ((u.steps x j).step (x j)).1 = y j from hout j ih]
        cases u.fb <;> rfl
      · have hsub : j + 1 - 1 - (e + 1) = j - 1 - e := by omega
        simp only [recalled, Nat.add_lt_add_iff_right, hsub]
  exact hout j (hrecalls j)

end Sys2Proof.Machine
end

section
/-! PROOF. The impulse response of the comb filter (42_comb.md R172). -/

namespace Sys2Proof.Machine

/-! ## Products and sums with zeros and ones -/

theorem roundNearestEven_mul_right (num den : Nat) {c : Nat} (hc : 0 < c) :
    roundNearestEven (num * c) (den * c) = roundNearestEven num den := by
  have hl (a b : Nat) : 2 * (a * c) < b * c ↔ 2 * a < b := by
    rw [← Nat.mul_assoc]; exact Nat.mul_lt_mul_right hc
  have hr (a b : Nat) : b * c < 2 * (a * c) ↔ b < 2 * a := by
    rw [← Nat.mul_assoc]; exact Nat.mul_lt_mul_right hc
  simp only [roundNearestEven, Nat.mul_div_mul_right _ _ hc, Nat.mul_mod_mul_right, hl, hr]

/-- A common factor does not change the rounding of a quotient. -/
theorem roundMag_mul_right (num den : Nat) {c : Nat} (hc : 0 < c) :
    roundMag (num * c) (den * c) = roundMag num den := by
  simp only [roundMag, Nat.mul_div_mul_right _ _ hc, Nat.mul_right_comm den c, roundNearestEven_mul_right _ _ hc]

theorem isFinite_of_magBits_zero {x : F64} (h : magBits x = 0) : isFinite x = true :=
  (isFinite_iff x).2 (by rw [h]; decide)

theorem magUnits_one : magUnits Config.one = unitsPerOne := by decide +kernel

/-- A product by 1.0. -/
theorem fmul_one {x : F64} (h : isFinite x = true) : fmul x Config.one = x := by
  have hround : roundMag (magUnits x * unitsPerOne) unitsPerOne = magBits x := by
    have := roundMag_mul_right (magUnits x) 1 unitsPerOne_pos
    rw [Nat.one_mul, roundMag_magUnits x h] at this
    exact this
  rw [fmul_finite h (by decide), magUnits_one, hround, show signBit Config.one = false by decide, Bool.bne_false,
    packBits_self]

/-- A product by +0.0 is a zero. -/
theorem magBits_fmul_zero {x : F64} (h : isFinite x = true) : magBits (fmul x Config.zero) = 0 := by
  rw [fmul_finite h (by decide), show magUnits Config.zero = 0 by decide, Nat.mul_zero, roundMag_zero,
    magBits_packBits _ 0 (by decide)]

/-- A zero added to a nonzero finite value leaves it. -/
theorem fadd_of_zero_right {a z : F64} (ha : isFinite a = true) (ha0 : magBits a ≠ 0) (hz : magBits z = 0) :
    fadd a z = a := by
  have hsign : decide (units a < 0) = signBit a := by
    have hpos := Nat.pos_of_ne_zero (mt (magUnits_eq_zero_iff a).1 ha0)
    unfold units
    cases signBit a with
    | false => rw [if_neg Bool.false_ne_true, decide_eq_false (Int.not_lt.2 (Int.natCast_nonneg _))]
    | true => rw [if_pos rfl, decide_eq_true (by omega)]
  rw [fadd_finite a z ha (isFinite_of_magBits_zero hz), (units_eq_zero_iff z).2 hz, Int.add_zero,
    if_neg (mt (units_eq_zero_iff a).1 ha0), hsign, natAbs_units, roundMag_magUnits a ha, packBits_self]

/-- A finite value with a clear sign bit added to +0.0 is that value. -/
theorem zero_fadd {a : F64} (ha : isFinite a = true) (hs : signBit a = false) : fadd Config.zero a = a := by
  by_cases ha0 : magBits a = 0
  · rw [fadd_finite _ a (by decide) ha, (units_eq_zero_iff a).2 ha0, hs]
    calc _ = packBits (signBit a) (magBits a) := by rw [hs, ha0]; rfl
      _ = a := packBits_self a
  · have hcomm : fadd Config.zero a = fadd a Config.zero := by
      rw [fadd_finite _ a (by decide) ha, fadd_finite a _ ha (by decide), Int.add_comm, Bool.and_comm]
    rw [hcomm, fadd_of_zero_right ha ha0 (by decide)]

/-- A zero added to +0.0 is +0.0. -/
theorem zero_fadd_of_zero {z : F64} (hz : magBits z = 0) : fadd Config.zero z = Config.zero := by
  rw [fadd_finite _ z (by decide) (isFinite_of_magBits_zero hz), (units_eq_zero_iff z).2 hz]
  rfl

/-! ## The intensity -/

/-- The intensity is finite and at most one. -/
theorem intensity_bounds {k : F64} (h0 : fle Config.zero k = true) (h1 : fle k Config.kMax = true) :
    isFinite k = true ∧ magUnits k ≤ unitsPerOne := by
  have hk := (fle_not_nan _ _ h0).2
  have hlo := units_nonneg_of_fle h0
  have hhi := (fle_iff _ _ hk (by decide)).1 h1
  have hmax : units Config.kMax ≤ unitsPerOne := by decide +kernel
  rw [fle_iff_orderKey (by decide) hk] at h0
  rw [fle_iff_orderKey hk (by decide)] at h1
  refine ⟨isFinite_of_between (by decide) (by decide) h0 h1, ?_⟩
  have := units_eq_magUnits hlo
  omega

/-- A product by an intensity not below +0.0 keeps a clear sign bit and stays finite. -/
theorem fmul_intensity {k v : F64} (hk : isFinite k = true) (hk1 : magUnits k ≤ unitsPerOne) (hks : signBit k = false)
    (hv : isFinite v = true) (hvs : signBit v = false) : isFinite (fmul k v) = true ∧ signBit (fmul k v) = false := by
  have hlt := roundMag_lt (magUnits k * magUnits v) unitsPerOne
  have hle : roundMag (magUnits k * magUnits v) unitsPerOne ≤ magBits v := by
    have hround := roundMag_mul_right (magUnits v) 1 unitsPerOne_pos
    rw [Nat.one_mul, roundMag_magUnits v hv] at hround
    rw [← hround, Nat.mul_comm (magUnits v)]
    exact roundMag_mono _ _ _ (Nat.mul_le_mul_right _ hk1)
  rw [fmul_finite hk hv, hks, hvs, isFinite_iff, magBits_packBits _ _ hlt, signBit_packBits _ _ hlt]
  exact ⟨hle.trans_lt ((isFinite_iff v).1 hv), rfl⟩

/-- The powers of the intensity, with and without the sums with +0.0. -/
theorem iterate_intensity {k : F64} (hk : isFinite k = true) (hk1 : magUnits k ≤ unitsPerOne)
    (hks : signBit k = false) (n : Nat) :
    (fun v => fadd Config.zero (fmul k v))^[n] Config.one = (fmul k)^[n] Config.one ∧
    isFinite ((fmul k)^[n] Config.one) = true ∧ signBit ((fmul k)^[n] Config.one) = false := by
  have hone : isFinite Config.one = true ∧ signBit Config.one = false := by decide
  induction n with
  | zero =>
    rw [Function.iterate_zero_apply, Function.iterate_zero_apply]
    exact ⟨rfl, hone⟩
  | succ n ih =>
    obtain ⟨heq, hfin, hsign⟩ := ih
    obtain ⟨hfin', hsign'⟩ := fmul_intensity hk hk1 hks hfin hsign
    rw [Function.iterate_succ_apply', Function.iterate_succ_apply', heq]
    exact ⟨zero_fadd hfin' hsign', hfin', hsign'⟩

/-! ## The responses -/

/-- The impulse: 1.0, then zeros. -/
def impulse (j : Nat) : Word := if j = 0 then Config.one else Config.zero

theorem impulse_list (m : Nat) : Config.one :: List.replicate m Config.zero = (List.range (m + 1)).map impulse := by
  rw [List.range_succ_eq_map, List.map_cons, List.map_map]
  exact congrArg _ (List.ext_getElem (by simp) fun i _ _ => by simp [impulse])

section
variable {k : F64} (hk : isFinite k = true)
include hk

/-- Between the impulse and its echoes the comb answers +0.0. -/
theorem zero_fadd_fmul_zero : fadd Config.zero (fmul k Config.zero) = Config.zero :=
  zero_fadd_of_zero (magBits_fmul_zero hk)

/-- The impulse itself passes. -/
theorem one_fadd_fmul_zero : fadd Config.one (fmul k Config.zero) = Config.one :=
  fadd_of_zero_right (by decide) (by decide) (magBits_fmul_zero hk)

/-- Feed-forward with a delay of at least one: one echo (R172 a). -/
theorem feedForward_recurrence {D : Nat} (hD : 1 ≤ D) (j : Nat) :
    (if j = 0 then Config.one else if j = D then fadd Config.zero k else Config.zero) =
      fadd (impulse j) (fmul k (tapped D impulse impulse j)) := by
  rw [tapped_of_pos hD]
  by_cases h0 : j = 0
  · rw [h0, if_pos rfl, if_neg (by omega)]
    exact (one_fadd_fmul_zero hk).symm
  · rw [if_neg h0, show impulse j = Config.zero from if_neg h0]
    by_cases hjD : j = D
    · rw [if_pos hjD, hjD, if_pos le_rfl, Nat.sub_self, show impulse 0 = Config.one from rfl, fmul_one hk]
    · have htap : (if D ≤ j then impulse (j - D) else Config.zero) = Config.zero := by
        split
        · exact if_neg (by omega)
        · rfl
      rw [if_neg hjD, htap, zero_fadd_fmul_zero hk]

/-- Feedback: an echo at every multiple of the delay, each `k` times the one before (R172 b). -/
theorem feedback_recurrence {D : Nat} (hD : 1 ≤ D) (j : Nat) :
    (if j % D = 0 then (fun v => fadd Config.zero (fmul k v))^[j / D] Config.one else Config.zero) =
      fadd (impulse j) (fmul k (tapped D impulse (fun j =>
        if j % D = 0 then (fun v => fadd Config.zero (fmul k v))^[j / D] Config.one else Config.zero) j)) := by
  rw [tapped_of_pos hD]
  by_cases hjD : D ≤ j
  · have hmod : (j - D) % D = j % D := (Nat.mod_eq_sub_mod hjD).symm
    have hdiv : j / D = (j - D) / D + 1 := by rw [Nat.div_eq_sub_div hD hjD]
    rw [if_pos hjD, hmod, show impulse j = Config.zero from if_neg (by omega)]
    by_cases h0 : j % D = 0
    · rw [if_pos h0, if_pos h0, hdiv, Function.iterate_succ_apply']
    · rw [if_neg h0, if_neg h0, zero_fadd_fmul_zero hk]
  · have hlt : j < D := Nat.lt_of_not_le hjD
    rw [if_neg hjD, Nat.mod_eq_of_lt hlt, Nat.div_eq_of_lt hlt]
    by_cases h0 : j = 0
    · rw [h0, if_pos rfl]
      exact (one_fadd_fmul_zero hk).symm
    · rw [if_neg h0, show impulse j = Config.zero from if_neg h0, zero_fadd_fmul_zero hk]

/-- Feed-forward with no delay: the input is its own echo (R172 c). -/
theorem undelayed_recurrence (j : Nat) :
    (if j = 0 then fadd Config.one k else Config.zero) = fadd (impulse j) (fmul k (tapped 0 impulse impulse j)) := by
  rw [tapped_zero]
  by_cases h0 : j = 0
  · rw [h0, if_pos rfl, show impulse 0 = Config.one from rfl, fmul_one hk]
  · rw [if_neg h0, show impulse j = Config.zero from if_neg h0, zero_fadd_fmul_zero hk]

end

/-- Settles O41: each response satisfies the comb's recurrence for the impulse. -/
theorem impulseResponse : Obligations.ImpulseResponse := by
  unfold Obligations.ImpulseResponse
  intro s D m hp hinv hstore hD hdelay k ys
  obtain ⟨⟨_, hcap, _⟩, _, _, _, ⟨hk0, hk1⟩, _⟩ := id hinv
  obtain ⟨hkfin, hkle⟩ := intensity_bounds hk0 hk1
  have hcap' : s.cf.cap < 2 ^ 53 := by
    have := (maxCap_bounds hp).2
    omega
  have hys (j : Nat) (hj : j ≤ m) : ys[j]? = some (s.cf.response impulse j) := by
    have hrun : ys = (List.range (m + 1)).map (s.cf.response impulse) := by
      rw [show ys = _ from (runAll_cfProc _ s).1, impulse_list, run_range]
    rw [hrun, List.getElem?_map, List.getElem?_range (by omega), Option.map_some]
  have hresponse (y : Nat → Word)
      (hy : ∀ j, y j = fadd (impulse j) (fmul k (tapped D impulse (if s.cf.fb then y else impulse) j))) (j : Nat)
      (hj : j ≤ m) : ys[j]? = some (y j) := by
    rw [hys j hj, response_eq_of_recurrence hinv hstore hD hcap' hdelay hy]
  refine ⟨fun j hj => ⟨fun hfb hD1 => ?_, fun hfb hD1 => ?_, fun hfb hD0 => ?_⟩, fun hks => ?_⟩
  · exact hresponse _ (by rw [hfb]; exact feedForward_recurrence hkfin hD1) j hj
  · exact hresponse _ (by rw [hfb]; exact feedback_recurrence hkfin hD1) j hj
  · exact hresponse _ (by rw [hfb, hD0]; exact undelayed_recurrence hkfin) j hj
  · exact ⟨zero_fadd hkfin hks, fun n => (iterate_intensity hkfin hkle hks n).1⟩

end Sys2Proof.Machine
end

section
/-! PROOF. The comb's capacity never decreases except at reset (10_state.md R26 b). -/

namespace Sys2Proof.Machine

/-- Growing a line for a delay does not shorten it (42_comb.md R161). -/
theorem cap_le_retune (u : CfUnit) (fs freq d : F64) : u.cap ≤ (u.retune fs freq d).cap := by
  simp only [CfUnit.retune, CfUnit.grow]
  split
  case isTrue hshort => exact hshort.le.trans (le_np2 _)
  case isFalse _ => exact le_rfl

theorem step_cap (u : CfUnit) (x : F64) : (u.step x).2.cap = u.cap := by
  simp only [CfUnit.step]
  split <;> rfl

theorem procElem_cap (a i : Nat) (s : State) : (procElem a i s).cf.cap = s.cf.cap := by
  simp only [procElem, memWrite_cf, memRead_cf, step_cap]

/-- A check, before a part that does not shorten the comb's line. -/
theorem cap_le_check {s t : State} {ok : Bool} {c : Cause} {op : BitVec 8} (h : s.cf.cap ≤ t.cf.cap) :
    s.cf.cap ≤ (s.check ok c op t).cf.cap := by
  rcases check_cases s ok c op t with ⟨-, e⟩ | ⟨-, e⟩
  · rwa [e]
  · rw [e]; exact le_rfl

theorem cap_le_state_retune (s : State) (op : BitVec 8) (ok : Bool) (fs freq d : F64) :
    s.cf.cap ≤ (s.retune op ok fs freq d).cf.cap :=
  cap_le_check <| cap_le_check (cap_le_retune s.cf fs freq d)

/-- No command shortens the comb's line. -/
theorem cap_le_of_exec {i : Instr} {s t : State} (h : exec i s = .next t) : s.cf.cap ≤ t.cf.cap := by
  by_cases hi : unitOf i = .cf
  case neg => rw [(footprint_of_exec h).cf hi]
  cases i with
  | cfProc => cases h; exact (step_cap s.cf s.opa).ge
  | cfProcBlk n =>
    cases h
    exact cap_le_check (blockLoop_keeps (·.cf.cap) _ (procElem_cap _) n.toNat s).ge
  | cfSetFreq => cases (exec_cfSetFreq s).symm.trans h; exact cap_le_state_retune ..
  | cfSetDly => cases (exec_cfSetDly s _ rfl).symm.trans h; exact cap_le_state_retune ..
  | cfSetFbk => cases h; exact cap_le_check le_rfl
  | cfInitFs => cases (exec_cfInitFs s).symm.trans h; exact cap_le_state_retune ..
  | cfSetTopo => cases h; exact cap_le_check le_rfl
  | _ => cases hi

/-- Settles O15: the three commands that give the comb a delay only grow its line, and nothing but they and reset
touches the capacity. -/
theorem combCapacityNeverDecreases : Obligations.CombCapacityNeverDecreases := by
  unfold Obligations.CombCapacityNeverDecreases
  intro s t e rest hp he h
  cases step_outcome h with
  | command i rest run => exact (cap_le_of_exec run :)
  | reset rest event _ => exact absurd (List.cons.inj (hp.symm.trans event)).1 he
  | host _ _ cf _ _ => rw [cf]

end Sys2Proof.Machine
end

section
/-! PROOF. A command raises only the faults listed for it, and each of them in some state (60_exceptions.md R234). -/

namespace Sys2Proof.Machine

/-- The channel of a well-formed smoother command exists. -/
theorem exists_channel {i : Instr} {s : State} {c : BitVec 4} (hc : i.channel? = some c)
    (h : i.wellFormed s.sm.length = true) : ∃ ch, s.sm[c.toNat]? = some ch := by
  simp only [Instr.wellFormed, hc] at h
  exact ⟨_, List.getElem?_eq_getElem (of_decide_eq_true h)⟩

/-! ## The operands that raise each fault -/

/-- A block that starts beyond DMEM is refused by every command that moves a block. -/
theorem exec_of_block_outside {i : Instr} {s : State} (hi : Cause.dmemRange ∈ faultsOf i)
    (hw : i.wellFormed s.sm.length = true) (hb : s.params.dmemWords < s.opb.toNat) :
    exec i s = .next (s.faulted .dmemRange i.op) := by
  have hfail {n : BitVec 20} {op : BitVec 8} {t : State} :
      s.check (s.blockFits n) .dmemRange op t = s.faulted .dmemRange op :=
    check_block_fail (hb.trans_le (Nat.le_add_right _ _))
  cases i with
  | cbPushBlk | cbPullBlk | cbPullBlkAdd | cbPullDlyBlk | cbPullDlyBlkI | cbModDlyBlk | cbModDlyBlkD | cfProcBlk =>
    exact congrArg _ hfail
  | smNextBlk c n =>
    obtain ⟨ch, hch⟩ := exists_channel rfl hw
    rw [exec_smNextBlk hch]
    exact congrArg _ hfail
  | _ => simp [faultsOf] at hi

/-- An operand that is a NaN and, as an integer, negative is refused as a delay by every command that takes one. -/
theorem exec_of_delay_outside {i : Instr} {s : State} (hi : Cause.delayRange ∈ faultsOf i)
    (hb : s.opb.toNat + 2 ^ 20 ≤ s.params.dmemWords) (hint : s.opa.toInt < 0) (hnan : isNaN s.opa = true) :
    exec i s = .next (s.faulted .delayRange i.op) := by
  have hpass {n : BitVec 20} {op : BitVec 8} {t : State} : s.check (s.blockFits n) .dmemRange op t = t :=
    check_block_pass (by have := n.isLt; omega)
  have hfail {op : BitVec 8} {t : State} :
      s.check (delayInRange s.opaInt s.cb.cap) .delayRange op t = s.faulted .delayRange op :=
    check_delay_fail (.inl hint)
  cases i with
  | cbPullDly => exact congrArg _ hfail
  | cbPullDlyBlk | cbModDlyBlk | cbModDlyBlkD => exact congrArg _ (hpass.trans hfail)
  | cbPullDlyBlkI n =>
    exact congrArg _ (hpass.trans (check_fracDelay_fail (.inl (by simp [fle, hnan]))))
  | _ => simp [faultsOf] at hi

/-- An operand that is a NaN and, as an integer, negative is refused by every command that checks its operand. -/
theorem exec_of_bad_operand {i : Instr} {s : State} (hi : Cause.operand ∈ faultsOf i)
    (hw : i.wellFormed s.sm.length = true) (hint : s.opa.toInt < 0) (hnan : isNaN s.opa = true) :
    exec i s = .next (s.faulted .operand i.op) := by
  have hfin : isFinite s.opa = false := by
    rw [← Bool.not_eq_true]
    exact fun h => absurd (isNaN_of_isFinite _ h) (by simp [hnan])
  have hrate : rateValid s.opa = false := by rw [rateValid, hfin, Bool.false_and]
  have hfail {ok : Bool} {op : BitVec 8} {t : State} (hok : ok = false) :
      s.check ok .operand op t = s.faulted .operand op := check_fail ((Bool.not_eq_true _).mpr hok) (by decide)
  cases i with
  | cbResize => exact exec_cbResize_of_neg s hint
  | cfSetFreq => exact (exec_cfSetFreq s).trans (congrArg _ (retune_of_bad_operand (by simp [flt, hnan])))
  | cfSetDly => exact (exec_cfSetDly s _ rfl).trans (congrArg _ (retune_of_bad_operand (by rw [hfin, Bool.and_false])))
  | cfSetFbk => exact exec_cfSetFbk_of_nan s hnan
  | cfInitFs => exact congrArg _ (retune_of_bad_operand hrate)
  | cfSetTopo => exact exec_cfSetTopo_of_other s (by omega) (by omega)
  | smInit c =>
    obtain ⟨ch, hch⟩ := exists_channel rfl hw
    rw [exec_smInit hch]
    exact congrArg _ (hfail hrate)
  | smSetTime c =>
    obtain ⟨ch, hch⟩ := exists_channel rfl hw
    rw [exec_smSetTime hch]
    exact congrArg _ (hfail (by rw [SmChannel.timeValid, hfin, Bool.false_and, Bool.false_and]))
  | smSetTgt c =>
    obtain ⟨ch, hch⟩ := exists_channel rfl hw
    rw [exec_smSetTgt hch]
    exact congrArg _ (hfail hfin)
  | _ => simp [faultsOf] at hi

/-- With delay lines of 128 samples, a comb rate above 127.0 and a comb frequency of 1.0, the operand 128.0 asks every
command that sizes a line for one that is too long: as an integer, as a rate, as a delay, and as a frequency too low for
the rate. -/
theorem exec_of_line_too_long {i : Instr} {s : State} (hi : Cause.capacity ∈ faultsOf i)
    (hmax : s.params.maxCap = 128) (hfs : s.cf.fs = Config.fsReset) (hfreq : s.cf.freq = Config.one)
    (hopa : s.opa = 0x4060000000000000#64) : exec i s = .next (s.faulted .capacity i.op) := by
  have hlong {d : F64} (h : fle d 0x405FC00000000000#64 = false) : fle d (f64OfNat (s.params.maxCap - 1)) = false := by
    rwa [hmax, show f64OfNat (128 - 1) = 0x405FC00000000000#64 by decide +kernel]
  cases i with
  | cbResize => exact exec_cbResize_of_gt_maxCap s (by rw [hopa]; decide) (by rw [hopa, hmax]; decide)
  | cfSetFreq =>
    refine (exec_cfSetFreq s).trans (congrArg _ (retune_of_long_delay ?_ (hlong ?_)))
    · rw [hopa]; decide
    · rw [hopa, hfs]; decide +kernel
  | cfSetDly =>
    refine (exec_cfSetDly s _ rfl).trans (congrArg _ (retune_of_long_delay ?_ (hlong ?_)))
    · rw [hopa]; decide
    · rw [hopa]; decide
  | cfInitFs =>
    refine (exec_cfInitFs s).trans (congrArg _ (retune_of_long_delay ?_ (hlong ?_)))
    · rw [hopa]; decide
    · rw [hopa, hfreq]; decide +kernel
  | _ => simp [faultsOf] at hi

/-! ## A state that raises it -/

/-- An AUC with every smoother channel, DMEM for every block at its start, delay lines of 128 samples and a comb
frequency of 1.0, given two operands. -/
def givenOperands (opa opb : Word) : State :=
  { State.resetWith { maxCapLog2 := 7, dmemWords := 2 ^ 20, nsm := 16 } with
    cf := { CfUnit.reset with freq := Config.one }, opa := opa, opb := opb }

theorem wellFormed_givenOperands (i : Instr) (opa opb : Word) :
    i.wellFormed (givenOperands opa opb).sm.length = true := by
  unfold Instr.wellFormed
  cases i.channel? with
  | none => rfl
  | some c => exact decide_eq_true c.isLt

/-- Only the four causes that depend on the operands are listed for a command. -/
theorem faultsOf_subset (i : Instr) : faultsOf i ⊆ [.dmemRange, .delayRange, .operand, .capacity] := by
  cases i <;> simp [faultsOf]

/-- Settles O14: a command given to an AUC with its channel ends in one of the two ways of `CommandOutcome`, and
operands that are all ones, or 128.0, raise each of the listed faults. -/
theorem commandFaultsAreThoseListed : Obligations.CommandFaultsAreThoseListed := by
  unfold Obligations.CommandFaultsAreThoseListed
  refine ⟨fun i s t hw h => ?_, fun i c hc => ?_⟩
  · cases outcome_of_exec h with
    | faulted c cause next =>
      obtain hmem | ⟨-, hbad⟩ := cause
      · exact .inr ⟨c, hmem, next.trans (raise_eq_faulted s c i.op fun hb =>
          absurd hb (ne_none_bus_of_mem_faultsOf hmem).2)⟩
      · exact absurd (hw.symm.trans hbad) (by decide)
    | completed control _ => exact .inl (congrArg Control.faultLog control)
  · obtain rfl | rfl | rfl | rfl : c = .dmemRange ∨ c = .delayRange ∨ c = .operand ∨ c = .capacity := by
      simpa using faultsOf_subset i hc
    · have hw := wellFormed_givenOperands i 0#64 (-1#64)
      exact ⟨_, hw, exec_of_block_outside hc hw (by decide)⟩
    · exact ⟨_, wellFormed_givenOperands i (-1#64) 0#64, exec_of_delay_outside hc (by decide) (by decide) (by decide)⟩
    · have hw := wellFormed_givenOperands i (-1#64) 0#64
      exact ⟨_, hw, exec_of_bad_operand hc hw (by decide) (by decide)⟩
    · exact ⟨_, wellFormed_givenOperands i 0x4060000000000000#64 0#64,
        exec_of_line_too_long hc (by decide) rfl rfl rfl⟩

end Sys2Proof.Machine
end

section
/-! PROOF. The map of the host window (10_state.md R29, R37, R38, R44). -/

namespace Sys2Proof.Machine

/-- Settles O54: what is mapped at an offset is a register of the AUC that has that offset, and each is at a fixed
offset, a channel's mirror or a DMEM word. -/
theorem hostWindowMap : Obligations.HostWindowMap := by
  unfold Obligations.HostWindowMap
  intro p hn fixed fields
  have hfixed : fixed = fixedRegs.map fun r => (r, r.offset) := rfl
  have hfields : fields = smFields.map fun f => (f, f.offset) := rfl
  simp only [hfixed, hfields, List.forall_mem_map]
  refine ⟨fun r hr => regAt_offset hn (present_of_mem_fixedRegs p r hr),
    fun c hc f _ => regAt_offset (r := .sm c f) hn (decide_eq_true hc),
    fun i hi => regAt_offset (r := .dmem i) hn (decide_eq_true hi), fun off hfix hsm hdmem => ?_⟩
  rw [Option.eq_none_iff_forall_ne_some]
  intro r hr
  obtain ⟨hpres, hoff⟩ := present_offset_of_regAt hr
  obtain hmem | ⟨c, f, rfl⟩ | ⟨i, rfl⟩ := mem_fixedRegs_or r
  · exact hfix r hmem hoff.symm
  · exact hsm c (of_decide_eq_true hpres) f (by cases f <;> decide) hoff.symm
  · exact hdmem i (of_decide_eq_true hpres) hoff.symm

end Sys2Proof.Machine
end

section
/-! PROOF. Host reads and writes of the registers and DMEM (10_state.md R30 to R38, 20_memory.md R65, R67). -/

namespace Sys2Proof.Machine

/-- A register of the AUC is reached at its offset, when that is an address of the window. -/
theorem accessTarget_at_offset {p : Params} (hn : p.nsm ≤ 16) {r : HostReg} (k : AccessKind)
    (hr : r.present p = true) (hlt : r.offset < 2 ^ 64) (h8 : r.offset % 8 = 0) :
    accessTarget p { width := 64, offset := BitVec.ofNat 64 r.offset, kind := k } = some r := by
  have hoff : (BitVec.ofNat 64 r.offset).toNat = r.offset := by rw [BitVec.toNat_ofNat, Nat.mod_eq_of_lt hlt]
  exact accessTarget_of_present hn ⟨rfl, hoff.symm ▸ h8⟩ ⟨hr, hoff.symm⟩

/-- A channel's mirrors are reached at their offsets. -/
theorem accessTarget_mirror {p : Params} (hn : p.nsm ≤ 16) {c : Nat} (hc : c < p.nsm) (f : SmField)
    (k : AccessKind) :
    accessTarget p { width := 64, offset := BitVec.ofNat 64 (HostReg.sm c f).offset, kind := k } = some (.sm c f) := by
  obtain ⟨hlt, -⟩ := smField_offset f
  have h8 : f.offset % 8 = 0 := by cases f <;> rfl
  refine accessTarget_at_offset hn k (decide_eq_true hc) ?_ ?_
  · simp only [HostReg.offset]; omega
  · simp only [HostReg.offset]; omega

/-- The DMEM words are reached at their offsets. -/
theorem accessTarget_dmem {p : Params} (hp : p.Legal) {a : Nat} (ha : a < p.dmemWords) (k : AccessKind) :
    accessTarget p { width := 64, offset := BitVec.ofNat 64 (HostReg.dmem a).offset, kind := k } = some (.dmem a) := by
  obtain ⟨-, ⟨-, hwords⟩, -, hn⟩ := hp
  refine accessTarget_at_offset hn k (decide_eq_true ha) ?_ ?_
  · simp only [HostReg.offset]; omega
  · simp only [HostReg.offset]; omega

/-! ## The values read -/

/-- The words of `hostView` are those the registers at fixed offsets read. -/
theorem hostView_eq (s : State) : hostView s = fixedRegs.map fun r => (r, (s.readReg r).1) := by
  have hflag : ∀ b : Bool, (BitVec.ofBool b).setWidth 64 = if b then 1#64 else 0#64 := by decide
  simp only [fixedRegs, List.map_cons, List.map_nil, State.readReg, ctrlWord, hflag, hostView]

/-- A read of a register at a fixed offset draws no value. -/
theorem readReg_state_of_mem_fixedRegs (s : State) {r : HostReg} (h : r ∈ fixedRegs) : (s.readReg r).2 = s := by
  cases r with
  | dmem i => exact absurd (offset_of_mem_fixedRegs _ h).1 (by simp only [HostReg.offset]; omega)
  | _ => rfl

theorem readReg_of_mem_hostView {s : State} {r : HostReg} {v : Word} (h : (r, v) ∈ hostView s) :
    r ∈ fixedRegs ∧ s.readReg r = (v, s) := by
  rw [hostView_eq, List.mem_map] at h
  obtain ⟨q, hq, heq⟩ := h
  cases heq
  exact ⟨hq, Prod.ext rfl (readReg_state_of_mem_fixedRegs s hq)⟩

/-- A read of a register that draws no value only records what it reads. -/
theorem step_readFrom {s : State} {r : HostReg} {v : Word} {rest : List HostEvent}
    (hp : s.pending = readFrom r :: rest)
    (ht : accessTarget s.params { width := 64, offset := BitVec.ofNat 64 r.offset, kind := .read } = some r)
    (hr : State.readReg { s with pending := rest } r = (v, { s with pending := rest })) :
    step s = .next { s with pending := rest, hostReads := v :: s.hostReads } := by
  rw [step_read_mapped hp rfl ht, hr]
  rfl

/-- The mirrored fields of a channel. -/
theorem mirror_of_mem {ch : SmChannel} {f : SmField} {v : Word}
    (h : (f, v) ∈ [(SmField.fs, ch.fs), (.cur, ch.cur), (.tgt, ch.tgt), (.steps, BitVec.ofNat 64 ch.steps.toNat),
      (.inc, ch.inc), (.rem, BitVec.ofNat 64 ch.rem.toNat)]) : ch.mirror f = v := by
  rw [BitVec.ofNat_toNat, BitVec.ofNat_toNat] at h
  obtain ⟨g, -, heq⟩ := List.mem_map.1 (show (f, v) ∈ smFields.map fun f => (f, ch.mirror f) from h)
  cases heq
  rfl

/-! ## CONFIG and STATUS as numbers -/

/-- A word put above another, as a number. -/
theorem toNat_append_eq_add {m n : Nat} (x : BitVec m) (y : BitVec n) :
    (x ++ y).toNat = 2 ^ n * x.toNat + y.toNat := by
  rw [BitVec.toNat_append, Nat.shiftLeft_eq, Nat.mul_comm, Nat.two_pow_add_eq_or_of_lt y.isLt]

theorem configWord_toNat {p : Params} (hp : p.Legal) :
    (configWord p).toNat = p.maxCapLog2 + p.dmemWords * 2 ^ 8 + p.nsm * 2 ^ 40 + 7 * 2 ^ 56 := by
  obtain ⟨⟨-, hcap⟩, ⟨-, hwords⟩, -, hn⟩ := hp
  simp only [configWord, toNat_append_eq_add, BitVec.toNat_ofNat]
  rw [Nat.mod_eq_of_lt (a := p.nsm) (by omega), Nat.mod_eq_of_lt (a := p.dmemWords) (by omega),
    Nat.mod_eq_of_lt (a := p.maxCapLog2) (by omega), show Config.revision.toNat = 7 from rfl]
  omega

/-- A field put above a word that lies below it, as a number. -/
theorem toNat_shiftLeft_or {m k : Nat} (x : BitVec m) {y : Word} (hm : m + k ≤ 64) (hy : y.toNat < 2 ^ k) :
    (x.setWidth 64 <<< k ||| y).toNat = 2 ^ k * x.toNat + y.toNat := by
  have hx : 2 ^ k * x.toNat < 2 ^ 64 := calc
    2 ^ k * x.toNat < 2 ^ k * 2 ^ m := Nat.mul_lt_mul_of_pos_left x.isLt (Nat.two_pow_pos k)
    _ = 2 ^ (m + k) := by rw [← Nat.pow_add, Nat.add_comm]
    _ ≤ 2 ^ 64 := Nat.pow_le_pow_right (by decide) hm
  have hw : x.toNat < 2 ^ 64 := x.isLt.trans_le (Nat.pow_le_pow_right (by decide) (by omega))
  rw [BitVec.toNat_or, BitVec.toNat_shiftLeft, BitVec.toNat_setWidth, Nat.mod_eq_of_lt hw, Nat.shiftLeft_eq,
    Nat.mul_comm, Nat.mod_eq_of_lt hx, Nat.two_pow_add_eq_or_of_lt hy]

theorem toWord_toNat (st : Status) :
    st.toWord.toNat = (if st.err then 1 else 0) + st.cause.code.toNat * 2 ^ 4 + st.fop.toNat * 2 ^ 8 := by
  have herr : ((BitVec.ofBool st.err).setWidth 64).toNat = if st.err then 1 else 0 := by cases st.err <;> rfl
  have herr' : (if st.err then 1 else 0) < 2 := by split <;> decide
  have hcode := st.cause.code.isLt
  have hlow := toNat_shiftLeft_or (k := 4) st.cause.code (by decide) (herr.trans_lt (herr'.trans (by decide)))
  have hword := toNat_shiftLeft_or (k := 8) st.fop (by decide) (hlow.trans_lt (by omega))
  rw [Status.toWord, BitVec.or_assoc, hword, hlow, herr]
  omega

/-- Settles O55: each register is reached at its offset and read as the model's word for it, and CONFIG and STATUS are
their fields side by side. -/
theorem hostReadsShowState : Obligations.HostReadsShowState := by
  unfold Obligations.HostReadsShowState
  refine ⟨fun s r v rest hmem hp => ?_, fun s c ch f v rest hn hc hch hmem hp => ?_, fun p hp => configWord_toNat hp,
    toWord_toNat⟩
  · obtain ⟨hr, hread⟩ := readReg_of_mem_hostView (s := { s with pending := rest }) hmem
    exact step_readFrom hp (accessTarget_of_mem_fixedRegs s.params .read r hr) hread
  · refine step_readFrom hp (accessTarget_mirror hn hc f .read) (Prod.ext ?_ rfl)
    show ((s.sm[c]?).map fun ch => ch.mirror f).getD 0#64 = v
    rw [hch, Option.map_some, Option.getD_some, mirror_of_mem hmem]

/-- Settles O56: a host write to a register or word that it reaches stores the value, and a listed word reads as it is
listed. -/
theorem hostWritesAreReadBack : Obligations.HostWritesAreReadBack := by
  unfold Obligations.HostWritesAreReadBack
  refine fun s v rest => ⟨step_writeTo_fixed s .opa v rest (by decide) (by decide),
    step_writeTo_fixed s .opb v rest (by decide) (by decide), fun a hl ha hp => ?_, fun a hl ha hv hp => ?_⟩
  · exact ⟨_, step_write_mapped hp rfl (accessTarget_dmem hl ha (.write v)) (by simp), rfl,
      fun x => cellGet_cellPut s.dmem a x v⟩
  · exact step_readFrom hp (accessTarget_dmem hl ha .read) (memRead_of_listed { s with pending := rest } a v hv)

end Sys2Proof.Machine
end

section
/-! PROOF. A write to CMD runs the command it decodes to, and every step answers a next state (10_state.md R31,
60_exceptions.md R239). -/

namespace Sys2Proof.Machine

theorem runCommand_of_decode_ok {w : Word} {s : State} {i : Instr} (h : decode s.params.nsm w = .ok i) :
    runCommand w s = exec i s := by
  simp only [runCommand, h]

/-- Settles O4: the step of a CMD write is `runCommand` of its word, and a word below 2^64 is its own table word. -/
theorem stepRunsDecodedCommand : Obligations.StepRunsDecodedCommand := by
  unfold Obligations.StepRunsDecodedCommand
  refine ⟨fun s w rest i hp hd => ?_, fun s w i hd hw => ?_⟩
  · exact (step_writeTo_cmd s w rest hp).trans (runCommand_of_decode_ok hd)
  · have hword : tableWord 64 w = BitVec.ofNat 64 w := by rw [tableWord, Nat.mod_eq_of_lt hw]
    rw [step_writeTo_cmd (s.withFetchWord 64 w) (tableWord 64 w) s.pending rfl, hword]
    exact runCommand_of_decode_ok hd

/-- Settles O5: seven fixed words are decoded. -/
theorem specWordsDecode : Obligations.SpecWordsDecode := by
  unfold Obligations.SpecWordsDecode
  decide

/-- A command word runs to a next state, whether it selects a command or not. -/
theorem runCommand_next (w : Word) (s : State) : ∃ t, runCommand w s = .next t := by
  rcases runCommand_cases w s with ⟨i, -, hrun⟩ | ⟨e, -, hrun⟩
  · obtain ⟨t, ht, -⟩ := exec_outcome i s
    exact ⟨t, hrun.trans ht⟩
  · exact ⟨_, hrun⟩

/-- Settles O6: with nothing pending a step idles, and each event is served. -/
theorem everyStepAnswersNext : Obligations.EveryStepAnswersNext := by
  unfold Obligations.EveryStepAnswersNext
  intro s
  cases hp : s.pending with
  | nil => exact ⟨s, step_idle s hp⟩
  | cons e rest =>
    rcases step_cases s e rest hp with ⟨-, hs⟩ | ⟨a, -, ⟨-, hs⟩ | ⟨v, -, ⟨-, hs⟩ | ⟨-, hs⟩ | ⟨r, -, -, hs⟩⟩⟩
    · exact ⟨_, hs⟩
    · exact ⟨_, hs⟩
    · exact ⟨_, hs⟩
    · rw [hs]
      exact runCommand_next v _
    · exact ⟨_, hs⟩

end Sys2Proof.Machine
end

section
/-! PROOF. Reset: the values it gives and the invariants they meet (10_state.md R43, 70_reset_and_hazards.md R262). -/

namespace Sys2Proof.Machine

/-- Every channel of an AUC right after reset is a reset channel. -/
theorem eq_reset_of_mem_resetWith {p : Params} {ch : SmChannel} (h : ch ∈ (State.resetWith p).sm) :
    ch = SmChannel.reset :=
  List.eq_of_mem_replicate h

theorem step_reset {s : State} {rest : List HostEvent} (hp : s.pending = .reset :: rest) :
    step s = .next (State.hardReset { s with pending := rest }) := by
  rcases step_cases s _ rest hp with ⟨-, hs⟩ | ⟨a, ha, -⟩
  · exact hs
  · cases ha

/-- Settles O16: the pulse leaves the state of an AUC right after reset, whose fields are the values of R43. -/
theorem resetValues : Obligations.ResetValues := by
  unfold Obligations.ResetValues
  intro holds
  have hreset (p : Params) : holds p (State.resetWith p) := by
    refine ⟨rfl, ⟨rfl, rfl, rfl, storeRead_nil⟩, ⟨rfl, rfl, rfl, storeRead_nil⟩, ⟨rfl, rfl, rfl, rfl, rfl⟩,
      ⟨List.length_replicate, fun ch hch => ?_⟩, ⟨rfl, rfl, rfl, rfl, rfl, rfl⟩, fun a => rfl⟩
    rw [eq_reset_of_mem_resetWith hch]
    exact ⟨rfl, rfl, rfl, rfl, rfl, rfl⟩
  exact ⟨fun s rest hp => ⟨_, step_reset hp, hreset s.params, rfl, rfl, rfl⟩, hreset, hreset Params.standard⟩

/-- Settles O17: each unit's reset value meets the unit's invariant. -/
theorem resetMeetsInvariants : Obligations.ResetMeetsInvariants := by
  unfold Obligations.ResetMeetsInvariants
  intro p hp
  refine ⟨hp, lineInv_reset hp, cfInv_reset hp, ⟨List.length_replicate, fun ch hch => ?_⟩,
    ⟨List.Pairwise.nil, fun _ hc => absurd hc List.not_mem_nil⟩, status_inv_clear⟩
  rw [eq_reset_of_mem_resetWith hch]
  exact smInv_reset

end Sys2Proof.Machine
end

section
/-! PROOF. The expansion of assembler lines (30_encoding.md R92 to R94). -/

namespace Sys2Proof.Machine

/-- Settles O58: the lines are expanded. -/
theorem assemblerExpansion : Obligations.AssemblerExpansion := by
  unfold Obligations.AssemblerExpansion
  decide

end Sys2Proof.Machine
end
